-- ==== Sys2Proof/Config.lean ====
section
/-!
DEFINITION. What one instance of the unit fixes (00_scope.md R1, R2), and what the spec leaves open: the free values that
draws return (00_scope.md R13, 20_memory.md R44, 10_state.md R23), the latency table (70_reset_and_hazards.md R176), and the
platform's placement of the port (20_memory.md R40, R42).
-/

namespace Sys2Proof

/-- The word width of an instance: `W` is 32 or 64 (R1). -/
inductive Width where
  | w32
  | w64
  deriving DecidableEq, Repr

/-- The number of bits of a limb. -/
def Width.bits : Width → Nat
  | .w32 => 32
  | .w64 => 64

/-- The parameters that an instance of the unit fixes: the word width and the limb count `N`, `1 ≤ N ≤ 64` (R1, R2). -/
structure Params where
  width  : Width
  N      : Nat
  one_le : 1 ≤ N
  le_max : N ≤ 64
  deriving DecidableEq, Repr

/-- `W`, the number of bits of a limb and of the port's data bus (R1). -/
abbrev Params.W (p : Params) : Nat := p.width.bits

/-- The Montgomery radix `R = 2^(N·W)`: a number used in rules, not a register (R4). -/
def Params.radix (p : Params) : Nat := 2 ^ (p.N * p.W)

/-- The instance of `State.reset`: `W = 32`, `N = 2`, the instance of the spec's worked examples.
DESIGN CHOICE (log entry 1): the spec fixes no instance; every statement of the model is for every `Params`. -/
def Config.params : Params := ⟨.w32, 2, by decide, by decide⟩

/-- The `n`-th free word of `W` bits, `any_W` of the spec: nothing is known of it (log entry 6). -/
opaque Config.freeWord (W : Nat) (n : Nat) : BitVec W

/-- The `n`-th free bit, `any_1` of the spec: nothing is known of it (log entry 6). -/
opaque Config.freeBit (n : Nat) : Bool

/-- `LAT(op, N, W, SPAREBITS)`: a positive number of clock cycles, an open parameter (R176). No step depends on it
(log entry 11). -/
opaque Config.latency (opcode : BitVec 8) (N W spareBits : Nat) : PNat

/-- The order in which a byte-addressed host lays out the bytes of a limb. DESIGN CHOICE (log entry 13): the spec leaves the layout
open (20_memory.md R42; 93_implementation_defined.md section C), and the model narrows it to these two orders, over consecutive
addresses. -/
inductive ByteOrder where
  | littleEndian
  | bigEndian
  deriving DecidableEq, Repr, Inhabited

/-- `HOST_BYTE_ORDER`: an open parameter of the host bridge, outside the block (20_memory.md R42); which of the two orders it is,
nothing says (log entry 13). -/
opaque Config.hostByteOrder : ByteOrder

/-- `BASE`: where the port stands in the host's address space, an open parameter (20_memory.md R40; log entry 13). -/
opaque Config.base : Nat

/-- The platform's mapping from a host byte address to a port word address, for a given `BASE`; none for an address that is not the
unit's. An open parameter (20_memory.md R40; log entry 13). -/
opaque Config.wordAddress (base hostAddr : Nat) : Option (BitVec 16)

end Sys2Proof
end

