-- ==== Sys2Proof/Word.lean ====
section
/-!
DEFINITION. The data types of the unit: a limb is a word of `W` bits, and an operand is a vector of exactly `n` limbs in
little-endian limb order (00_scope.md R3). What is computed with them stands in Machine/Limbs.lean and Machine/Arith.lean.
-/

namespace Sys2Proof

/-- A vector of `n` limbs of `W` bits; limb 0, the first of the list, is the least significant (R3). -/
structure LimbVec (W n : Nat) where
  limbs     : List (BitVec W)
  length_eq : limbs.length = n
  deriving DecidableEq, Repr

/-- The vector whose limbs are all 0. -/
def LimbVec.zero (W n : Nat) : LimbVec W n := ⟨List.replicate n 0#W, List.length_replicate⟩

end Sys2Proof
end

