-- ==== Sys2Proof/Machine/Limbs.lean ====
section
/-!
DEFINITION. Limb vectors and their value (00_scope.md R3), single limbs, and the double-width vector of a register pair
(10_state.md R21).
-/

namespace Sys2Proof

/-- `val` of a list of limbs: limb `j` weighs `2^(j·W)` (R3). -/
def limbsVal {W : Nat} : List (BitVec W) → Nat
  | [] => 0
  | x :: xs => x.toNat + 2 ^ W * limbsVal xs

/-- `limbs_K(x)` as a list: the `k` limbs of `x mod 2^(k·W)` (R3). -/
def limbsOf (W : Nat) : Nat → Nat → List (BitVec W)
  | 0, _ => []
  | k + 1, x => BitVec.ofNat W x :: limbsOf W k (x / 2 ^ W)

theorem limbsOf_length (W k x : Nat) : (limbsOf W k x).length = k := by
  induction k generalizing x with
  | zero => rfl
  | succ k ih => simp [limbsOf, ih]

/-- `val(X)`, the value of a limb vector (R3). -/
def LimbVec.val {W n : Nat} (x : LimbVec W n) : Nat := limbsVal x.limbs

/-- `limbs_n(x)`: the `n`-limb vector whose value is `x mod 2^(n·W)` (R3). -/
def LimbVec.ofNat (W n x : Nat) : LimbVec W n := ⟨limbsOf W n x, limbsOf_length W n x⟩

/-- `X[j]`, limb `j`; 0 where there is no limb `j`. -/
def LimbVec.limb {W n : Nat} (x : LimbVec W n) (j : Nat) : BitVec W := x.limbs.getD j 0#W

/-- `X[j] <- w`; nothing where there is no limb `j`. -/
def LimbVec.setLimb {W n : Nat} (x : LimbVec W n) (j : Nat) (w : BitVec W) : LimbVec W n :=
  ⟨x.limbs.set j w, by simp [x.length_eq]⟩

/-- The double-width vector `hi : lo`; the low half's limbs come first (R21). -/
def LimbVec.join {W n : Nat} (lo hi : LimbVec W n) : LimbVec W (n + n) :=
  ⟨lo.limbs ++ hi.limbs, by simp [lo.length_eq, hi.length_eq]⟩

/-- The low `n` limbs of a double-width vector (R21). -/
def LimbVec.lowHalf {W n : Nat} (t : LimbVec W (n + n)) : LimbVec W n :=
  ⟨t.limbs.take n, by simp [t.length_eq]⟩

/-- The high `n` limbs of a double-width vector (R21). -/
def LimbVec.highHalf {W n : Nat} (t : LimbVec W (n + n)) : LimbVec W n :=
  ⟨t.limbs.drop n, by simp [t.length_eq]⟩

/-- `bitlen(x)`: the position of the highest set bit plus one, 0 for 0 (R29). -/
def bitlen (x : Nat) : Nat := if x = 0 then 0 else Nat.log2 x + 1

end Sys2Proof
end

