-- ==== Sys2Proof/Machine/Arith.lean ====
section
/-!
DEFINITION. The word primitives (00_scope.md R5 to R8) and the limb chains made of them (R9, R10). A chain's length is any `n`,
so `addChain` at `N` limbs is the spec's `addChain` and at `N + N` limbs its `addChain2`.
-/

namespace Sys2Proof

/-- `addWithCarry(a, b, cin) = (s, cout)` (R5). -/
def addWithCarry {W : Nat} (a b : BitVec W) (cin : Bool) : BitVec W × Bool :=
  let total := a.toNat + b.toNat + cin.toNat
  (BitVec.ofNat W total, decide (2 ^ W ≤ total))

/-- `subWithBorrow(a, b, bin) = (d, bout)`: the difference is taken as an integer, then narrowed (R6). -/
def subWithBorrow {W : Nat} (a b : BitVec W) (bin : Bool) : BitVec W × Bool :=
  let diff : Int := (a.toNat : Int) - b.toNat - bin.toNat
  (BitVec.ofInt W diff, decide (diff < 0))

/-- `mulWide(a, b) = (hi, lo)` with `hi : lo = a · b` (R7). -/
def mulWide {W : Nat} (a b : BitVec W) : BitVec W × BitVec W :=
  (BitVec.ofNat W (a.toNat * b.toNat / 2 ^ W), BitVec.ofNat W (a.toNat * b.toNat))

/-- `mask_W(f)`: all ones when `f = 1`, 0 when `f = 0` (R8). -/
def mask (W : Nat) (f : Bool) : BitVec W := if f then BitVec.allOnes W else 0#W

/-- `(a AND NOT mask_W(f)) OR (b AND mask_W(f))` on one limb (R8). -/
def ctSelectWord {W : Nat} (f : Bool) (a b : BitVec W) : BitVec W :=
  (a &&& ~~~(mask W f)) ||| (b &&& mask W f)

/-- `ctSelect(f, a, b)`, limb by limb (R8). -/
def ctSelect {W n : Nat} (f : Bool) (a b : LimbVec W n) : LimbVec W n :=
  ⟨List.zipWith (ctSelectWord f) a.limbs b.limbs, by simp [a.length_eq, b.length_eq]⟩

/-- `Y[j] = X[j] AND mask_W(f)` for every limb (42_select.md R91, R92; 44_modadd.md R115). -/
def maskVec {W n : Nat} (f : Bool) (x : LimbVec W n) : LimbVec W n :=
  ⟨x.limbs.map (fun w => w &&& mask W f), by simp [x.length_eq]⟩

/-- The carry chain on lists of limbs, in ascending limb order (R9). -/
def addLimbs {W : Nat} : List (BitVec W) → List (BitVec W) → Bool → List (BitVec W) × Bool
  | a :: as, b :: bs, c =>
    let r := addWithCarry a b c
    let rest := addLimbs as bs r.2
    (r.1 :: rest.1, rest.2)
  | _, _, c => ([], c)

theorem addLimbs_length {W : Nat} (as bs : List (BitVec W)) (c : Bool) :
    (addLimbs as bs c).1.length = min as.length bs.length := by
  induction as generalizing bs c with
  | nil => simp [addLimbs]
  | cons a as ih => cases bs <;> simp [addLimbs, ih, Nat.succ_min_succ]

/-- The borrow chain on lists of limbs, in ascending limb order (R10). -/
def subLimbs {W : Nat} : List (BitVec W) → List (BitVec W) → Bool → List (BitVec W) × Bool
  | a :: as, b :: bs, c =>
    let r := subWithBorrow a b c
    let rest := subLimbs as bs r.2
    (r.1 :: rest.1, rest.2)
  | _, _, c => ([], c)

theorem subLimbs_length {W : Nat} (as bs : List (BitVec W)) (c : Bool) :
    (subLimbs as bs c).1.length = min as.length bs.length := by
  induction as generalizing bs c with
  | nil => simp [subLimbs]
  | cons a as ih => cases bs <;> simp [subLimbs, ih, Nat.succ_min_succ]

/-- `addChain(A, B, cin) = (S, c_n)` (R9). -/
def addChain {W n : Nat} (a b : LimbVec W n) (cin : Bool) : LimbVec W n × Bool :=
  (⟨(addLimbs a.limbs b.limbs cin).1, by simp [addLimbs_length, a.length_eq, b.length_eq]⟩,
    (addLimbs a.limbs b.limbs cin).2)

/-- `subChain(A, B, bin) = (S, b_n)` (R10). -/
def subChain {W n : Nat} (a b : LimbVec W n) (bin : Bool) : LimbVec W n × Bool :=
  (⟨(subLimbs a.limbs b.limbs bin).1, by simp [subLimbs_length, a.length_eq, b.length_eq]⟩,
    (subLimbs a.limbs b.limbs bin).2)

/-- The final correction `finalSubMayOverflow` with overflow bit `hi`: subtract `m` unless that borrows and `hi = 0`; both
values are computed and one is selected by mask (42_select.md R93 with `hi = 0`, R94). -/
def finalSub {W n : Nat} (hi : Bool) (x m : LimbVec W n) : LimbVec W n :=
  let r := subChain x m false
  ctSelect (r.2 && !hi) r.1 x

end Sys2Proof
end

