-- ==== Sys2Proof/Syntax.lean ====
section
/-!
DEFINITION. The 22 commands (30_encoding.md R65), one constructor per row of spec/opcode_table.json. Opcodes, formats and
field places are in Decode.lean.
-/

namespace Sys2Proof

/-- The number of an operand register, `V0` to `V15` (10_state.md R20); in a pair field, the number of its low half (R21). -/
abbrev RegNum := Fin 16

/-- A command with its register fields, destination first (R61, R64). A field that names a pair holds the number as the word
gives it, odd ones too: an odd pair number is an issue error of that command, not another command (R63). -/
inductive Instr where
  | add (rd ra rb : RegNum)
  | adc (rd ra rb : RegNum)
  | sub (rd ra rb : RegNum)
  | sbb (rd ra rb : RegNum)
  | cmov (rd ra rb : RegNum)
  | caddm (rd ra : RegNum)
  | csubm (rd ra : RegNum)
  | finsub (rd ra : RegNum)
  | finsubc (rd ra : RegNum)
  | mulraw (rd ra rb : RegNum)
  | sqrraw (rd ra : RegNum)
  | mullo (rd ra rb : RegNum)
  | addmod (rd ra rb : RegNum)
  | submod (rd ra rb : RegNum)
  | addmodd (rd ra rb : RegNum)
  | submodd (rd ra rb : RegNum)
  | mredc (rd ra : RegNum)
  | mmul (rd ra rb : RegNum)
  | mmulnf (rd ra rb : RegNum)
  | msqr (rd ra : RegNum)
  | msqrnf (rd ra : RegNum)
  | setmod (ra rb : RegNum)
  deriving DecidableEq, Repr

end Sys2Proof
end

