-- ==== Sys2Proof/Machine/State.lean ====
section
/-!
DEFINITION. The state of the machine: the instance parameters, the unit's registers (10_state.md), the in-flight command
(R31), and the model's own fields: the events still to come, the last word read at the port, and the count of draws.
There is no memory and no program counter (20_memory.md R40, 10_state.md R24).
-/

namespace Sys2Proof.Machine

/-- The error codes that `ERR` takes (60_exceptions.md R150); codes 7 to 15 are never produced. -/
inductive ErrCode where
  /-- 0, NONE: no error since the last clear -/
  | noError
  /-- 1: undefined opcode, reserved bit set, or nonzero unused field -/
  | eill
  /-- 2: odd register number in a pair field -/
  | epair
  /-- 3: destination overlaps a source of a raw multiply -/
  | ealias
  /-- 4: a command that reads `MOD` while `CFG_VALID = 0` -/
  | enocfg
  /-- 5: SETMOD with an even modulus or a wrong m0ninv -/
  | ecfg
  /-- 6: a CMD write or an operand-register write while `BUSY = 1` -/
  | ebusy
  deriving DecidableEq, Repr

/-- One thing that happens at the unit: a host read or write of one port word (20_memory.md R44, R45), the Unit's turn to
complete the in-flight command (70_reset_and_hazards.md R173), or the reset input (R170). -/
inductive Event (p : Params) where
  | read (addr : BitVec 16)
  | write (addr : BitVec 16) (v : BitVec p.W)
  | unit
  | reset
  deriving DecidableEq, Repr

/-- The command in flight (10_state.md R31, 30_encoding.md R60): the latched command, the values its source registers held at
issue (`aHi`, `bHi` are the high halves where a source field names a pair, else 0), and `C` at issue. DEDUCED (log entry 9): the
command is held decoded, and `C` for every command, where R60 latches the word and the `C` it names. -/
structure Latch (p : Params) where
  cmd : Instr
  a   : LimbVec p.W p.N
  aHi : LimbVec p.W p.N
  b   : LimbVec p.W p.N
  bHi : LimbVec p.W p.N
  c   : Bool
  deriving DecidableEq, Repr

/-- The unit of an instance, and the model's own fields after `inFlight`. -/
structure Mau (p : Params) where
  /-- `V0`–`V15` (R20) -/
  regs      : Vector (LimbVec p.W p.N) 16
  /-- `C` (R25) -/
  carry     : Bool
  /-- `CFG_VALID` (R26) -/
  cfgValid  : Bool
  /-- `ERR` (R30) -/
  err       : ErrCode
  /-- `ERRINFO` (R30) -/
  errInfo   : BitVec p.W
  /-- `MOD` (R27) -/
  modulus   : LimbVec p.W p.N
  /-- `M0NINV` (R28) -/
  m0ninv    : BitVec p.W
  /-- `SPAREBITS` (R29) -/
  spareBits : BitVec p.W
  /-- the in-flight command; `BUSY = 1` exactly while there is one (R31) -/
  inFlight  : Option (Latch p)
  /-- the model's own (log entry 2): the events still to come, the next one first -/
  script    : List (Event p)
  /-- the model's own (log entry 5): the word that the last port read returned -/
  readData  : Option (BitVec p.W)
  /-- the model's own (log entry 6): how many free values have been drawn -/
  draws     : Nat
  deriving DecidableEq, Repr

/-- The state of the machine: the parameters of its instance, which no step changes, and the unit. -/
structure State where
  params : Params
  mau    : Mau params
  deriving DecidableEq, Repr

/-- Why the machine stops with a fault. The spec gives the unit no fault: its errors are recorded refusals (R151, R159). -/
inductive Fault where
  /-- Raised by every meaning when `exec` is asked to run a command that is not the one whose step is next: not the word
  being written to CMD, nor the command in flight at the Unit's turn. `step` never raises it. Safe: nothing runs. -/
  | notScheduled
  deriving DecidableEq, Repr

/-- Why an instruction has no meaning. -/
inductive Refusal where
  /-- Raised by `exec` for an instruction that the model does not give a meaning: none is left. Safe: nothing runs. -/
  | notModelled (mnemonic : String)
  deriving DecidableEq, Repr

/-- Every register at the value the spec states for reset (70_reset_and_hazards.md R170), for any instance; nothing in flight,
no event to come. -/
def Mau.reset (p : Params) : Mau p where
  regs      := Vector.replicate 16 (LimbVec.zero p.W p.N)
  carry     := false
  cfgValid  := false
  err       := .noError
  errInfo   := 0#p.W
  modulus   := LimbVec.zero p.W p.N
  m0ninv    := 0#p.W
  spareBits := 0#p.W
  inFlight  := none
  script    := []
  readData  := none
  draws     := 0

/-- The state of an instance right after reset. -/
def State.resetOf (p : Params) : State := ⟨p, Mau.reset p⟩

/-- The machine right after reset, for the instance `Config.params`. -/
def State.reset : State := State.resetOf Config.params

end Sys2Proof.Machine
end

