-- ==== Sys2Proof/Machine/Flags.lean ====
section
/-!
DEFINITION. The flags and the words software reads them in: `BUSY`, `C`, the error code's bits, STATUS (10_state.md R23), ID
(R22), and the spare-bit count (R29).
-/

namespace Sys2Proof.Machine

/-- `BUSY`: a command is in flight (R31). -/
def Mau.busy {p : Params} (u : Mau p) : Bool := u.inFlight.isSome

/-- `C <- b` (R25). -/
def Mau.setCarry {p : Params} (u : Mau p) (b : Bool) : Mau p := { u with carry := b }

/-- The four bits of an error code (60_exceptions.md R150). -/
def ErrCode.bits : ErrCode → BitVec 4
  | .noError => 0
  | .eill => 1
  | .epair => 2
  | .ealias => 3
  | .enocfg => 4
  | .ecfg => 5
  | .ebusy => 6

/-- The STATUS word: `BUSY` bit 0, `C` bit 1, `CFG_VALID` bit 2, bit 3 reads 0, `ERR` bits 7:4, the rest reads 0 (R23). -/
def statusWord (W : Nat) (busy c cfgValid : Bool) (err : ErrCode) : BitVec W :=
  (err.bits ++ 0#1 ++ BitVec.ofBool cfgValid ++ BitVec.ofBool c ++ BitVec.ofBool busy).setWidth W

/-- The ID word: `N` bits 7:0, `W` bits 15:8, `NREG = 16` bits 23:16, `VERSION = 1` bits 31:24, the rest 0 (R22). -/
def idWord (p : Params) : BitVec p.W :=
  (1#8 ++ 16#8 ++ BitVec.ofNat 8 p.W ++ BitVec.ofNat 8 p.N).setWidth p.W

/-- `SPAREBITS = N·W − bitlen(M)`, as a `W`-bit word (R29). -/
def spareBitsOf (p : Params) (M : Nat) : BitVec p.W := BitVec.ofNat p.W (p.N * p.W - bitlen M)

/-- The configuration is valid: `m0` is odd and `m0 · q mod 2^W = 2^W − 1` (46_config.md R141). -/
def configValid {W : Nat} (m0 q : BitVec W) : Bool :=
  m0.toNat % 2 == 1 && m0.toNat * q.toNat % 2 ^ W == 2 ^ W - 1

end Sys2Proof.Machine
end

