-- ==== Sys2Proof/WellFormed.lean ====
section
/-!
DEFINITION. When a command is well formed: the two issue checks that read nothing but its register numbers hold, that is
its pair fields are even (30_encoding.md R63) and a raw multiply's destination overlaps no source (43_multiply.md R105).
-/

namespace Sys2Proof

/-- A pair is named by an even register number (10_state.md R21). -/
def RegNum.isEven (r : RegNum) : Bool := r.val % 2 == 0

/-- The fields of a command that name pairs (R64: formats F3W, F2W, F3D, F2R). -/
def Instr.pairFields : Instr → List RegNum
  | .mulraw rd _ _ => [rd]
  | .sqrraw rd _ => [rd]
  | .addmodd rd ra rb => [rd, ra, rb]
  | .submodd rd ra rb => [rd, ra, rb]
  | .mredc _ ra => [ra]
  | .add _ _ _ | .adc _ _ _ | .sub _ _ _ | .sbb _ _ _ | .cmov _ _ _ => []
  | .caddm _ _ | .csubm _ _ | .finsub _ _ | .finsubc _ _ => []
  | .mullo _ _ _ | .addmod _ _ _ | .submod _ _ _ => []
  | .mmul _ _ _ | .mmulnf _ _ _ | .msqr _ _ | .msqrnf _ _ | .setmod _ _ => []

/-- Every pair field is even (R63). -/
def Instr.pairsEven (i : Instr) : Bool := i.pairFields.all RegNum.isEven

/-- A raw multiply's destination overlaps no source; true of every other command (R105). -/
def Instr.noOverlap : Instr → Bool
  | .mulraw rd ra rb => ra != rd && ra != rd + 1 && rb != rd && rb != rd + 1
  | .sqrraw rd ra => ra != rd && ra != rd + 1
  | .mullo rd ra rb => ra != rd && rb != rd
  | .add _ _ _ | .adc _ _ _ | .sub _ _ _ | .sbb _ _ _ | .cmov _ _ _ => true
  | .caddm _ _ | .csubm _ _ | .finsub _ _ | .finsubc _ _ => true
  | .addmod _ _ _ | .submod _ _ _ | .addmodd _ _ _ | .submodd _ _ _ => true
  | .mredc _ _ | .mmul _ _ _ | .mmulnf _ _ _ | .msqr _ _ | .msqrnf _ _ | .setmod _ _ => true

/-- The command passes the checks that depend on its register numbers alone. -/
abbrev Instr.WellFormed (i : Instr) : Prop := i.pairsEven = true ∧ i.noOverlap = true

end Sys2Proof
end

