-- ==== Sys2Proof/Decode.lean ====
section
/-!
DEFINITION. The command word (30_encoding.md): opcodes and formats, the decoder, total on every 64-bit value, and the encoder.
A `W`-bit word written to CMD is given to the decoder zero-extended to 64 bits (R61).
-/

namespace Sys2Proof

/-- What a register field names (R63): a register, a pair, or nothing (the field must be 0). -/
inductive FieldKind where
  | V
  | P
  | unused
  deriving DecidableEq, Repr

/-- The formats of R64. -/
inductive Format where
  | F3
  | F2
  | F3W
  | F2W
  | F3D
  | F2R
  | FC
  deriving DecidableEq, Repr

/-- The kind of `RD` in a format (R64). -/
def Format.rdKind : Format → FieldKind
  | .F3 | .F2 | .F2R => .V
  | .F3W | .F2W | .F3D => .P
  | .FC => .unused

/-- The kind of `RA` in a format (R64). -/
def Format.raKind : Format → FieldKind
  | .F3 | .F2 | .F3W | .F2W | .FC => .V
  | .F3D | .F2R => .P

/-- The kind of `RB` in a format (R64). -/
def Format.rbKind : Format → FieldKind
  | .F3 | .F3W | .FC => .V
  | .F3D => .P
  | .F2 | .F2W | .F2R => .unused

/-- The format of a command (R65). -/
def Instr.format : Instr → Format
  | .add _ _ _ | .adc _ _ _ | .sub _ _ _ | .sbb _ _ _ | .cmov _ _ _ => .F3
  | .caddm _ _ | .csubm _ _ | .finsub _ _ | .finsubc _ _ => .F2
  | .mulraw _ _ _ => .F3W
  | .sqrraw _ _ => .F2W
  | .mullo _ _ _ => .F3
  | .addmod _ _ _ | .submod _ _ _ => .F3
  | .addmodd _ _ _ | .submodd _ _ _ => .F3D
  | .mredc _ _ => .F2R
  | .mmul _ _ _ | .mmulnf _ _ _ => .F3
  | .msqr _ _ | .msqrnf _ _ => .F2
  | .setmod _ _ => .FC

/-- The opcode of a command (R65). -/
def Instr.opcode : Instr → BitVec 8
  | .add _ _ _ => 0x10
  | .adc _ _ _ => 0x11
  | .sub _ _ _ => 0x12
  | .sbb _ _ _ => 0x13
  | .cmov _ _ _ => 0x20
  | .caddm _ _ => 0x21
  | .csubm _ _ => 0x22
  | .finsub _ _ => 0x23
  | .finsubc _ _ => 0x24
  | .mulraw _ _ _ => 0x30
  | .sqrraw _ _ => 0x31
  | .mullo _ _ _ => 0x32
  | .addmod _ _ _ => 0x40
  | .submod _ _ _ => 0x41
  | .addmodd _ _ _ => 0x42
  | .submodd _ _ _ => 0x43
  | .mredc _ _ => 0x50
  | .mmul _ _ _ => 0x51
  | .mmulnf _ _ _ => 0x52
  | .msqr _ _ => 0x53
  | .msqrnf _ _ => 0x54
  | .setmod _ _ => 0x60

/-- The `RD` field of a command, 0 where the format does not use it (R61, R63). -/
def Instr.rd : Instr → RegNum
  | .add rd _ _ | .adc rd _ _ | .sub rd _ _ | .sbb rd _ _ | .cmov rd _ _ => rd
  | .caddm rd _ | .csubm rd _ | .finsub rd _ | .finsubc rd _ => rd
  | .mulraw rd _ _ | .sqrraw rd _ | .mullo rd _ _ => rd
  | .addmod rd _ _ | .submod rd _ _ | .addmodd rd _ _ | .submodd rd _ _ => rd
  | .mredc rd _ | .mmul rd _ _ | .mmulnf rd _ _ | .msqr rd _ | .msqrnf rd _ => rd
  | .setmod _ _ => 0

/-- The `RA` field of a command (R61). -/
def Instr.ra : Instr → RegNum
  | .add _ ra _ | .adc _ ra _ | .sub _ ra _ | .sbb _ ra _ | .cmov _ ra _ => ra
  | .caddm _ ra | .csubm _ ra | .finsub _ ra | .finsubc _ ra => ra
  | .mulraw _ ra _ | .sqrraw _ ra | .mullo _ ra _ => ra
  | .addmod _ ra _ | .submod _ ra _ | .addmodd _ ra _ | .submodd _ ra _ => ra
  | .mredc _ ra | .mmul _ ra _ | .mmulnf _ ra _ | .msqr _ ra | .msqrnf _ ra => ra
  | .setmod ra _ => ra

/-- The `RB` field of a command, 0 where the format does not use it (R61, R63). -/
def Instr.rb : Instr → RegNum
  | .add _ _ rb | .adc _ _ rb | .sub _ _ rb | .sbb _ _ rb | .cmov _ _ rb => rb
  | .caddm _ _ | .csubm _ _ | .finsub _ _ | .finsubc _ _ => 0
  | .mulraw _ _ rb | .mullo _ _ rb => rb
  | .sqrraw _ _ => 0
  | .addmod _ _ rb | .submod _ _ rb | .addmodd _ _ rb | .submodd _ _ rb => rb
  | .mredc _ _ => 0
  | .mmul _ _ rb | .mmulnf _ _ rb => rb
  | .msqr _ _ | .msqrnf _ _ => 0
  | .setmod _ rb => rb

/-- Why a word is no command; each is EILL at issue (R62, R63, R66). -/
inductive DecodeError where
  /-- one of `bits[31:20]`, or of `bits[63:32]`, is set (R62) -/
  | reservedBits
  /-- `OPC` is no opcode of R65 (R66) -/
  | undefinedOpcode
  /-- a register field that the format does not use is not 0 (R63) -/
  | unusedField
  deriving DecidableEq, Repr

/-- `OPC`, `bits[7:0]` (R61). -/
def opcField (v : BitVec 64) : BitVec 8 := v.extractLsb' 0 8
/-- `RD`, `bits[11:8]` (R61). -/
def rdField (v : BitVec 64) : RegNum := (v.extractLsb' 8 4).toFin
/-- `RA`, `bits[15:12]` (R61). -/
def raField (v : BitVec 64) : RegNum := (v.extractLsb' 12 4).toFin
/-- `RB`, `bits[19:16]` (R61). -/
def rbField (v : BitVec 64) : RegNum := (v.extractLsb' 16 4).toFin
/-- `RSV`, `bits[31:20]`, with `bits[63:32]` above it (R61, R62). -/
def rsvField (v : BitVec 64) : BitVec 44 := v.extractLsb' 20 44

/-- A command with three used register fields. -/
def decode3 (make : RegNum → RegNum → RegNum → Instr) (v : BitVec 64) : Except DecodeError Instr :=
  .ok (make (rdField v) (raField v) (rbField v))

/-- A command that does not use `RB` (R63). -/
def decode2 (make : RegNum → RegNum → Instr) (v : BitVec 64) : Except DecodeError Instr :=
  if rbField v = 0 then .ok (make (rdField v) (raField v)) else .error .unusedField

/-- A command that does not use `RD` (R63). -/
def decodeC (make : RegNum → RegNum → Instr) (v : BitVec 64) : Except DecodeError Instr :=
  if rdField v = 0 then .ok (make (raField v) (rbField v)) else .error .unusedField

/-- The command that a word's opcode and register fields give (R65). -/
def decodeFields (v : BitVec 64) : Except DecodeError Instr :=
  match (opcField v).toNat with
  | 0x10 => decode3 .add v
  | 0x11 => decode3 .adc v
  | 0x12 => decode3 .sub v
  | 0x13 => decode3 .sbb v
  | 0x20 => decode3 .cmov v
  | 0x21 => decode2 .caddm v
  | 0x22 => decode2 .csubm v
  | 0x23 => decode2 .finsub v
  | 0x24 => decode2 .finsubc v
  | 0x30 => decode3 .mulraw v
  | 0x31 => decode2 .sqrraw v
  | 0x32 => decode3 .mullo v
  | 0x40 => decode3 .addmod v
  | 0x41 => decode3 .submod v
  | 0x42 => decode3 .addmodd v
  | 0x43 => decode3 .submodd v
  | 0x50 => decode2 .mredc v
  | 0x51 => decode3 .mmul v
  | 0x52 => decode3 .mmulnf v
  | 0x53 => decode2 .msqr v
  | 0x54 => decode2 .msqrnf v
  | 0x60 => decodeC .setmod v
  | _ => .error .undefinedOpcode

/-- The decoder: the command of a word, or why there is none (R61 to R66). -/
def decode (v : BitVec 64) : Except DecodeError Instr :=
  if rsvField v = 0 then decodeFields v else .error .reservedBits

/-- The encoder: the command word `OPC | RD<<8 | RA<<12 | RB<<16`, `RSV = 0` (R61, R69). -/
def encode (i : Instr) : BitVec 32 :=
  0#12 ++ BitVec.ofFin (w := 4) i.rb ++ BitVec.ofFin (w := 4) i.ra ++ BitVec.ofFin (w := 4) i.rd ++ i.opcode

/-- The command that the decoder reads from a command word whose bits are `w`; `nbits` is 32 in every row of the table and
the command has no bits above them. -/
def decodeTableWord (nbits w : Nat) : Option Instr :=
  (decode (BitVec.ofNat 64 (w % 2 ^ nbits))).toOption

end Sys2Proof
end

