-- ==== Sys2Proof/Machine/Operands.lean ====
section
/-!
DEFINITION. Operands (30_encoding.md R63, R67): a register, a pair, and the values a command latches at issue (R60).
-/

namespace Sys2Proof.Machine

/-- `V[r]` (10_state.md R20). -/
def Mau.reg {p : Params} (u : Mau p) (r : RegNum) : LimbVec p.W p.N := u.regs[r]

/-- `V[r] <- x` (R20). -/
def Mau.setReg {p : Params} (u : Mau p) (r : RegNum) (x : LimbVec p.W p.N) : Mau p :=
  { u with regs := u.regs.set r x }

/-- `D(k) = V[k+1] : V[k]` (R21). -/
def Mau.pair {p : Params} (u : Mau p) (k : RegNum) : LimbVec p.W (p.N + p.N) := (u.reg k).join (u.reg (k + 1))

/-- `D(k) <- t`: the low half to `V[k]`, the high half to `V[k+1]` (R21). -/
def Mau.setPair {p : Params} (u : Mau p) (k : RegNum) (t : LimbVec p.W (p.N + p.N)) : Mau p :=
  (u.setReg k t.lowHalf).setReg (k + 1) t.highHalf

/-- The value a source field latches in its low (or only) half: `V[field]`, or 0 where the field is unused (R63). -/
def Mau.source {p : Params} (u : Mau p) (kind : FieldKind) (r : RegNum) : LimbVec p.W p.N :=
  match kind with
  | .V => u.reg r
  | .P => u.reg r
  | .unused => LimbVec.zero p.W p.N

/-- The value a source field latches in its high half: `V[field+1]` for a pair, else 0 (R63). -/
def Mau.sourceHi {p : Params} (u : Mau p) (kind : FieldKind) (r : RegNum) : LimbVec p.W p.N :=
  match kind with
  | .V => LimbVec.zero p.W p.N
  | .P => u.reg (r + 1)
  | .unused => LimbVec.zero p.W p.N

/-- What command `i` latches at issue: the values of its source registers, and `C` (R60, 10_state.md R31); `C` for
every command is log entry 9's. -/
def Mau.latch {p : Params} (u : Mau p) (i : Instr) : Latch p where
  cmd := i
  a   := u.source i.format.raKind i.ra
  aHi := u.sourceHi i.format.raKind i.ra
  b   := u.source i.format.rbKind i.rb
  bHi := u.sourceHi i.format.rbKind i.rb
  c   := u.carry

/-- The latched value of the pair that `RA` names. -/
def Latch.aPair {p : Params} (l : Latch p) : LimbVec p.W (p.N + p.N) := l.a.join l.aHi

/-- The latched value of the pair that `RB` names. -/
def Latch.bPair {p : Params} (l : Latch p) : LimbVec p.W (p.N + p.N) := l.b.join l.bHi

/-- `M`, the value of the configured modulus (R27). -/
def Mau.M {p : Params} (u : Mau p) : Nat := u.modulus.val

/-- `M' = M·R`: `MOD` in the high `N` limbs, 0 in the low `N` limbs (44_modadd.md R117). -/
def Mau.doubleModulus {p : Params} (u : Mau p) : LimbVec p.W (p.N + p.N) :=
  (LimbVec.zero p.W p.N).join u.modulus

end Sys2Proof.Machine
end

