-- ==== Sys2Proof/Machine/Ops.lean ====
section
/-!
DEFINITION. The shared operations: draws, the error action, the issue checks, issue and completion of a command, reset. An
error is this unit's only exception: a recorded refusal that transfers no control, so there is no return from one
(60_exceptions.md R151, R159).
-/

namespace Sys2Proof.Machine

/-! ### Free values (00_scope.md R13; log entry 6) -/

/-- `any_W`: a free word, and the unit with one more draw counted. -/
def Mau.drawWord {p : Params} (u : Mau p) : BitVec p.W × Mau p :=
  (Config.freeWord p.W u.draws, { u with draws := u.draws + 1 })

/-- A vector of `n` free words, the first drawn being limb 0. -/
def freeVec (W n start : Nat) : LimbVec W n :=
  ⟨(List.range n).map fun j => Config.freeWord W (start + j), by simp⟩

/-- `V[r] <- any`: a fresh free value in a destination register (R13). -/
def Mau.drawReg {p : Params} (u : Mau p) (r : RegNum) : Mau p :=
  { u.setReg r (freeVec p.W p.N u.draws) with draws := u.draws + p.N }

/-- `D(k) <- any`: a fresh free value in a destination pair (R13). -/
def Mau.drawPair {p : Params} (u : Mau p) (k : RegNum) : Mau p :=
  { u.setPair k (freeVec p.W (p.N + p.N) u.draws) with draws := u.draws + (p.N + p.N) }

/-- `V[r] <- x` for operands in the command's domain; a free value otherwise (R13). -/
def Mau.setRegIf {p : Params} (u : Mau p) (inDomain : Bool) (r : RegNum) (x : LimbVec p.W p.N) : Mau p :=
  if inDomain then u.setReg r x else u.drawReg r

/-- `D(k) <- t` for operands in the command's domain; a free value otherwise (R13). -/
def Mau.setPairIf {p : Params} (u : Mau p) (inDomain : Bool) (k : RegNum) (t : LimbVec p.W (p.N + p.N)) : Mau p :=
  if inDomain then u.setPair k t else u.drawPair k

/-! ### Errors (60_exceptions.md) -/

/-- `raise Error(code, info)`: record the first error since the last clear, change nothing else (R151). -/
def Mau.raiseError {p : Params} (u : Mau p) (code : ErrCode) (info : BitVec p.W) : Mau p :=
  if u.err = .noError then { u with err := code, errInfo := info } else u

/-- A field of kind `P` holds an odd number (check 3 of R151). -/
def oddPairField (kind : FieldKind) (r : RegNum) : Bool := kind == .P && r.val % 2 == 1

/-- The command has an odd pair field (check 3 of R151). -/
def hasOddPair (i : Instr) : Bool :=
  oddPairField i.format.rdKind i.rd || oddPairField i.format.raKind i.ra || oddPairField i.format.rbKind i.rb

/-- A raw multiply's destination overlaps a source (check 4 of R151; 43_multiply.md R105). -/
def hasOverlap : Instr → Bool
  | .mulraw rd ra rb => ra == rd || ra == rd + 1 || rb == rd || rb == rd + 1
  | .sqrraw rd ra => ra == rd || ra == rd + 1
  | .mullo rd ra rb => ra == rd || rb == rd
  | .add _ _ _ | .adc _ _ _ | .sub _ _ _ | .sbb _ _ _ | .cmov _ _ _ => false
  | .caddm _ _ | .csubm _ _ | .finsub _ _ | .finsubc _ _ => false
  | .addmod _ _ _ | .submod _ _ _ | .addmodd _ _ _ | .submodd _ _ _ => false
  | .mredc _ _ | .mmul _ _ _ | .mmulnf _ _ _ | .msqr _ _ | .msqrnf _ _ | .setmod _ _ => false

/-- The command reads `MOD`, so that it needs a valid configuration (R152, R153). -/
def readsMod : Instr → Bool
  | .caddm _ _ | .csubm _ _ | .finsub _ _ | .finsubc _ _ => true
  | .addmod _ _ _ | .submod _ _ _ | .addmodd _ _ _ | .submodd _ _ _ => true
  | .mredc _ _ | .mmul _ _ _ | .mmulnf _ _ _ | .msqr _ _ | .msqrnf _ _ => true
  | .add _ _ _ | .adc _ _ _ | .sub _ _ _ | .sbb _ _ _ | .cmov _ _ _ => false
  | .mulraw _ _ _ | .sqrraw _ _ | .mullo _ _ _ | .setmod _ _ => false

/-- A SETMOD whose modulus or m0ninv is not valid (check 6 of R151; 46_config.md R141). -/
def Mau.badConfig {p : Params} (u : Mau p) (i : Instr) : Bool :=
  match i with
  | .setmod ra rb => !configValid ((u.reg ra).limb 0) ((u.reg rb).limb 0)
  | .add _ _ _ | .adc _ _ _ | .sub _ _ _ | .sbb _ _ _ | .cmov _ _ _ => false
  | .caddm _ _ | .csubm _ _ | .finsub _ _ | .finsubc _ _ => false
  | .mulraw _ _ _ | .sqrraw _ _ | .mullo _ _ _ => false
  | .addmod _ _ _ | .submod _ _ _ | .addmodd _ _ _ | .submodd _ _ _ => false
  | .mredc _ _ | .mmul _ _ _ | .mmulnf _ _ _ | .msqr _ _ | .msqrnf _ _ => false

/-- The issue checks of a command, the first that fails (R151, R152). Check 2 is the decoder's. -/
def Mau.issueError {p : Params} (u : Mau p) (i : Instr) : Option ErrCode :=
  if u.busy then some .ebusy
  else if hasOddPair i then some .epair
  else if hasOverlap i then some .ealias
  else if readsMod i && !u.cfgValid then some .enocfg
  else if u.badConfig i then some .ecfg
  else none

/-! ### Issue and completion (30_encoding.md R60, 70_reset_and_hazards.md R173) -/

/-- The next event has happened: the rest is still to come. -/
def Mau.pop {p : Params} (u : Mau p) : Mau p := { u with script := u.script.tail }

/-- The issue of command `i`, written to CMD as word `v`: the first failing check is recorded and the command is discarded;
else the command and its operand values are latched, and `BUSY` is 1 (R60, R151). -/
def Mau.issue {p : Params} (u : Mau p) (i : Instr) (v : BitVec p.W) : Mau p :=
  match u.issueError i with
  | some code => u.raiseError code v
  | none => { u with inFlight := some (u.latch i) }

/-- `BUSY <- 0` (R173). -/
def Mau.finish {p : Params} (u : Mau p) : Mau p := { u with inFlight := none }

/-- A CMD write of a word that is no command: EBUSY comes first, then EILL (R151). -/
def Mau.rejectWord {p : Params} (u : Mau p) (v : BitVec p.W) : Mau p :=
  u.raiseError (if u.busy then .ebusy else .eill) v

/-- Port word address of CMD (20_memory.md R41). -/
def cmdAddr : BitVec 16 := 0x0002

/-- The word that the host is writing to CMD, if that is the next event. -/
def Mau.cmdWrite {p : Params} (u : Mau p) : Option (BitVec p.W) :=
  match u.script with
  | .write addr v :: _ => if addr = cmdAddr then some v else none
  | _ => none

/-- The command in flight, if the Unit moves next. With no event to come the Unit moves (log entry 2): a command in flight
completes after finitely many steps (R173). -/
def Mau.completing {p : Params} (u : Mau p) : Option (Latch p) :=
  match u.script with
  | [] => u.inFlight
  | .unit :: _ => u.inFlight
  | _ => none

/-- Command `i`'s part in the next step: its issue, if the host is writing it to CMD; its completion with the given effect,
if it is in flight and the Unit moves. The effect and `BUSY <- 0` are one step (20_memory.md R49). -/
def runCommand (i : Instr) (effect : {p : Params} → Latch p → Mau p → Mau p) (s : State) :
    Host.Outcome State Fault Refusal :=
  match s.mau.cmdWrite with
  | some v =>
    if decode (v.setWidth 64) = .ok i then .next ⟨s.params, (s.mau.issue i v).pop⟩ else .fault .notScheduled
  | none =>
    match s.mau.completing with
    | some l => if l.cmd = i then .next ⟨s.params, (effect l s.mau).finish.pop⟩ else .fault .notScheduled
    | none => .fault .notScheduled

/-! ### Reset (70_reset_and_hazards.md R170) -/

/-- The reset input: every piece of the unit's state takes its reset value; the model's own fields stay (log entry 4). -/
def Mau.applyReset {p : Params} (u : Mau p) : Mau p :=
  { Mau.reset p with script := u.script, readData := u.readData, draws := u.draws }

end Sys2Proof.Machine
end

