-- ==== Sys2Proof/Machine/CarryChain.lean ====
section
/-!
DEFINITION. The carry/borrow propagation chain: ADD, ADC, SUB, SBB (41_carry_chain.md). Sources and `C` are those latched at issue.
-/

namespace Sys2Proof.Machine

/-- What ADD does at completion (R80): `V[RD] <- S; C <- c` of `addChain(V[RA], V[RB], 0)`. -/
def addEffect (rd : RegNum) {p : Params} (l : Latch p) (u : Mau p) : Mau p :=
  let r := addChain l.a l.b false
  (u.setReg rd r.1).setCarry r.2

/-- ADD (R80): multi-precision add, carry in 0. -/
def execAdd (rd ra rb : RegNum) (s : State) : Host.Outcome State Fault Refusal :=
  runCommand (.add rd ra rb) (addEffect rd) s

/-- What ADC does at completion (R81): `V[RD] <- S; C <- c` of `addChain(V[RA], V[RB], C)`. -/
def adcEffect (rd : RegNum) {p : Params} (l : Latch p) (u : Mau p) : Mau p :=
  let r := addChain l.a l.b l.c
  (u.setReg rd r.1).setCarry r.2

/-- ADC (R81): multi-precision add with carry in `C`. -/
def execAdc (rd ra rb : RegNum) (s : State) : Host.Outcome State Fault Refusal :=
  runCommand (.adc rd ra rb) (adcEffect rd) s

/-- What SUB does at completion (R82): `V[RD] <- S; C <- bo` of `subChain(V[RA], V[RB], 0)`. -/
def subEffect (rd : RegNum) {p : Params} (l : Latch p) (u : Mau p) : Mau p :=
  let r := subChain l.a l.b false
  (u.setReg rd r.1).setCarry r.2

/-- SUB (R82): multi-precision subtract, borrow in 0. -/
def execSub (rd ra rb : RegNum) (s : State) : Host.Outcome State Fault Refusal :=
  runCommand (.sub rd ra rb) (subEffect rd) s

/-- What SBB does at completion (R83): `V[RD] <- S; C <- bo` of `subChain(V[RA], V[RB], C)`. -/
def sbbEffect (rd : RegNum) {p : Params} (l : Latch p) (u : Mau p) : Mau p :=
  let r := subChain l.a l.b l.c
  (u.setReg rd r.1).setCarry r.2

/-- SBB (R83): multi-precision subtract with borrow in `C`. -/
def execSbb (rd ra rb : RegNum) (s : State) : Host.Outcome State Fault Refusal :=
  runCommand (.sbb rd ra rb) (sbbEffect rd) s

end Sys2Proof.Machine
end

