-- ==== Sys2Proof/Machine/Configure.lean ====
section
/-!
DEFINITION. Modulus configuration: SETMOD (46_config.md). Its validity check is an issue check (R141; Machine/Ops.lean).
-/

namespace Sys2Proof.Machine

/-- What SETMOD does at completion (R140): `MOD`, `M0NINV`, `SPAREBITS` from the latched values, `CFG_VALID <- 1`. -/
def setmodEffect {p : Params} (l : Latch p) (u : Mau p) : Mau p :=
  { u with modulus := l.a, m0ninv := l.b.limb 0, spareBits := spareBitsOf p l.a.val, cfgValid := true }

/-- SETMOD (R140): load and validate the modulus. -/
def execSetmod (ra rb : RegNum) (s : State) : Host.Outcome State Fault Refusal :=
  runCommand (.setmod ra rb) setmodEffect s

end Sys2Proof.Machine
end

