-- ==== Sys2Proof/Machine/ModAdd.lean ====
section
/-!
DEFINITION. The modular adder/subtractor: ADDMOD, SUBMOD, ADDMODD, SUBMODD (44_modadd.md). Operands outside the domain give a free value
(00_scope.md R13). The reference datapaths stand in Machine/Datapath.lean. `C` is neither read nor written.
-/

namespace Sys2Proof.Machine

/-- `(a + b) mod m` (R110, R112). -/
def addModVal (m a b : Nat) : Nat := (a + b) % m

/-- `(a − b) mod m`, the non-negative remainder (R111, R113). -/
def subModVal (m a b : Nat) : Nat := (((a : Int) - b) % (m : Int)).toNat

/-- The domain of the modular commands: both operands below the modulus (R110 to R113). -/
def belowBoth (m a b : Nat) : Bool := decide (a < m) && decide (b < m)

/-- What ADDMOD does at completion (R110): `V[RD] <- limbs_N((a + b) mod M)` for `a, b < M`. -/
def addmodEffect (rd : RegNum) {p : Params} (l : Latch p) (u : Mau p) : Mau p :=
  u.setRegIf (belowBoth u.M l.a.val l.b.val) rd (LimbVec.ofNat p.W p.N (addModVal u.M l.a.val l.b.val))

/-- ADDMOD (R110): modular addition. -/
def execAddmod (rd ra rb : RegNum) (s : State) : Host.Outcome State Fault Refusal :=
  runCommand (.addmod rd ra rb) (addmodEffect rd) s

/-- What SUBMOD does at completion (R111): `V[RD] <- limbs_N((a − b) mod M)` for `a, b < M`. -/
def submodEffect (rd : RegNum) {p : Params} (l : Latch p) (u : Mau p) : Mau p :=
  u.setRegIf (belowBoth u.M l.a.val l.b.val) rd (LimbVec.ofNat p.W p.N (subModVal u.M l.a.val l.b.val))

/-- SUBMOD (R111): modular subtraction. -/
def execSubmod (rd ra rb : RegNum) (s : State) : Host.Outcome State Fault Refusal :=
  runCommand (.submod rd ra rb) (submodEffect rd) s

/-- What ADDMODD does at completion (R112): `D(RD) <- limbs_2N((a + b) mod M')` for `a, b < M' = M·R`. -/
def addmoddEffect (rd : RegNum) {p : Params} (l : Latch p) (u : Mau p) : Mau p :=
  let m' := u.doubleModulus.val
  u.setPairIf (belowBoth m' l.aPair.val l.bPair.val) rd
    (LimbVec.ofNat p.W (p.N + p.N) (addModVal m' l.aPair.val l.bPair.val))

/-- ADDMODD (R112): double-width modular addition. -/
def execAddmodd (rd ra rb : RegNum) (s : State) : Host.Outcome State Fault Refusal :=
  runCommand (.addmodd rd ra rb) (addmoddEffect rd) s

/-- What SUBMODD does at completion (R113): `D(RD) <- limbs_2N((a − b) mod M')` for `a, b < M' = M·R`. -/
def submoddEffect (rd : RegNum) {p : Params} (l : Latch p) (u : Mau p) : Mau p :=
  let m' := u.doubleModulus.val
  u.setPairIf (belowBoth m' l.aPair.val l.bPair.val) rd
    (LimbVec.ofNat p.W (p.N + p.N) (subModVal m' l.aPair.val l.bPair.val))

/-- SUBMODD (R113): double-width modular subtraction. -/
def execSubmodd (rd ra rb : RegNum) (s : State) : Host.Outcome State Fault Refusal :=
  runCommand (.submodd rd ra rb) (submoddEffect rd) s

end Sys2Proof.Machine
end

