-- ==== Sys2Proof/Machine/Reduction.lean ====
section
/-!
DEFINITION. The Montgomery candidate and reduction as numbers (45_montgomery.md R125): `R` a power of two, `M` odd.
-/

namespace Sys2Proof

/-- `k` steps of `x ← x·(2 − M·x) mod R` from 1: after `k` steps `M·x ≡ 1 (mod 2^(2^k))` for odd `M`, so that `M·x ≡ 1 (mod R)`
once `R` divides `2^(2^k)`. DEDUCED (log entry 8): R125 names the inverse and gives no way to compute it. -/
def invSteps (R M : Nat) : Nat → Nat
  | 0 => 1
  | k + 1 =>
    let x := invSteps R M k
    x * (2 + (R - M * x % R)) % R

/-- `M⁻¹ mod R` for odd `M` and `R = 2^(N·W)`: `N·W ≤ 64·64 = 2^12`, so 12 steps are enough (R4, R125). -/
def montInv (R M : Nat) : Nat := invSteps R M 12

/-- `m(T) = (−T · M⁻¹) mod R` (R125). -/
def montM (R M T : Nat) : Nat := (R - T * montInv R M % R) % R

/-- `cand(T) = (T + m(T)·M) / R` (R125). -/
def cand (R M T : Nat) : Nat := (T + montM R M T * M) / R

/-- `redc(T)`: `cand(T) − M` if `cand(T) ≥ M`, else `cand(T)` (R125). -/
def redc (R M T : Nat) : Nat := if M ≤ cand R M T then cand R M T - M else cand R M T

end Sys2Proof
end

