-- ==== Sys2Proof/Machine/Montgomery.lean ====
section
/-!
DEFINITION. Montgomery reduction and multiplication: MREDC, MMUL, MMULNF, MSQR, MSQRNF (45_montgomery.md). Operands outside the domain give
a free value (00_scope.md R13). The reference datapaths stand in Machine/Datapath.lean. `C` is neither read nor written.
-/

namespace Sys2Proof.Machine

/-- The domain of MMUL, MMULNF, MSQR, MSQRNF: operands below `M`, or below `2M` when `SPAREBITS ≥ 2` (R126). -/
def mulDomain (M spareBits a b : Nat) : Bool :=
  (decide (a < M) && decide (b < M)) || (decide (2 ≤ spareBits) && decide (a < 2 * M) && decide (b < 2 * M))

/-- The result without final subtraction: the candidate when `SPAREBITS ≥ 1`, the reduced value when `SPAREBITS = 0`
(R122, R124, R130). -/
def redcNoFinal (R M spareBits T : Nat) : Nat := if 1 ≤ spareBits then cand R M T else redc R M T

/-- What MREDC does at completion (R120): `V[RD] <- limbs_N(redc(T))` for `T = D(RA) < M·R`. -/
def mredcEffect (rd : RegNum) {p : Params} (l : Latch p) (u : Mau p) : Mau p :=
  u.setRegIf (decide (l.aPair.val < u.M * p.radix)) rd
    (LimbVec.ofNat p.W p.N (redc p.radix u.M l.aPair.val))

/-- MREDC (R120): Montgomery reduction. -/
def execMredc (rd ra : RegNum) (s : State) : Host.Outcome State Fault Refusal :=
  runCommand (.mredc rd ra) (mredcEffect rd) s

/-- What MMUL does at completion (R121): `V[RD] <- limbs_N(redc(a·b))` in the domain of R126. -/
def mmulEffect (rd : RegNum) {p : Params} (l : Latch p) (u : Mau p) : Mau p :=
  u.setRegIf (mulDomain u.M u.spareBits.toNat l.a.val l.b.val) rd
    (LimbVec.ofNat p.W p.N (redc p.radix u.M (l.a.val * l.b.val)))

/-- MMUL (R121): Montgomery multiplication, fully reduced. -/
def execMmul (rd ra rb : RegNum) (s : State) : Host.Outcome State Fault Refusal :=
  runCommand (.mmul rd ra rb) (mmulEffect rd) s

/-- What MMULNF does at completion (R122): `V[RD] <- limbs_N(cand(a·b))` when `SPAREBITS ≥ 1`, else `limbs_N(redc(a·b))`,
in the domain of R126. -/
def mmulnfEffect (rd : RegNum) {p : Params} (l : Latch p) (u : Mau p) : Mau p :=
  u.setRegIf (mulDomain u.M u.spareBits.toNat l.a.val l.b.val) rd
    (LimbVec.ofNat p.W p.N (redcNoFinal p.radix u.M u.spareBits.toNat (l.a.val * l.b.val)))

/-- MMULNF (R122): Montgomery multiplication without final subtraction. -/
def execMmulnf (rd ra rb : RegNum) (s : State) : Host.Outcome State Fault Refusal :=
  runCommand (.mmulnf rd ra rb) (mmulnfEffect rd) s

/-- What MSQR does at completion (R123): `V[RD] <- limbs_N(redc(a·a))` in the domain of R126. -/
def msqrEffect (rd : RegNum) {p : Params} (l : Latch p) (u : Mau p) : Mau p :=
  u.setRegIf (mulDomain u.M u.spareBits.toNat l.a.val l.a.val) rd
    (LimbVec.ofNat p.W p.N (redc p.radix u.M (l.a.val * l.a.val)))

/-- MSQR (R123): Montgomery squaring, fully reduced. -/
def execMsqr (rd ra : RegNum) (s : State) : Host.Outcome State Fault Refusal :=
  runCommand (.msqr rd ra) (msqrEffect rd) s

/-- What MSQRNF does at completion (R124): `V[RD] <- limbs_N(cand(a·a))` when `SPAREBITS ≥ 1`, else `limbs_N(redc(a·a))`,
in the domain of R126. -/
def msqrnfEffect (rd : RegNum) {p : Params} (l : Latch p) (u : Mau p) : Mau p :=
  u.setRegIf (mulDomain u.M u.spareBits.toNat l.a.val l.a.val) rd
    (LimbVec.ofNat p.W p.N (redcNoFinal p.radix u.M u.spareBits.toNat (l.a.val * l.a.val)))

/-- MSQRNF (R124): Montgomery squaring without final subtraction. -/
def execMsqrnf (rd ra : RegNum) (s : State) : Host.Outcome State Fault Refusal :=
  runCommand (.msqrnf rd ra) (msqrnfEffect rd) s

end Sys2Proof.Machine
end

