-- ==== Sys2Proof/Machine/Multiply.lean ====
section
/-!
DEFINITION. The multi-precision multiplier and squarer: MULRAW, SQRRAW, MULLO (43_multiply.md). Their results are values (00_scope.md R12);
the reference datapaths stand in Machine/Datapath.lean. `C` is neither read nor written.
-/

namespace Sys2Proof.Machine

/-- What MULRAW does at completion (R100): `D(RD) <- limbs_2N(a · b)`. -/
def mulrawEffect (rd : RegNum) {p : Params} (l : Latch p) (u : Mau p) : Mau p :=
  u.setPair rd (LimbVec.ofNat p.W (p.N + p.N) (l.a.val * l.b.val))

/-- MULRAW (R100): full double-width product. -/
def execMulraw (rd ra rb : RegNum) (s : State) : Host.Outcome State Fault Refusal :=
  runCommand (.mulraw rd ra rb) (mulrawEffect rd) s

/-- What SQRRAW does at completion (R101): `D(RD) <- limbs_2N(a²)`. -/
def sqrrawEffect (rd : RegNum) {p : Params} (l : Latch p) (u : Mau p) : Mau p :=
  u.setPair rd (LimbVec.ofNat p.W (p.N + p.N) (l.a.val * l.a.val))

/-- SQRRAW (R101): full double-width square. -/
def execSqrraw (rd ra : RegNum) (s : State) : Host.Outcome State Fault Refusal :=
  runCommand (.sqrraw rd ra) (sqrrawEffect rd) s

/-- What MULLO does at completion (R102): `V[RD] <- limbs_N((a · b) mod R)`. -/
def mulloEffect (rd : RegNum) {p : Params} (l : Latch p) (u : Mau p) : Mau p :=
  u.setReg rd (LimbVec.ofNat p.W p.N (l.a.val * l.b.val % p.radix))

/-- MULLO (R102): truncated product. -/
def execMullo (rd ra rb : RegNum) (s : State) : Host.Outcome State Fault Refusal :=
  runCommand (.mullo rd ra rb) (mulloEffect rd) s

end Sys2Proof.Machine
end

