-- ==== Sys2Proof/Machine/Select.lean ====
section
/-!
DEFINITION. The conditional-move masking unit and the final corrections: CMOV, CADDM, CSUBM, FINSUB, FINSUBC (42_select.md).
-/

namespace Sys2Proof.Machine

/-- What CMOV does at completion (R90): `V[RD] <- ctSelect(C, V[RA], V[RB])`; `C` is not written. -/
def cmovEffect (rd : RegNum) {p : Params} (l : Latch p) (u : Mau p) : Mau p :=
  u.setReg rd (ctSelect l.c l.a l.b)

/-- CMOV (R90): constant-time select. -/
def execCmov (rd ra rb : RegNum) (s : State) : Host.Outcome State Fault Refusal :=
  runCommand (.cmov rd ra rb) (cmovEffect rd) s

/-- What CADDM does at completion (R91): add `MOD AND mask(C)`, the carry out to `C`. -/
def caddmEffect (rd : RegNum) {p : Params} (l : Latch p) (u : Mau p) : Mau p :=
  let r := addChain l.a (maskVec l.c u.modulus) false
  (u.setReg rd r.1).setCarry r.2

/-- CADDM (R91): conditional add of the modulus. -/
def execCaddm (rd ra : RegNum) (s : State) : Host.Outcome State Fault Refusal :=
  runCommand (.caddm rd ra) (caddmEffect rd) s

/-- What CSUBM does at completion (R92): subtract `MOD AND mask(C)`, the borrow out to `C`. -/
def csubmEffect (rd : RegNum) {p : Params} (l : Latch p) (u : Mau p) : Mau p :=
  let r := subChain l.a (maskVec l.c u.modulus) false
  (u.setReg rd r.1).setCarry r.2

/-- CSUBM (R92): conditional subtract of the modulus. -/
def execCsubm (rd ra : RegNum) (s : State) : Host.Outcome State Fault Refusal :=
  runCommand (.csubm rd ra) (csubmEffect rd) s

/-- What FINSUB does at completion (R93): subtract `MOD` unless that borrows; `C` is neither read nor written. -/
def finsubEffect (rd : RegNum) {p : Params} (l : Latch p) (u : Mau p) : Mau p :=
  u.setReg rd (finalSub false l.a u.modulus)

/-- FINSUB (R93): final subtraction, no carry. -/
def execFinsub (rd ra : RegNum) (s : State) : Host.Outcome State Fault Refusal :=
  runCommand (.finsub rd ra) (finsubEffect rd) s

/-- What FINSUBC does at completion (R94): subtract `MOD` unless that borrows and `C = 0`; `C` is not written. -/
def finsubcEffect (rd : RegNum) {p : Params} (l : Latch p) (u : Mau p) : Mau p :=
  u.setReg rd (finalSub l.c l.a u.modulus)

/-- FINSUBC (R94): final subtraction with overflow bit `C`. -/
def execFinsubc (rd ra : RegNum) (s : State) : Host.Outcome State Fault Refusal :=
  runCommand (.finsubc rd ra) (finsubcEffect rd) s

end Sys2Proof.Machine
end

