-- ==== Sys2Proof/Machine/Dispatch.lean ====
section
/-!
DEFINITION. One arm per command: its meaning.
-/

namespace Sys2Proof.Machine

def exec (i : Instr) (s : State) : Host.Outcome State Fault Refusal :=
  match i with
  -- carry/borrow chain (41_carry_chain.md)
  | .add rd ra rb => Sys2Proof.Machine.execAdd rd ra rb s
  | .adc rd ra rb => Sys2Proof.Machine.execAdc rd ra rb s
  | .sub rd ra rb => Sys2Proof.Machine.execSub rd ra rb s
  | .sbb rd ra rb => Sys2Proof.Machine.execSbb rd ra rb s
  -- select and final correction (42_select.md)
  | .cmov rd ra rb => Sys2Proof.Machine.execCmov rd ra rb s
  | .caddm rd ra => Sys2Proof.Machine.execCaddm rd ra s
  | .csubm rd ra => Sys2Proof.Machine.execCsubm rd ra s
  | .finsub rd ra => Sys2Proof.Machine.execFinsub rd ra s
  | .finsubc rd ra => Sys2Proof.Machine.execFinsubc rd ra s
  -- multiplier and squarer (43_multiply.md)
  | .mulraw rd ra rb => Sys2Proof.Machine.execMulraw rd ra rb s
  | .sqrraw rd ra => Sys2Proof.Machine.execSqrraw rd ra s
  | .mullo rd ra rb => Sys2Proof.Machine.execMullo rd ra rb s
  -- modular adder/subtractor (44_modadd.md)
  | .addmod rd ra rb => Sys2Proof.Machine.execAddmod rd ra rb s
  | .submod rd ra rb => Sys2Proof.Machine.execSubmod rd ra rb s
  | .addmodd rd ra rb => Sys2Proof.Machine.execAddmodd rd ra rb s
  | .submodd rd ra rb => Sys2Proof.Machine.execSubmodd rd ra rb s
  -- Montgomery reduction and multiplication (45_montgomery.md)
  | .mredc rd ra => Sys2Proof.Machine.execMredc rd ra s
  | .mmul rd ra rb => Sys2Proof.Machine.execMmul rd ra rb s
  | .mmulnf rd ra rb => Sys2Proof.Machine.execMmulnf rd ra rb s
  | .msqr rd ra => Sys2Proof.Machine.execMsqr rd ra s
  | .msqrnf rd ra => Sys2Proof.Machine.execMsqrnf rd ra s
  -- configuration (46_config.md)
  | .setmod ra rb => Sys2Proof.Machine.execSetmod ra rb s

end Sys2Proof.Machine
end

