-- ==== Sys2Proof/Machine/Port.lean ====
section
/-!
DEFINITION. The port (20_memory.md): the address map (R41), reads (R44) and writes other than command issue (R45).
-/

namespace Sys2Proof.Machine

/-- What a port word address names (R41). -/
inductive Target where
  | id
  | status
  | cmd
  | errclr
  | errinfo
  | sparebits
  | m0ninv
  | modLimb (j : Nat)
  | regLimb (r : RegNum) (j : Nat)
  | reserved
  deriving DecidableEq, Repr

/-- The address map of an instance with `N` limbs (R41). -/
def target (N : Nat) (addr : BitVec 16) : Target :=
  let a := addr.toNat
  if a = 0x0000 then .id
  else if a = 0x0001 then .status
  else if a = 0x0002 then .cmd
  else if a = 0x0003 then .errclr
  else if a = 0x0004 then .errinfo
  else if a = 0x0005 then .sparebits
  else if a = 0x0006 then .m0ninv
  else if 0x0100 ≤ a ∧ a < 0x0100 + N then .modLimb (a - 0x0100)
  else if 0x0400 ≤ a ∧ a < 0x0800 ∧ (a - 0x0400) % 0x40 < N then
    .regLimb (Fin.ofNat 16 ((a - 0x0400) / 0x40)) ((a - 0x0400) % 0x40)
  else .reserved

/-- The port's answer to a read: word `w` appears as the data read; nothing else changes (R44). -/
def Mau.answer {p : Params} (u : Mau p) (w : BitVec p.W) : Mau p := { u with readData := some w }

/-- A read of a word that a command in flight may be writing: exact when idle, a draw while `BUSY = 1` (R44). -/
def Mau.answerUnlessBusy {p : Params} (u : Mau p) (w : BitVec p.W) : Mau p :=
  if u.busy then u.drawWord.2.answer u.drawWord.1 else u.answer w

/-- A read of STATUS: exact when idle; while `BUSY = 1`, `C` and `CFG_VALID` read as free bits (R23). -/
def Mau.readStatus {p : Params} (u : Mau p) : Mau p :=
  if u.busy then
    { u with draws := u.draws + 2 }.answer
      (statusWord p.W true (Config.freeBit u.draws) (Config.freeBit (u.draws + 1)) u.err)
  else u.answer (statusWord p.W false u.carry u.cfgValid u.err)

/-- `MemRead(addr, 1)` (R44): the word that the port returns is `readData` of the result. -/
def Mau.portRead {p : Params} (u : Mau p) (addr : BitVec 16) : Mau p :=
  match target p.N addr with
  | .id => u.answer (idWord p)
  | .status => u.readStatus
  | .cmd => u.answer 0#p.W
  | .errclr => u.answer 0#p.W
  | .errinfo => u.answer u.errInfo
  | .sparebits => u.answerUnlessBusy u.spareBits
  | .m0ninv => u.answerUnlessBusy u.m0ninv
  | .modLimb j => u.answerUnlessBusy (u.modulus.limb j)
  | .regLimb r j => u.answerUnlessBusy ((u.reg r).limb j)
  | .reserved => u.answer 0#p.W

/-- A write to ERRCLR: bit 0 set clears `ERR` and `ERRINFO`, else nothing happens (60_exceptions.md R156). -/
def Mau.errClear {p : Params} (u : Mau p) (v : BitVec p.W) : Mau p :=
  if v.getLsbD 0 then { u with err := .noError, errInfo := 0#p.W } else u

/-- `MemWrite(addr, 1, v)` (R45), but for a write to CMD of a word that is a command: its issue is that command's. -/
def Mau.portWrite {p : Params} (u : Mau p) (addr : BitVec 16) (v : BitVec p.W) : Mau p :=
  match target p.N addr with
  | .cmd => u.rejectWord v
  | .errclr => u.errClear v
  | .regLimb r j => if u.busy then u.raiseError .ebusy v else u.setReg r ((u.reg r).setLimb j v)
  | .id | .status | .errinfo | .sparebits | .m0ninv | .modLimb _ | .reserved => u

end Sys2Proof.Machine
end

