-- ==== Sys2Proof/Machine/Fetch.lean ====
section
/-!
DEFINITION. Which command the next step runs, and what the next step does when it runs none. The unit fetches nothing
(20_memory.md R51): a command runs when the host writes its word to CMD (30_encoding.md R60), and again when the Unit
completes it (70_reset_and_hazards.md R173).
-/

namespace Sys2Proof.Machine

/-- The command that the next step runs: the one whose word the host is writing to CMD, or the one in flight if the Unit moves
next. None for any other event, and for a CMD write of a word that is no command. -/
def Mau.fetch {p : Params} (u : Mau p) : Option Instr :=
  match u.cmdWrite with
  | some v => (decode (v.setWidth 64)).toOption
  | none => u.completing.map Latch.cmd

/-- A step that runs no command: a host access, a reset, the Unit's turn with `BUSY = 0` (nothing happens, R173), or no event
and nothing in flight (the unit is idle, 60_exceptions.md R165). -/
def Mau.otherStep {p : Params} (u : Mau p) : Mau p :=
  match u.script with
  | [] => u
  | .read addr :: _ => (u.portRead addr).pop
  | .write addr v :: _ => (u.portWrite addr v).pop
  | .unit :: _ => u.pop
  | .reset :: _ => u.applyReset.pop

/-- The unit with the host about to write word `v` to CMD, before every other event to come. -/
def Mau.withCmdWrite {p : Params} (u : Mau p) (v : BitVec p.W) : Mau p :=
  { u with script := .write cmdAddr v :: u.script }

/-- The latency of command `i` issued in this state: a positive number of cycles that depends on the opcode, `N`, `W` and, for a
command that reads the configuration, `SPAREBITS`, and on nothing else (R176). No step depends on it (log entry 11). -/
def Mau.latency {p : Params} (u : Mau p) (i : Instr) : PNat :=
  Config.latency i.opcode p.N p.W (if readsMod i then u.spareBits.toNat else 0)

end Sys2Proof.Machine
end

