-- ==== Sys2Proof/Machine/Step.lean ====
section
/-!
DEFINITION. One step: the next event happens. If it runs a command (its issue or its completion), the step is `exec` of that
command; otherwise it is a host access, a reset, or nothing.
-/

namespace Sys2Proof.Machine

/-- One step of the machine. -/
def step (s : State) : Host.Outcome State Fault Refusal :=
  match s.mau.fetch with
  | some i => exec i s
  | none => .next ⟨s.params, s.mau.otherStep⟩

/-- `s` with the command word of bits `w` written to CMD by the host as the next event (log entry 7). -/
def State.withFetchWord (s : State) (nbits w : Nat) : State :=
  ⟨s.params, s.mau.withCmdWrite (BitVec.ofNat s.params.W (w % 2 ^ nbits))⟩

end Sys2Proof.Machine
end

