-- ==== Sys2Proof/Machine/Assembly.lean ====
section
/-!
DEFINITION. The assembler's text for a command (30_encoding.md R69) and its pseudo-instructions (R70). No step depends on them.
-/

namespace Sys2Proof

/-- The mnemonic of a command (R65). -/
def Instr.mnemonic : Instr → String
  | .add _ _ _ => "ADD"
  | .adc _ _ _ => "ADC"
  | .sub _ _ _ => "SUB"
  | .sbb _ _ _ => "SBB"
  | .cmov _ _ _ => "CMOV"
  | .caddm _ _ => "CADDM"
  | .csubm _ _ => "CSUBM"
  | .finsub _ _ => "FINSUB"
  | .finsubc _ _ => "FINSUBC"
  | .mulraw _ _ _ => "MULRAW"
  | .sqrraw _ _ => "SQRRAW"
  | .mullo _ _ _ => "MULLO"
  | .addmod _ _ _ => "ADDMOD"
  | .submod _ _ _ => "SUBMOD"
  | .addmodd _ _ _ => "ADDMODD"
  | .submodd _ _ _ => "SUBMODD"
  | .mredc _ _ => "MREDC"
  | .mmul _ _ _ => "MMUL"
  | .mmulnf _ _ _ => "MMULNF"
  | .msqr _ _ => "MSQR"
  | .msqrnf _ _ => "MSQRNF"
  | .setmod _ _ => "SETMOD"

/-- A register operand is written `vN`, a pair `dK`, an unused field not at all (R69). -/
def operandText (kind : FieldKind) (r : RegNum) : List String :=
  match kind with
  | .V => ["v" ++ Nat.repr r.val]
  | .P => ["d" ++ Nat.repr r.val]
  | .unused => []

/-- `MNEMONIC operands`: the operands in the order `RD, RA, RB`, separated by commas (R69). -/
def Instr.assembly (i : Instr) : String :=
  i.mnemonic ++ " " ++ String.intercalate ", "
    (operandText i.format.rdKind i.rd ++ operandText i.format.raKind i.ra ++ operandText i.format.rbKind i.rb)

/-- `MOV vd, va` is `CMOV vd, va, va` (R70). -/
def pseudoMov (vd va : RegNum) : Instr := .cmov vd va va

/-- `ZERO vd` is `SUB vd, vd, vd` (R70). -/
def pseudoZero (vd : RegNum) : Instr := .sub vd vd vd

/-- `MDBL vd, va` is `ADDMOD vd, va, va` (R70). -/
def pseudoMdbl (vd va : RegNum) : Instr := .addmod vd va va

end Sys2Proof
end

