-- ==== Sys2Proof/Machine/Bridge.lean ====
section
/-!
DEFINITION. The host's side of the port (20_memory.md R40, R42): which port access a host access is, by the platform's open parameters, and
how a byte-addressed host lays out a limb. No step depends on them: the port's own events carry word addresses and whole words
(log entry 13).
-/

namespace Sys2Proof.Machine

/-- The port read that a host read at a host address is, if that address is the unit's (R40). -/
def hostRead (p : Params) (hostAddr : Nat) : Option (Event p) :=
  (Config.wordAddress Config.base hostAddr).map fun a => .read a

/-- The port write that a host write at a host address is, if that address is the unit's (R40). -/
def hostWrite (p : Params) (hostAddr : Nat) (v : BitVec p.W) : Option (Event p) :=
  (Config.wordAddress Config.base hostAddr).map fun a => .write a v

/-- The bytes of a limb in ascending host addresses, in a given byte order (R42). DESIGN CHOICE (log entry 13): a limb's bytes stand
at consecutive host addresses, least or most significant first. -/
def hostBytes (order : ByteOrder) (p : Params) (v : BitVec p.W) : List (BitVec 8) :=
  let bytes := (List.range (p.W / 8)).map fun k => v.extractLsb' (8 * k) 8
  match order with
  | .littleEndian => bytes
  | .bigEndian => bytes.reverse

/-- The bytes of a limb as the platform's host lays them out (R42). -/
def platformBytes (p : Params) (v : BitVec p.W) : List (BitVec 8) := hostBytes Config.hostByteOrder p v

end Sys2Proof.Machine
end

