-- ==== Sys2Proof/Machine/Datapath.lean ====
section
/-!
DEFINITION. The reference datapaths, limb by limb: product scanning (43_multiply.md R103), squaring (R104), modular addition and
subtraction (44_modadd.md R114, R115), separated and interleaved CIOS (45_montgomery.md R127, R128). The commands' results are
values (00_scope.md R12); that these algorithms compute them is stated among the obligations. A loop `for i in a .. b` is a
recursion with a count of the iterations left.
-/

namespace Sys2Proof

/-! ### Product scanning (R103) -/

/-- The three-word running sum `(t2, t1, t0)` (R103). -/
structure Sum3 (W : Nat) where
  t2 : BitVec W
  t1 : BitVec W
  t0 : BitVec W
  deriving DecidableEq, Repr

/-- Add the two-word product `hi : lo` to the running sum, wrapping at three words (R103). -/
def Sum3.addWide {W : Nat} (t : Sum3 W) (hi lo : BitVec W) : Sum3 W :=
  let r0 := addWithCarry t.t0 lo false
  let r1 := addWithCarry t.t1 hi r0.2
  ⟨t.t2 + BitVec.ofNat W r1.2.toNat, r1.1, r0.1⟩

/-- The running sum shifted right by one word (R103). -/
def Sum3.shift {W : Nat} (t : Sum3 W) : Sum3 W := ⟨0#W, t.t2, t.t1⟩

/-- Limb `i` of an operand given as a list; 0 past its end. -/
def limbAt {W : Nat} (xs : List (BitVec W)) (i : Nat) : BitVec W := xs.getD i 0#W

/-- The indices `i` of output index `k`: `max(0, k−(N−1)) .. min(k, N−1)`, none when `k > 2N−2` (R103). -/
def columnIndices (N k : Nat) : List Nat :=
  List.range' (k - (N - 1)) (min k (N - 1) + 1 - (k - (N - 1)))

/-- One output index of product scanning: all cross terms `A[i]·B[k−i]` added to the running sum (R103). -/
def combaColumn {W : Nat} (N : Nat) (A B : List (BitVec W)) (k : Nat) (t : Sum3 W) : Sum3 W :=
  (columnIndices N k).foldl
    (fun t i =>
      let r := mulWide (limbAt A i) (limbAt B (k - i))
      t.addWide r.1 r.2)
    t

/-- Product scanning from output index `k`, `count` indices left (R103). -/
def combaFrom {W : Nat} (N : Nat) (A B : List (BitVec W)) : Nat → Nat → Sum3 W → List (BitVec W)
  | 0, _, _ => []
  | count + 1, k, t =>
    let t' := combaColumn N A B k t
    t'.t0 :: combaFrom N A B count (k + 1) t'.shift

theorem combaFrom_length {W : Nat} (N : Nat) (A B : List (BitVec W)) (count k : Nat) (t : Sum3 W) :
    (combaFrom N A B count k t).length = count := by
  induction count generalizing k t with
  | zero => rfl
  | succ count ih => simp [combaFrom, ih]

/-- The product of two `n`-limb vectors truncated to `rLen` limbs, by product scanning (R103). -/
def comba {W n : Nat} (rLen : Nat) (a b : LimbVec W n) : LimbVec W rLen :=
  ⟨combaFrom n a.limbs b.limbs rLen 0 ⟨0, 0, 0⟩, combaFrom_length _ _ _ _ _ _⟩

/-! ### Squaring (R104) -/

/-- One term of the squaring datapath: the cross term `A[i]·A[k−i]` with `i < k−i` doubled into three words, the term with
`i = k−i` added once; the branch is on indices only (R104). -/
def squareTerm {W : Nat} (A : List (BitVec W)) (k : Nat) (t : Sum3 W) (i : Nat) : Sum3 W :=
  let r := mulWide (limbAt A i) (limbAt A (k - i))
  if i < k - i then
    let t' : Sum3 W := ⟨t.t2 + BitVec.ofNat W r.1.msb.toNat, t.t1, t.t0⟩
    t'.addWide (r.1 <<< 1 ||| BitVec.ofNat W r.2.msb.toNat) (r.2 <<< 1)
  else t.addWide r.1 r.2

/-- One output index of the squaring datapath: the indices with `i ≤ k−i` (R104). -/
def squareColumn {W : Nat} (N : Nat) (A : List (BitVec W)) (k : Nat) (t : Sum3 W) : Sum3 W :=
  ((columnIndices N k).filter fun i => decide (i ≤ k - i)).foldl (squareTerm A k) t

/-- The squaring datapath from output index `k`, `count` indices left (R104). -/
def squareFrom {W : Nat} (N : Nat) (A : List (BitVec W)) : Nat → Nat → Sum3 W → List (BitVec W)
  | 0, _, _ => []
  | count + 1, k, t =>
    let t' := squareColumn N A k t
    t'.t0 :: squareFrom N A count (k + 1) t'.shift

theorem squareFrom_length {W : Nat} (N : Nat) (A : List (BitVec W)) (count k : Nat) (t : Sum3 W) :
    (squareFrom N A count k t).length = count := by
  induction count generalizing k t with
  | zero => rfl
  | succ count ih => simp [squareFrom, ih]

/-- The double-width square of an `n`-limb vector, by the squaring datapath (R104). -/
def squareWide {W n : Nat} (a : LimbVec W n) : LimbVec W (n + n) :=
  ⟨squareFrom n a.limbs (n + n) 0 ⟨0, 0, 0⟩, squareFrom_length _ _ _ _ _⟩

/-! ### Modular addition and subtraction (R114, R115) -/

/-- Modular add over `K` limbs: `finalSubNoCarry` when there is a spare bit, else `finalSubMayOverflow` with the raw sum's
carry (R114). -/
def modAddPath {W K : Nat} (spareBits : Nat) (a b m : LimbVec W K) : LimbVec W K :=
  let s := addChain a b false
  let t := subChain s.1 m false
  let keep := if 1 ≤ spareBits then t.2 else t.2 && !s.2
  ctSelect keep t.1 s.1

/-- Modular subtract over `K` limbs: add back the modulus masked by the borrow (R115). -/
def modSubPath {W K : Nat} (a b m : LimbVec W K) : LimbVec W K :=
  let s := subChain a b false
  (addChain s.1 (maskVec s.2 m) false).1

/-! ### Separated CIOS reduction (R127) -/

/-- The inner loop of a reduction step: add `m·M` to the limbs `t`, with running carry word `c`; the new limbs and the carry
word out (R127). -/
def addMulRow {W : Nat} (m : BitVec W) : List (BitVec W) → List (BitVec W) → BitVec W → List (BitVec W) × BitVec W
  | y :: ys, x :: xs, c =>
    let r := mulWide m y
    let s1 := addWithCarry x r.2 false
    let s2 := addWithCarry s1.1 c false
    let rest := addMulRow m ys xs (r.1 + BitVec.ofNat W s1.2.toNat + BitVec.ofNat W s2.2.toNat)
    (s2.1 :: rest.1, rest.2)
  | _, _, c => ([], c)

/-- The array `t` and the running high carry of R127. -/
structure CiosState (W : Nat) where
  t  : List (BitVec W)
  hi : Bool
  deriving DecidableEq, Repr

/-- Step `i` of the separated reduction: `m·M` is added to `t[i .. i+N−1]`, its carry to `t[i+N]` (R127). -/
def ciosStep {W : Nat} (M : List (BitVec W)) (q : BitVec W) (i : Nat) (x : CiosState W) : CiosState W :=
  let N := M.length
  let m := limbAt x.t i * q
  let row := addMulRow m M ((x.t.drop i).take N) 0#W
  let top := addWithCarry (limbAt x.t (i + N)) row.2 x.hi
  ⟨x.t.take i ++ row.1 ++ [top.1] ++ x.t.drop (i + N + 1), top.2⟩

/-- The loop of the separated reduction from step `i`, `count` steps left (R127). -/
def ciosLoop {W : Nat} (M : List (BitVec W)) (q : BitVec W) : Nat → Nat → CiosState W → CiosState W
  | 0, _, x => x
  | count + 1, i, x => ciosLoop M q count (i + 1) (ciosStep M q i x)

/-- The candidate of the separated reduction: the high carry and `t[N .. 2N−1]` (R127). -/
def ciosCandidate {W n : Nat} (M : LimbVec W n) (q : BitVec W) (T : LimbVec W (n + n)) : Bool × LimbVec W n :=
  let x := ciosLoop M.limbs q n 0 ⟨T.limbs, false⟩
  (x.hi, ⟨(List.range n).map fun j => limbAt x.t (n + j), by simp⟩)

/-- The separated CIOS reduction with its final correction (R127). -/
def ciosReduce {W n : Nat} (M : LimbVec W n) (q : BitVec W) (T : LimbVec W (n + n)) : LimbVec W n :=
  let x := ciosCandidate M q T
  finalSub x.1 x.2 M

/-! ### Interleaved CIOS multiplication, general modulus (R128) -/

/-- `(c, _) <- x + y·z + c` in two words: the high word and the low word (R128). -/
def mulAddWord {W : Nat} (x y z c : BitVec W) : BitVec W × BitVec W :=
  let v := x.toNat + y.toNat * z.toNat + c.toNat
  (BitVec.ofNat W (v / 2 ^ W), BitVec.ofNat W v)

/-- `(c, _) <- x + c` in two words: the high word and the low word (R128). -/
def addWord {W : Nat} (x c : BitVec W) : BitVec W × BitVec W :=
  let v := x.toNat + c.toNat
  (BitVec.ofNat W (v / 2 ^ W), BitVec.ofNat W v)

/-- `(c, t[j]) <- t[j] + Y[j]·z + c` over the limbs of `Y`; the new limbs and the carry word out (R128). -/
def mulAddRow {W : Nat} (z : BitVec W) : List (BitVec W) → List (BitVec W) → BitVec W → List (BitVec W) × BitVec W
  | y :: ys, x :: xs, c =>
    let r := mulAddWord x y z c
    let rest := mulAddRow z ys xs r.1
    (r.2 :: rest.1, rest.2)
  | _, _, c => ([], c)

/-- The accumulator `t[0 .. N+1]` of R128: its low `N` limbs, `t[N]` and `t[N+1]`. -/
structure FusedAcc (W : Nat) where
  low  : List (BitVec W)
  tN   : BitVec W
  tN1  : BitVec W
  deriving DecidableEq, Repr

/-- One step of the interleaved loop: add `A·B[i]`, then one reduction step; the low limb, which becomes 0, is shifted out
(R128). -/
def fusedStep {W : Nat} (A M : List (BitVec W)) (q bi : BitVec W) (t : FusedAcc W) : FusedAcc W :=
  let row := mulAddRow bi A t.low 0#W
  let top := addWord t.tN row.2
  let m := limbAt row.1 0 * q
  let red := mulAddRow m M row.1 0#W
  let last := addWord top.2 red.2
  ⟨red.1.tail ++ [last.2], top.1 + last.1, top.1⟩

/-- The interleaved loop over the limbs of `B`, limb 0 first (R128). -/
def fusedLoop {W : Nat} (A M : List (BitVec W)) (q : BitVec W) : List (BitVec W) → FusedAcc W → FusedAcc W
  | [], t => t
  | bi :: bs, t => fusedLoop A M q bs (fusedStep A M q bi t)

/-- The candidate `t[N] : t[0 .. N−1]` of the interleaved multiplication (R128). -/
def fusedCandidate {W n : Nat} (M : LimbVec W n) (q : BitVec W) (a b : LimbVec W n) : BitVec W × LimbVec W n :=
  let t := fusedLoop a.limbs M.limbs q b.limbs ⟨List.replicate n 0#W, 0#W, 0#W⟩
  (t.tN, ⟨(List.range n).map fun j => limbAt t.low j, by simp⟩)

/-- The interleaved CIOS multiplication with its final correction (R128, MMUL). -/
def fusedMul {W n : Nat} (M : LimbVec W n) (q : BitVec W) (a b : LimbVec W n) : LimbVec W n :=
  let x := fusedCandidate M q a b
  finalSub (x.1.getLsbD 0) x.2 M

end Sys2Proof
end

