-- ==== Sys2Proof/Safety.lean ====
section
/-!
DEFINITION. The terms in which the statements speak of the machine: the invariant of a safe run, which registers and flags a
command writes, what completing a command leaves unchanged, how a CMD write ends, and the spec's own description of an illegal
word and of a reserved address.
-/

namespace Sys2Proof

/-- The registers that a command writes at completion: its destination register, both halves of its destination pair, or none
(30_encoding.md R64). -/
def Instr.dests : Instr → List RegNum
  | .add rd _ _ | .adc rd _ _ | .sub rd _ _ | .sbb rd _ _ | .cmov rd _ _ => [rd]
  | .caddm rd _ | .csubm rd _ | .finsub rd _ | .finsubc rd _ => [rd]
  | .mulraw rd _ _ | .sqrraw rd _ | .addmodd rd _ _ | .submodd rd _ _ => [rd, rd + 1]
  | .mullo rd _ _ | .addmod rd _ _ | .submod rd _ _ => [rd]
  | .mredc rd _ | .mmul rd _ _ | .mmulnf rd _ _ | .msqr rd _ | .msqrnf rd _ => [rd]
  | .setmod _ _ => []

/-- The commands that write `C`: ADD, ADC, SUB, SBB, CADDM, CSUBM (10_state.md R25). -/
def Instr.writesCarry : Instr → Bool
  | .add _ _ _ | .adc _ _ _ | .sub _ _ _ | .sbb _ _ _ | .caddm _ _ | .csubm _ _ => true
  | .cmov _ _ _ | .finsub _ _ | .finsubc _ _ => false
  | .mulraw _ _ _ | .sqrraw _ _ | .mullo _ _ _ => false
  | .addmod _ _ _ | .submod _ _ _ | .addmodd _ _ _ | .submodd _ _ _ => false
  | .mredc _ _ | .mmul _ _ _ | .mmulnf _ _ _ | .msqr _ _ | .msqrnf _ _ | .setmod _ _ => false

/-- The opcodes of R65. -/
def definedOpcodes : List Nat :=
  [0x10, 0x11, 0x12, 0x13, 0x20, 0x21, 0x22, 0x23, 0x24, 0x30, 0x31, 0x32,
   0x40, 0x41, 0x42, 0x43, 0x50, 0x51, 0x52, 0x53, 0x54, 0x60]

/-- The opcodes whose format does not use `RB` (R64, R65). -/
def opcodesWithoutRb : List Nat := [0x21, 0x22, 0x23, 0x24, 0x31, 0x50, 0x53, 0x54]

/-- A word that is no command: a reserved bit is set (R62), `OPC` is undefined (R66), or an unused field is not 0 (R63). -/
def IllegalWord (v : Nat) : Prop :=
  2 ^ 20 ≤ v ∨ v % 256 ∉ definedOpcodes ∨ (v % 256 ∈ opcodesWithoutRb ∧ v / 65536 % 16 ≠ 0) ∨
    (v % 256 = 0x60 ∧ v / 256 % 16 ≠ 0)

/-- The rows of the opcode table: match and mask (30_encoding.md, decoder summary). -/
def opcodeRows : List (BitVec 32 × BitVec 32) :=
  [(0x10, 0xFFF000FF), (0x11, 0xFFF000FF), (0x12, 0xFFF000FF), (0x13, 0xFFF000FF), (0x20, 0xFFF000FF),
   (0x21, 0xFFFF00FF), (0x22, 0xFFFF00FF), (0x23, 0xFFFF00FF), (0x24, 0xFFFF00FF),
   (0x30, 0xFFF000FF), (0x31, 0xFFFF00FF), (0x32, 0xFFF000FF),
   (0x40, 0xFFF000FF), (0x41, 0xFFF000FF), (0x42, 0xFFF000FF), (0x43, 0xFFF000FF),
   (0x50, 0xFFFF00FF), (0x51, 0xFFF000FF), (0x52, 0xFFF000FF), (0x53, 0xFFFF00FF), (0x54, 0xFFFF00FF),
   (0x60, 0xFFF00FFF)]

/-- A reserved port word address of an instance with `N` limbs (20_memory.md R41). -/
def ReservedAddress (N a : Nat) : Prop :=
  (0x0007 ≤ a ∧ a ≤ 0x00FF) ∨ (0x0100 + N ≤ a ∧ a < 0x0100 + 64) ∨ (0x0140 ≤ a ∧ a ≤ 0x03FF) ∨
    (0x0400 ≤ a ∧ a < 0x0800 ∧ N ≤ (a - 0x0400) % 0x40) ∨ 0x0800 ≤ a

/-- The address of limb `j` of operand register `r` (R41). -/
def regAddress (r : RegNum) (j : Nat) : BitVec 16 := BitVec.ofNat 16 (0x0400 + 0x40 * r.val + j)

end Sys2Proof

namespace Sys2Proof.Machine

/-- The configuration invariant (10_state.md R32). -/
def Mau.ConfigInv {p : Params} (u : Mau p) : Prop :=
  u.cfgValid = true →
    u.M % 2 = 1 ∧ (u.modulus.limb 0).toNat * u.m0ninv.toNat % 2 ^ p.W = 2 ^ p.W - 1 ∧
      u.spareBits.toNat = p.N * p.W - bitlen u.M

/-- A command in flight passed its issue checks: it is well formed, the modulus it reads is configured, and a SETMOD's latched
values are a valid configuration (R151). -/
def Mau.LatchInv {p : Params} (u : Mau p) : Prop :=
  ∀ l, u.inFlight = some l →
    l.cmd.WellFormed ∧ (readsMod l.cmd = true → u.cfgValid = true) ∧
      (∀ ra rb, l.cmd = .setmod ra rb →
        (l.a.limb 0).toNat % 2 = 1 ∧ (l.a.limb 0).toNat * (l.b.limb 0).toNat % 2 ^ p.W = 2 ^ p.W - 1)

/-- `ERRINFO` is 0 while no error is recorded (60_exceptions.md R150). -/
def Mau.ErrorInv {p : Params} (u : Mau p) : Prop := u.err = .noError → u.errInfo = 0#p.W

/-- The invariant of the machine: it holds after reset and every step keeps it. -/
structure Mau.Inv {p : Params} (u : Mau p) : Prop where
  config : u.ConfigInv
  latch  : u.LatchInv
  error  : u.ErrorInv

/-- The configuration registers and `CFG_VALID` are the same (10_state.md R26 to R29). -/
structure SameConfig {p : Params} (u t : Mau p) : Prop where
  modulus   : t.modulus = u.modulus
  m0ninv    : t.m0ninv = u.m0ninv
  spareBits : t.spareBits = u.spareBits
  cfgValid  : t.cfgValid = u.cfgValid

/-- What completing a command whose destinations are `ds` leaves unchanged in every case, and that it completes: the registers
outside `ds`, the error record, the last word read; nothing is in flight any more and the event is taken off the script. -/
structure CompletionFrame {p : Params} (ds : List RegNum) (u t : Mau p) : Prop where
  regs     : ∀ r, r ∉ ds → t.reg r = u.reg r
  err      : t.err = u.err
  errInfo  : t.errInfo = u.errInfo
  inFlight : t.inFlight = none
  script   : t.script = u.script.tail
  readData : t.readData = u.readData

/-- The same for a command that writes neither `C` nor the configuration and draws no free value. -/
def RegisterOnly {p : Params} (u t : Mau p) : Prop := t.carry = u.carry ∧ SameConfig u t ∧ t.draws = u.draws

/-- The same for a command that writes `C` as well. -/
def RegisterAndCarry {p : Params} (u t : Mau p) : Prop := SameConfig u t ∧ t.draws = u.draws

/-- Completing command `i`, with latched values and state that meet `pre`, answers a next state that meets `post`, and leaves
unchanged what `CompletionFrame` says. -/
def CompletesWith (i : Instr) (ds : List RegNum) (pre : (p : Params) → Latch p → Mau p → Prop)
    (post : (p : Params) → Latch p → Mau p → Mau p → Prop) : Prop :=
  ∀ (p : Params) (u : Mau p) (l : Latch p), u.completing = some l → l.cmd = i → pre p l u →
    ∃ t : Mau p, exec i ⟨p, u⟩ = .next ⟨p, t⟩ ∧ post p l u t ∧ CompletionFrame ds u t

/-- `t` is `u` after the event with error `code` recorded for data word `v`, unless one is recorded already (R151). -/
def Recorded {p : Params} (code : ErrCode) (v : BitVec p.W) (u t : Mau p) : Prop :=
  (u.err = .noError → t = { u with err := code, errInfo := v, script := u.script.tail }) ∧
    (u.err ≠ .noError → t = { u with script := u.script.tail })

/-- `t` is `u` after the issue of command `i`: the command and its operand values are latched, nothing else changes (R60). -/
def Issued {p : Params} (i : Instr) (u t : Mau p) : Prop :=
  t = { u with inFlight := some (u.latch i), script := u.script.tail }

/-- The issue of command `i` ends as `check` says: the error it names is recorded, or the command is issued. The state answered
is a next state either way. -/
def IssuesWith (i : Instr) (check : (p : Params) → Mau p → Option ErrCode) : Prop :=
  ∀ (p : Params) (u : Mau p) (v : BitVec p.W), u.cmdWrite = some v → decode (v.setWidth 64) = .ok i →
    ∃ t : Mau p, exec i ⟨p, u⟩ = .next ⟨p, t⟩ ∧
      (∀ code, check p u = some code → Recorded code v u t) ∧ (check p u = none → Issued i u t)

/-- The only issue error beside EILL is EBUSY (R152). -/
def busyCheck (p : Params) (u : Mau p) : Option ErrCode := if u.inFlight.isSome then some .ebusy else none

/-- The issue errors of a command that reads `MOD` and names no pair: EBUSY, then ENOCFG (R151, R153). -/
def configCheck (p : Params) (u : Mau p) : Option ErrCode :=
  if u.inFlight.isSome then some .ebusy else if u.cfgValid then none else some .enocfg

/-- The word of command `i` is `OPC | RD<<8 | RA<<12 | RB<<16` (30_encoding.md R61). -/
def EncodedAs (i : Instr) (opc : Nat) (rd ra rb : RegNum) : Prop :=
  (encode i).toNat = opc + 256 * rd.val + 4096 * ra.val + 65536 * rb.val

/-- The operands of a Montgomery multiplication are in its domain (45_montgomery.md R126). -/
def InMulDomain {p : Params} (u : Mau p) (a b : Nat) : Prop :=
  (a < u.M ∧ b < u.M) ∨ (2 ≤ u.spareBits.toNat ∧ a < 2 * u.M ∧ b < 2 * u.M)

/-- The latched operands of a command that has a domain are outside it (00_scope.md R13; 44_modadd.md R110 to R113; 45_montgomery.md
R120, R126). -/
def OutOfDomain {p : Params} (u : Mau p) (l : Latch p) : Prop :=
  match l.cmd with
  | .addmod _ _ _ | .submod _ _ _ => ¬ (l.a.val < u.M ∧ l.b.val < u.M)
  | .addmodd _ _ _ | .submodd _ _ _ => ¬ (l.aPair.val < u.M * p.radix ∧ l.bPair.val < u.M * p.radix)
  | .mredc _ _ => ¬ l.aPair.val < u.M * p.radix
  | .mmul _ _ _ | .mmulnf _ _ _ => ¬ InMulDomain u l.a.val l.b.val
  | .msqr _ _ | .msqrnf _ _ => ¬ InMulDomain u l.a.val l.a.val
  | .add _ _ _ | .adc _ _ _ | .sub _ _ _ | .sbb _ _ _ | .cmov _ _ _ => False
  | .caddm _ _ | .csubm _ _ | .finsub _ _ | .finsubc _ _ => False
  | .mulraw _ _ _ | .sqrraw _ _ | .mullo _ _ _ | .setmod _ _ => False

/-- The unit is configured, and its configuration is as R32 says. -/
def Configured {p : Params} (u : Mau p) : Prop := u.cfgValid = true ∧ u.ConfigInv

/-- A host program has ended: no event is to come and `BUSY = 0` (70_reset_and_hazards.md R178). DESIGN CHOICE (log entry 17): R178 names
the host's accesses and `BUSY` only; here a reset (or a Unit turn) still to come after the last access belongs to the run, so a trailing
reset counts into the end state, as the reset step of program P6 does. -/
def Mau.Ended {p : Params} (u : Mau p) : Prop := u.script = [] ∧ u.inFlight = none

end Sys2Proof.Machine
end

