-- ==== Sys2Proof/Certificates/Slice0/Obligations.lean ====
section
/-!
DEFINITION. The statements about the machine, from the spec's numbered rules. `p` is any instance, `u` any unit of it: no
statement is about reachable states only, unless it says so by an invariant.
-/

open Sys2Proof Sys2Proof.Machine

/-! ### Encoding (30_encoding.md) -/

/-- The decoder gives back every command from the word the encoder makes of it (R61, R63, R64, R65): no bit of a field is
dropped. -/
def Obligations.DecodeReturnsEncodedCommand : Prop :=
  ∀ i : Instr, decode ((encode i).setWidth 64) = .ok i

/-- Every word has one meaning: a word that decodes to a command is that command's word, with nothing in `bits[63:32]` (R61,
R62). -/
def Obligations.EncodeReturnsDecodedWord : Prop :=
  ∀ (v : BitVec 64) (i : Instr), decode v = .ok i → (encode i).setWidth 64 = v

/-- Decoder summary: a word is a command of a table row if and only if `v AND mask = match`, with `bits[63:32]` in the mask
(R61 to R65). -/
def Obligations.DecoderFollowsOpcodeTable : Prop :=
  ∀ row ∈ opcodeRows, ∀ v : BitVec 64,
    (∃ i, decode v = .ok i ∧ i.opcode.setWidth 32 = row.1) ↔ v &&& (BitVec.allOnes 32 ++ row.2) = row.1.setWidth 64

/-- R66 and R62: with nothing in flight, a CMD write of an illegal word raises EILL and does nothing else, and every other word is
a command, whose part the step is: nothing executes as a no-op. -/
def Obligations.IllegalWordsRaiseEill : Prop :=
  ∀ (p : Params) (u : Mau p) (v : BitVec p.W), u.cmdWrite = some v → u.inFlight = none →
    (IllegalWord v.toNat → ∃ t : Mau p, step ⟨p, u⟩ = .next ⟨p, t⟩ ∧ Recorded .eill v u t) ∧
      (¬ IllegalWord v.toNat → ∃ i, decode (v.setWidth 64) = .ok i ∧ step ⟨p, u⟩ = exec i ⟨p, u⟩)

/-- One word of each family, as the spec's programs and examples give it, decodes to its command. -/
def Obligations.SampleWordsDecode : Prop :=
  decode 0x00021310 = .ok (.add 3 1 2) ∧ decode 0x00003324 = .ok (.finsubc 3 3) ∧
    decode 0x00021830 = .ok (.mulraw 8 1 2) ∧ decode 0x00022C42 = .ok (.addmodd 12 2 2) ∧
    decode 0x00021351 = .ok (.mmul 3 1 2) ∧ decode 0x00008750 = .ok (.mredc 7 8) ∧
    decode 0x000FE060 = .ok (.setmod 14 15) ∧ decode 0 = .error .undefinedOpcode ∧
    decode 0x00021160 = .error .unusedField ∧ decode 0x100021351 = .error .reservedBits

/-! ### Limb vectors and word primitives (00_scope.md) -/

/-- R3: the value of a limb vector is the sum of its limbs, limb `j` weighing `2^(j·W)`; it is below `2^(n·W)`; and `limbs_k(y)` has
the value `y mod 2^(k·W)`. -/
def Obligations.LimbVectorValues : Prop :=
  ∀ (W n : Nat) (x : LimbVec W n),
    x.val = ∑ j ∈ Finset.range n, (x.limb j).toNat * 2 ^ (j * W) ∧ x.val < 2 ^ (n * W) ∧
      ∀ k y : Nat, (LimbVec.ofNat W k y).val = y % 2 ^ (k * W)

/-- The word primitives of R5, R6 and R7: sum and carry, difference and borrow, two-word product. -/
def Obligations.WordPrimitives : Prop :=
  ∀ (W : Nat) (a b : BitVec W) (c : Bool),
    (addWithCarry a b c).1.toNat = (a.toNat + b.toNat + c.toNat) % 2 ^ W ∧
      ((addWithCarry a b c).2 = true ↔ 2 ^ W ≤ a.toNat + b.toNat + c.toNat) ∧
      ((subWithBorrow a b c).1.toNat : Int) = ((a.toNat : Int) - b.toNat - c.toNat) % 2 ^ W ∧
      ((subWithBorrow a b c).2 = true ↔ (a.toNat : Int) - b.toNat - c.toNat < 0) ∧
      (mulWide a b).1.toNat * 2 ^ W + (mulWide a b).2.toNat = a.toNat * b.toNat

/-- R8: the masked blend `ctSelect(f, a, b)` is `a` when `f = 0` and `b` when `f = 1`, at every length. -/
def Obligations.SelectByMask : Prop :=
  ∀ (W n : Nat) (f : Bool) (a b : LimbVec W n), ctSelect f a b = (if f then b else a)

/-- R9: the carry chain runs `addWithCarry` in ascending limb order, limb `j`'s carry out being limb `j+1`'s in, and computes the sum
modulo `2^(n·W)` and its carry (`n = N`: addChain, `n = 2N`: addChain2). -/
def Obligations.CarryChainValue : Prop :=
  ∀ (W n : Nat) (a b : LimbVec W n) (cin : Bool),
    (∃ c : Nat → Bool, c 0 = cin ∧ c n = (addChain a b cin).2 ∧
      ∀ j < n, addWithCarry (a.limb j) (b.limb j) (c j) = ((addChain a b cin).1.limb j, c (j + 1))) ∧
    (addChain a b cin).1.val = (a.val + b.val + cin.toNat) % 2 ^ (n * W) ∧
    ((addChain a b cin).2 = true ↔ 2 ^ (n * W) ≤ a.val + b.val + cin.toNat)

/-- R10: the borrow chain runs `subWithBorrow` in ascending limb order and computes the difference modulo `2^(n·W)` and its borrow. -/
def Obligations.BorrowChainValue : Prop :=
  ∀ (W n : Nat) (a b : LimbVec W n) (bin : Bool),
    (∃ c : Nat → Bool, c 0 = bin ∧ c n = (subChain a b bin).2 ∧
      ∀ j < n, subWithBorrow (a.limb j) (b.limb j) (c j) = ((subChain a b bin).1.limb j, c (j + 1))) ∧
    ((subChain a b bin).1.val : Int) = ((a.val : Int) - b.val - bin.toNat) % 2 ^ (n * W) ∧
    ((subChain a b bin).2 = true ↔ (a.val : Int) - b.val - bin.toNat < 0)

/-! ### The step -/

/-- When the host writes to CMD a word that decodes to command `i`, the step is `exec i`; when the Unit moves and command `i` is in
flight, the step is `exec i` too (R60, R173). Nothing is added around it. -/
def Obligations.StepRunsDecodedCommand : Prop :=
  ∀ (p : Params) (u : Mau p),
    (∀ v i, u.cmdWrite = some v → decode (v.setWidth 64) = .ok i → step ⟨p, u⟩ = exec i ⟨p, u⟩) ∧
      ∀ l, u.completing = some l → step ⟨p, u⟩ = exec l.cmd ⟨p, u⟩

/-- No step faults or refuses, whatever the state: an error is a recorded refusal, and a command that was issued completes (R154,
R159). The instance's parameters never change. -/
def Obligations.StepAlwaysAnswers : Prop :=
  ∀ s : State, ∃ t : State, step s = .next t ∧ t.params = s.params

/-! ### Issue and errors (60_exceptions.md) -/

/-- R151: the issue checks of a CMD write, in order, the first failing one being recorded; a write of an operand register while
`BUSY = 1` raises EBUSY; no other event raises an error. -/
def Obligations.CmdWriteChecksInOrder : Prop :=
  (∀ (p : Params) (u : Mau p) (v : BitVec p.W), u.cmdWrite = some v →
    ∃ t : Mau p, step ⟨p, u⟩ = .next ⟨p, t⟩ ∧
      (u.inFlight ≠ none → Recorded .ebusy v u t) ∧
      (u.inFlight = none → IllegalWord v.toNat → Recorded .eill v u t) ∧
      ∀ i, u.inFlight = none → decode (v.setWidth 64) = .ok i →
        (i.pairsEven = false → Recorded .epair v u t) ∧
        (i.pairsEven = true → i.noOverlap = false → Recorded .ealias v u t) ∧
        (i.WellFormed → readsMod i = true → u.cfgValid = false → Recorded .enocfg v u t) ∧
        (∀ ra rb, i = .setmod ra rb →
          ¬ (((u.reg ra).limb 0).toNat % 2 = 1 ∧
            ((u.reg ra).limb 0).toNat * ((u.reg rb).limb 0).toNat % 2 ^ p.W = 2 ^ p.W - 1) →
          Recorded .ecfg v u t) ∧
        (i.WellFormed → (readsMod i = true → u.cfgValid = true) →
          (∀ ra rb, i = .setmod ra rb → ((u.reg ra).limb 0).toNat % 2 = 1 ∧
            ((u.reg ra).limb 0).toNat * ((u.reg rb).limb 0).toNat % 2 ^ p.W = 2 ^ p.W - 1) →
          Issued i u t)) ∧
  (∀ (p : Params) (u : Mau p) (r : RegNum) (j : Nat) (v : BitVec p.W) (rest : List (Event p)),
    u.script = .write (regAddress r j) v :: rest → j < p.N → u.inFlight ≠ none →
      ∃ t : Mau p, step ⟨p, u⟩ = .next ⟨p, t⟩ ∧ Recorded .ebusy v u t) ∧
  (∀ (p : Params) (u t : Mau p), step ⟨p, u⟩ = .next ⟨p, t⟩ → u.cmdWrite = none →
    (∀ r j v rest, j < p.N → u.script = .write (regAddress r j) v :: rest → u.inFlight = none) →
      (t.err = u.err ∧ t.errInfo = u.errInfo) ∨ (t.err = .noError ∧ t.errInfo = 0))

/-- What an issued command latches: the values of the registers or pairs its source fields name (R60, R63, 10_state.md R31). That the
latch holds the command decoded, and that it holds `C` for every command, are the model's choice (log entry 9): the spec latches the
command word, and `C` where the command names it. -/
def Obligations.IssueLatchesOperands : Prop :=
  ∀ (p : Params) (u t : Mau p) (i : Instr) (v : BitVec p.W), u.cmdWrite = some v → decode (v.setWidth 64) = .ok i →
    u.inFlight = none → step ⟨p, u⟩ = .next ⟨p, t⟩ → t.inFlight ≠ none →
      ∃ l, t.inFlight = some l ∧ l.cmd = i ∧ l.c = u.carry ∧
        (i.format.raKind = .V → l.a = u.reg i.ra) ∧ (i.format.raKind = .P → l.aPair = u.pair i.ra) ∧
        (i.format.rbKind = .V → l.b = u.reg i.rb) ∧ (i.format.rbKind = .P → l.bPair = u.pair i.rb)

/-- Errors are a record, not a mode: what happens in a step does not depend on `ERR` or `ERRINFO`, but for these two themselves and
what a read of STATUS (0x0001) or ERRINFO (0x0004), the two words that show them, returns (R157). The two runs are compared at equal
counts of draws, so where both draw (operands outside a domain, a read while `BUSY = 1`) they draw the same free words: R157 does not say
that, it is the model's choice (log entry 6). -/
def Obligations.ErrorsDoNotBlock : Prop :=
  ∀ (p : Params) (u t : Mau p) (e : ErrCode) (x : BitVec p.W), step ⟨p, u⟩ = .next ⟨p, t⟩ →
    ∃ t' : Mau p, step ⟨p, { u with err := e, errInfo := x }⟩ = .next ⟨p, t'⟩ ∧
      { t' with err := t.err, errInfo := t.errInfo, readData := t.readData } = t ∧
      ((∀ rest, u.script ≠ .read 0x0001 :: rest ∧ u.script ≠ .read 0x0004 :: rest) → t'.readData = t.readData)

/-- R155: whether and how a CMD write is refused is the same in two states that agree on `BUSY` and `CFG_VALID`, whatever their
registers hold; for SETMOD, if they agree on limb 0 of the two registers it names as well. -/
def Obligations.RefusalReadsNoOperands : Prop :=
  ∀ (p : Params) (u u' : Mau p) (v : BitVec p.W), u.cmdWrite = some v → u'.cmdWrite = some v →
    u.inFlight.isSome = u'.inFlight.isSome → u.cfgValid = u'.cfgValid →
    (∀ ra rb, decode (v.setWidth 64) = .ok (.setmod ra rb) →
      (u.reg ra).limb 0 = (u'.reg ra).limb 0 ∧ (u.reg rb).limb 0 = (u'.reg rb).limb 0) →
    ∃ o : Option ErrCode, ∀ w, w = u ∨ w = u' →
      ∃ t : Mau p, step ⟨p, w⟩ = .next ⟨p, t⟩ ∧ (∀ code, o = some code → Recorded code v w t) ∧
        (o = none → ∃ i, decode (v.setWidth 64) = .ok i ∧ Issued i w t)

/-- R153: the commands that read `MOD` are refused with ENOCFG while `CFG_VALID = 0`, and ENOCFG is raised for no other command. -/
def Obligations.UnconfiguredCommandsRefused : Prop :=
  ∀ (p : Params) (u : Mau p) (v : BitVec p.W) (i : Instr), u.cmdWrite = some v → decode (v.setWidth 64) = .ok i →
    u.inFlight = none → i.WellFormed →
    ∃ t : Mau p, step ⟨p, u⟩ = .next ⟨p, t⟩ ∧
      (i.mnemonic ∈ ["CADDM", "CSUBM", "FINSUB", "FINSUBC", "ADDMOD", "SUBMOD", "ADDMODD", "SUBMODD", "MREDC", "MMUL",
          "MMULNF", "MSQR", "MSQRNF"] → u.cfgValid = false → Recorded .enocfg v u t) ∧
      (i.mnemonic ∉ ["CADDM", "CSUBM", "FINSUB", "FINSUBC", "ADDMOD", "SUBMOD", "ADDMODD", "SUBMODD", "MREDC", "MMUL",
          "MMULNF", "MSQR", "MSQRNF"] ∨ u.cfgValid = true → u.err = .noError → t.err ≠ .enocfg)

/-- R156: a write to ERRCLR with bit 0 set clears `ERR` and `ERRINFO`, with bit 0 clear it has no effect; a command in flight is not
affected; only such a write and reset clear `ERR`. -/
def Obligations.ErrclrClearsErrors : Prop :=
  (∀ (p : Params) (u : Mau p) (v : BitVec p.W) (rest : List (Event p)), u.script = .write 0x0003 v :: rest →
    (v.getLsbD 0 = true → step ⟨p, u⟩ = .next ⟨p, { u with err := .noError, errInfo := 0, script := rest }⟩) ∧
    (v.getLsbD 0 = false → step ⟨p, u⟩ = .next ⟨p, { u with script := rest }⟩)) ∧
  (∀ (p : Params) (u t : Mau p), step ⟨p, u⟩ = .next ⟨p, t⟩ → u.err ≠ .noError → t.err = .noError →
    (∃ v rest, u.script = .write 0x0003 v :: rest ∧ v.getLsbD 0 = true) ∨ ∃ rest, u.script = .reset :: rest)

/-! ### The port (20_memory.md) -/

/-- R43: a read of a reserved address returns 0; a write to a reserved address or a read-only register is ignored and raises no
error; neither has another effect. -/
def Obligations.ReservedAndReadOnlyAddresses : Prop :=
  (∀ (p : Params) (u : Mau p) (a : BitVec 16) (rest : List (Event p)), ReservedAddress p.N a.toNat →
    u.script = .read a :: rest → step ⟨p, u⟩ = .next ⟨p, { u with readData := some 0, script := rest }⟩) ∧
  (∀ (p : Params) (u : Mau p) (a : BitVec 16) (v : BitVec p.W) (rest : List (Event p)),
    ReservedAddress p.N a.toNat ∨ a.toNat ∈ [0x0000, 0x0001, 0x0004, 0x0005, 0x0006] ∨
      (0x0100 ≤ a.toNat ∧ a.toNat < 0x0100 + p.N) →
    u.script = .write a v :: rest → step ⟨p, u⟩ = .next ⟨p, { u with script := rest }⟩)

/-- With nothing in flight, a read returns exactly the word that the address map names, and has no side effect (R41, R44, 10_state.md
R34). -/
def Obligations.IdleReadsAreExact : Prop :=
  ∀ (p : Params) (u : Mau p) (a : BitVec 16) (rest : List (Event p)), u.inFlight = none → u.script = .read a :: rest →
    ∃ w : BitVec p.W, step ⟨p, u⟩ = .next ⟨p, { u with readData := some w, script := rest }⟩ ∧
      (a = 0x0002 ∨ a = 0x0003 → w = 0) ∧ (a = 0x0004 → w = u.errInfo) ∧ (a = 0x0005 → w = u.spareBits) ∧
      (a = 0x0006 → w = u.m0ninv) ∧
      (∀ j, j < p.N → a = BitVec.ofNat 16 (0x0100 + j) → w = u.modulus.limb j) ∧
      (∀ r j, j < p.N → a = regAddress r j → w = (u.reg r).limb j) ∧
      (ReservedAddress p.N a.toNat → w = 0)

/-- While a command is in flight, a read still has no side effect (but for the count of draws); ID, ERRINFO, CMD, ERRCLR and
reserved addresses read exactly; operand registers, `MOD`, `M0NINV` and `SPAREBITS` read as a fresh free word (R44; how it is drawn: log
entry 6). -/
def Obligations.BusyReadsHaveNoSideEffect : Prop :=
  ∀ (p : Params) (u : Mau p) (a : BitVec 16) (rest : List (Event p)), u.inFlight ≠ none → u.script = .read a :: rest →
    ∃ (w : BitVec p.W) (d : Nat),
      step ⟨p, u⟩ = .next ⟨p, { u with readData := some w, script := rest, draws := d }⟩ ∧
      (a = 0x0000 → w.toNat = p.N + 256 * p.W + 65536 * 16 + 16777216) ∧
      (a = 0x0004 → w = u.errInfo) ∧ (a = 0x0002 ∨ a = 0x0003 → w = 0) ∧ (ReservedAddress p.N a.toNat → w = 0) ∧
      (a = 0x0005 ∨ a = 0x0006 ∨ (∃ j, j < p.N ∧ a = BitVec.ofNat 16 (0x0100 + j)) ∨
        (∃ r j, j < p.N ∧ a = regAddress r j) → w = Config.freeWord p.W u.draws ∧ d = u.draws + 1)

/-- R22: the fields of ID, at all times; writes to it are ignored. -/
def Obligations.IdentificationWord : Prop :=
  ∀ (p : Params) (u : Mau p) (rest : List (Event p)),
    (u.script = .read 0x0000 :: rest →
      ∃ w : BitVec p.W, step ⟨p, u⟩ = .next ⟨p, { u with readData := some w, script := rest }⟩ ∧
        w.toNat % 256 = p.N ∧ w.toNat / 256 % 256 = p.W ∧ w.toNat / 65536 % 256 = 16 ∧ w.toNat / 16777216 = 1) ∧
    ∀ v, u.script = .write 0x0000 v :: rest → step ⟨p, u⟩ = .next ⟨p, { u with script := rest }⟩

/-- The fields of STATUS (10_state.md R23): `BUSY` and `ERR` at all times, `C` and `CFG_VALID` exactly when idle and as two fresh free
bits while `BUSY = 1`, the reserved bits 0; writes to it are ignored; after reset it reads 0. Which free bits are drawn, in which order
and how they are counted is the model's choice (log entry 6). -/
def Obligations.StatusFields : Prop :=
  (∀ (p : Params) (u : Mau p) (rest : List (Event p)), u.script = .read 0x0001 :: rest →
    ∃ (t : Mau p) (w : BitVec p.W), step ⟨p, u⟩ = .next ⟨p, t⟩ ∧ t.readData = some w ∧
      w.getLsbD 0 = u.inFlight.isSome ∧ (u.inFlight = none → w.getLsbD 1 = u.carry ∧ w.getLsbD 2 = u.cfgValid) ∧
      (u.inFlight ≠ none → w.getLsbD 1 = Config.freeBit u.draws ∧ w.getLsbD 2 = Config.freeBit (u.draws + 1) ∧
        t.draws = u.draws + 2) ∧
      w.getLsbD 3 = false ∧ w.toNat / 16 = u.err.bits.toNat) ∧
  (∀ (p : Params) (u : Mau p) (v : BitVec p.W) (rest : List (Event p)), u.script = .write 0x0001 v :: rest →
    step ⟨p, u⟩ = .next ⟨p, { u with script := rest }⟩) ∧
  ∀ (p : Params) (u : Mau p), u = { Mau.reset p with script := [.read 0x0001] } →
    step ⟨p, u⟩ = .next ⟨p, { u with readData := some 0, script := [] }⟩

/-- With nothing in flight, a write to `V[r][j]` writes that limb and nothing else, whatever is to come after it; and if a read of its
address comes right after, it returns the word written (R45, R47, R48). -/
def Obligations.OperandWriteThenRead : Prop :=
  ∀ (p : Params) (u : Mau p) (r : RegNum) (j : Nat) (v : BitVec p.W) (rest : List (Event p)), j < p.N →
    u.inFlight = none → u.script = .write (regAddress r j) v :: rest →
    ∃ t : Mau p, step ⟨p, u⟩ = .next ⟨p, t⟩ ∧ t = { u with regs := t.regs, script := rest } ∧
      (t.reg r).limb j = v ∧ (∀ k, k ≠ j → (t.reg r).limb k = (u.reg r).limb k) ∧ (∀ q, q ≠ r → t.reg q = u.reg q) ∧
      ∀ rest', rest = .read (regAddress r j) :: rest' →
        step ⟨p, t⟩ = .next ⟨p, { t with readData := some v, script := rest' }⟩

/-! ### Reset (70_reset_and_hazards.md) -/

/-- The values right after reset, for every instance; `State.reset` is one of them (R170). -/
def Obligations.ResetValues : Prop :=
  (∀ p : Params, (State.resetOf p).params = p ∧ (∀ r, ((Mau.reset p).reg r).val = 0) ∧ (Mau.reset p).carry = false ∧
    (Mau.reset p).cfgValid = false ∧ (Mau.reset p).inFlight = none ∧ (Mau.reset p).err = .noError ∧
    (Mau.reset p).errInfo = 0 ∧ (Mau.reset p).M = 0 ∧ (Mau.reset p).m0ninv = 0 ∧ (Mau.reset p).spareBits = 0) ∧
  State.reset = State.resetOf State.reset.params

/-- The reset input, in any state: every register takes its reset value and a command in flight is abandoned; the events still to
come, the last word read and the count of draws, which are the model's own, stay (R170; log entry 4). -/
def Obligations.ResetFromAnyState : Prop :=
  ∀ (p : Params) (u : Mau p) (rest : List (Event p)), u.script = .reset :: rest →
    step ⟨p, u⟩ = .next ⟨p, { Mau.reset p with script := rest, readData := u.readData, draws := u.draws }⟩

/-! ### The commands -/

/-- R80 and R81: ADD and ADC: encoding, issue errors, result and `C`. -/
def Obligations.AddAdcRule : Prop :=
  ∀ rd ra rb : RegNum,
    EncodedAs (.add rd ra rb) 0x10 rd ra rb ∧ IssuesWith (.add rd ra rb) busyCheck ∧
    CompletesWith (.add rd ra rb) [rd] (fun _ _ _ => True) (fun p l u t =>
      (t.reg rd).val = (l.a.val + l.b.val) % p.radix ∧ (t.carry = true ↔ p.radix ≤ l.a.val + l.b.val) ∧
        RegisterAndCarry u t) ∧
    EncodedAs (.adc rd ra rb) 0x11 rd ra rb ∧ IssuesWith (.adc rd ra rb) busyCheck ∧
    CompletesWith (.adc rd ra rb) [rd] (fun _ _ _ => True) (fun p l u t =>
      (t.reg rd).val = (l.a.val + l.b.val + l.c.toNat) % p.radix ∧
        (t.carry = true ↔ p.radix ≤ l.a.val + l.b.val + l.c.toNat) ∧ RegisterAndCarry u t)

/-- R82 and R83: SUB and SBB: encoding, issue errors, result and `C`. -/
def Obligations.SubSbbRule : Prop :=
  ∀ rd ra rb : RegNum,
    EncodedAs (.sub rd ra rb) 0x12 rd ra rb ∧ IssuesWith (.sub rd ra rb) busyCheck ∧
    CompletesWith (.sub rd ra rb) [rd] (fun _ _ _ => True) (fun p l u t =>
      ((t.reg rd).val : Int) = ((l.a.val : Int) - l.b.val) % p.radix ∧ (t.carry = true ↔ l.a.val < l.b.val) ∧
        RegisterAndCarry u t) ∧
    EncodedAs (.sbb rd ra rb) 0x13 rd ra rb ∧ IssuesWith (.sbb rd ra rb) busyCheck ∧
    CompletesWith (.sbb rd ra rb) [rd] (fun _ _ _ => True) (fun p l u t =>
      ((t.reg rd).val : Int) = ((l.a.val : Int) - l.b.val - l.c.toNat) % p.radix ∧
        (t.carry = true ↔ (l.a.val : Int) - l.b.val - l.c.toNat < 0) ∧ RegisterAndCarry u t)

/-- R90: CMOV: encoding, issue errors, result; `C` is not written. -/
def Obligations.CmovRule : Prop :=
  ∀ rd ra rb : RegNum,
    EncodedAs (.cmov rd ra rb) 0x20 rd ra rb ∧ IssuesWith (.cmov rd ra rb) busyCheck ∧
    CompletesWith (.cmov rd ra rb) [rd] (fun _ _ _ => True) (fun _ l u t =>
      (l.c = false → t.reg rd = l.a) ∧ (l.c = true → t.reg rd = l.b) ∧ RegisterOnly u t)

/-- R91 and R92: CADDM and CSUBM: encoding, issue errors, result and `C`. -/
def Obligations.CaddmCsubmRule : Prop :=
  ∀ rd ra : RegNum,
    EncodedAs (.caddm rd ra) 0x21 rd ra 0 ∧ IssuesWith (.caddm rd ra) configCheck ∧
    CompletesWith (.caddm rd ra) [rd] (fun _ _ _ => True) (fun p l u t =>
      (t.reg rd).val = (l.a.val + l.c.toNat * u.M) % p.radix ∧
        (t.carry = true ↔ p.radix ≤ l.a.val + l.c.toNat * u.M) ∧ RegisterAndCarry u t) ∧
    EncodedAs (.csubm rd ra) 0x22 rd ra 0 ∧ IssuesWith (.csubm rd ra) configCheck ∧
    CompletesWith (.csubm rd ra) [rd] (fun _ _ _ => True) (fun p l u t =>
      ((t.reg rd).val : Int) = ((l.a.val : Int) - l.c.toNat * u.M) % p.radix ∧
        (t.carry = true ↔ l.a.val < l.c.toNat * u.M) ∧ RegisterAndCarry u t)

/-- R93: FINSUB: encoding, issue errors, result (below `2M`, the value modulo `M`); `C` is not written. -/
def Obligations.FinsubRule : Prop :=
  ∀ rd ra : RegNum,
    EncodedAs (.finsub rd ra) 0x23 rd ra 0 ∧ IssuesWith (.finsub rd ra) configCheck ∧
    CompletesWith (.finsub rd ra) [rd] (fun _ _ _ => True) (fun _ l u t =>
      (t.reg rd).val = (if u.M ≤ l.a.val then l.a.val - u.M else l.a.val) ∧
        (l.a.val < 2 * u.M → (t.reg rd).val = l.a.val % u.M) ∧ RegisterOnly u t)

/-- R94: FINSUBC: encoding, issue errors, result with `C` as the bit above the top limb; `C` is not written. -/
def Obligations.FinsubcRule : Prop :=
  ∀ rd ra : RegNum,
    EncodedAs (.finsubc rd ra) 0x24 rd ra 0 ∧ IssuesWith (.finsubc rd ra) configCheck ∧
    CompletesWith (.finsubc rd ra) [rd] (fun _ _ _ => True) (fun p l u t =>
      (t.reg rd).val = (if u.M ≤ l.c.toNat * p.radix + l.a.val then (l.c.toNat * p.radix + l.a.val - u.M) % p.radix
        else l.a.val) ∧
        (l.c.toNat * p.radix + l.a.val < 2 * u.M → (t.reg rd).val = (l.c.toNat * p.radix + l.a.val) % u.M) ∧
        RegisterOnly u t)

/-- R100 and R101: MULRAW and SQRRAW: encoding, issue errors, the two halves of the product. -/
def Obligations.MulrawSqrrawRule : Prop :=
  ∀ rd ra rb : RegNum,
    EncodedAs (.mulraw rd ra rb) 0x30 rd ra rb ∧
    IssuesWith (.mulraw rd ra rb) (fun _ u =>
      if u.inFlight.isSome then some .ebusy
      else if rd.val % 2 = 1 then some .epair
      else if ra = rd ∨ ra = rd + 1 ∨ rb = rd ∨ rb = rd + 1 then some .ealias else none) ∧
    CompletesWith (.mulraw rd ra rb) [rd, rd + 1] (fun _ _ _ => True) (fun p l u t =>
      (t.pair rd).val = l.a.val * l.b.val ∧ (t.reg rd).val = l.a.val * l.b.val % p.radix ∧
        (t.reg (rd + 1)).val = l.a.val * l.b.val / p.radix ∧ RegisterOnly u t) ∧
    EncodedAs (.sqrraw rd ra) 0x31 rd ra 0 ∧
    IssuesWith (.sqrraw rd ra) (fun _ u =>
      if u.inFlight.isSome then some .ebusy
      else if rd.val % 2 = 1 then some .epair
      else if ra = rd ∨ ra = rd + 1 then some .ealias else none) ∧
    CompletesWith (.sqrraw rd ra) [rd, rd + 1] (fun _ _ _ => True) (fun p l u t =>
      (t.pair rd).val = l.a.val ^ 2 ∧ (t.reg rd).val = l.a.val ^ 2 % p.radix ∧
        (t.reg (rd + 1)).val = l.a.val ^ 2 / p.radix ∧ RegisterOnly u t)

/-- R102: MULLO: encoding, issue errors, the product modulo `R`. -/
def Obligations.MulloRule : Prop :=
  ∀ rd ra rb : RegNum,
    EncodedAs (.mullo rd ra rb) 0x32 rd ra rb ∧
    IssuesWith (.mullo rd ra rb) (fun _ u =>
      if u.inFlight.isSome then some .ebusy else if ra = rd ∨ rb = rd then some .ealias else none) ∧
    CompletesWith (.mullo rd ra rb) [rd] (fun _ _ _ => True) (fun p l u t =>
      (t.reg rd).val = l.a.val * l.b.val % p.radix ∧ RegisterOnly u t)

/-- R110 and R111: ADDMOD and SUBMOD: encoding, issue errors, result for operands below `M`. -/
def Obligations.AddmodSubmodRule : Prop :=
  ∀ rd ra rb : RegNum,
    EncodedAs (.addmod rd ra rb) 0x40 rd ra rb ∧ IssuesWith (.addmod rd ra rb) configCheck ∧
    CompletesWith (.addmod rd ra rb) [rd] (fun _ l u => l.a.val < u.M ∧ l.b.val < u.M) (fun _ l u t =>
      (t.reg rd).val = (l.a.val + l.b.val) % u.M ∧ RegisterOnly u t) ∧
    EncodedAs (.submod rd ra rb) 0x41 rd ra rb ∧ IssuesWith (.submod rd ra rb) configCheck ∧
    CompletesWith (.submod rd ra rb) [rd] (fun _ l u => l.a.val < u.M ∧ l.b.val < u.M) (fun _ l u t =>
      ((t.reg rd).val : Int) = ((l.a.val : Int) - l.b.val) % u.M ∧ RegisterOnly u t)

/-- R112 and R113: ADDMODD and SUBMODD: encoding, issue errors, result for pairs below `M' = M·R`. -/
def Obligations.AddmoddSubmoddRule : Prop :=
  ∀ rd ra rb : RegNum,
    EncodedAs (.addmodd rd ra rb) 0x42 rd ra rb ∧
    IssuesWith (.addmodd rd ra rb) (fun _ u =>
      if u.inFlight.isSome then some .ebusy
      else if rd.val % 2 = 1 ∨ ra.val % 2 = 1 ∨ rb.val % 2 = 1 then some .epair
      else if u.cfgValid then none else some .enocfg) ∧
    CompletesWith (.addmodd rd ra rb) [rd, rd + 1]
      (fun p l u => l.aPair.val < u.M * p.radix ∧ l.bPair.val < u.M * p.radix) (fun p l u t =>
      (t.pair rd).val = (l.aPair.val + l.bPair.val) % (u.M * p.radix) ∧ RegisterOnly u t) ∧
    EncodedAs (.submodd rd ra rb) 0x43 rd ra rb ∧
    IssuesWith (.submodd rd ra rb) (fun _ u =>
      if u.inFlight.isSome then some .ebusy
      else if rd.val % 2 = 1 ∨ ra.val % 2 = 1 ∨ rb.val % 2 = 1 then some .epair
      else if u.cfgValid then none else some .enocfg) ∧
    CompletesWith (.submodd rd ra rb) [rd, rd + 1]
      (fun p l u => l.aPair.val < u.M * p.radix ∧ l.bPair.val < u.M * p.radix) (fun p l u t =>
      ((t.pair rd).val : Int) = ((l.aPair.val : Int) - l.bPair.val) % ((u.M * p.radix : Nat) : Int) ∧ RegisterOnly u t)

/-- R120: MREDC: encoding, issue errors, and for `T < M·R` the result `T·R⁻¹ mod M`, fully reduced: the one number below `M` that
times `R` is `T` modulo `M`. -/
def Obligations.MredcRule : Prop :=
  ∀ rd ra : RegNum,
    EncodedAs (.mredc rd ra) 0x50 rd ra 0 ∧
    IssuesWith (.mredc rd ra) (fun _ u =>
      if u.inFlight.isSome then some .ebusy
      else if ra.val % 2 = 1 then some .epair
      else if u.cfgValid then none else some .enocfg) ∧
    CompletesWith (.mredc rd ra) [rd] (fun p l u => Configured u ∧ l.aPair.val < u.M * p.radix) (fun p l u t =>
      (t.reg rd).val < u.M ∧ (t.reg rd).val * p.radix % u.M = l.aPair.val % u.M ∧
        (t.reg rd).val = redc p.radix u.M l.aPair.val ∧ RegisterOnly u t)

/-- R121 and R123: MMUL and MSQR: encoding, issue errors, and in the domain the result `a·b·R⁻¹ mod M`, fully reduced. -/
def Obligations.MmulMsqrRule : Prop :=
  ∀ rd ra rb : RegNum,
    EncodedAs (.mmul rd ra rb) 0x51 rd ra rb ∧ IssuesWith (.mmul rd ra rb) configCheck ∧
    CompletesWith (.mmul rd ra rb) [rd] (fun _ l u => Configured u ∧ InMulDomain u l.a.val l.b.val) (fun p l u t =>
      (t.reg rd).val < u.M ∧ (t.reg rd).val * p.radix % u.M = l.a.val * l.b.val % u.M ∧
        (t.reg rd).val = redc p.radix u.M (l.a.val * l.b.val) ∧ RegisterOnly u t) ∧
    EncodedAs (.msqr rd ra) 0x53 rd ra 0 ∧ IssuesWith (.msqr rd ra) configCheck ∧
    CompletesWith (.msqr rd ra) [rd] (fun _ l u => Configured u ∧ InMulDomain u l.a.val l.a.val) (fun p l u t =>
      (t.reg rd).val < u.M ∧ (t.reg rd).val * p.radix % u.M = l.a.val * l.a.val % u.M ∧
        (t.reg rd).val = redc p.radix u.M (l.a.val * l.a.val) ∧ RegisterOnly u t)

/-- R122 and R124: MMULNF and MSQRNF: encoding, issue errors, and in the domain a result below `2M`, congruent to `a·b·R⁻¹`: exactly the
candidate when `SPAREBITS ≥ 1`, fully reduced when `SPAREBITS = 0`. -/
def Obligations.MmulnfMsqrnfRule : Prop :=
  ∀ rd ra rb : RegNum,
    EncodedAs (.mmulnf rd ra rb) 0x52 rd ra rb ∧ IssuesWith (.mmulnf rd ra rb) configCheck ∧
    CompletesWith (.mmulnf rd ra rb) [rd] (fun _ l u => Configured u ∧ InMulDomain u l.a.val l.b.val) (fun p l u t =>
      (t.reg rd).val < 2 * u.M ∧ (t.reg rd).val * p.radix % u.M = l.a.val * l.b.val % u.M ∧
        (1 ≤ u.spareBits.toNat → (t.reg rd).val = cand p.radix u.M (l.a.val * l.b.val)) ∧
        (u.spareBits.toNat = 0 → (t.reg rd).val = redc p.radix u.M (l.a.val * l.b.val)) ∧ RegisterOnly u t) ∧
    EncodedAs (.msqrnf rd ra) 0x54 rd ra 0 ∧ IssuesWith (.msqrnf rd ra) configCheck ∧
    CompletesWith (.msqrnf rd ra) [rd] (fun _ l u => Configured u ∧ InMulDomain u l.a.val l.a.val) (fun p l u t =>
      (t.reg rd).val < 2 * u.M ∧ (t.reg rd).val * p.radix % u.M = l.a.val * l.a.val % u.M ∧
        (1 ≤ u.spareBits.toNat → (t.reg rd).val = cand p.radix u.M (l.a.val * l.a.val)) ∧
        (u.spareBits.toNat = 0 → (t.reg rd).val = redc p.radix u.M (l.a.val * l.a.val)) ∧ RegisterOnly u t)

/-- R140: SETMOD: encoding, issue errors (with R141's check), and what it writes; with `RA = RB` it always raises ECFG. -/
def Obligations.SetmodRule : Prop :=
  (∀ ra rb : RegNum,
    EncodedAs (.setmod ra rb) 0x60 0 ra rb ∧
    IssuesWith (.setmod ra rb) (fun p u =>
      if u.inFlight.isSome then some .ebusy
      else if ((u.reg ra).limb 0).toNat % 2 = 1 ∧
        ((u.reg ra).limb 0).toNat * ((u.reg rb).limb 0).toNat % 2 ^ p.W = 2 ^ p.W - 1 then none else some .ecfg) ∧
    CompletesWith (.setmod ra rb) [] (fun _ _ _ => True) (fun p l u t =>
      t.modulus = l.a ∧ t.m0ninv = l.b.limb 0 ∧ t.spareBits.toNat = p.N * p.W - bitlen l.a.val ∧ t.cfgValid = true ∧
        t.carry = u.carry ∧ t.draws = u.draws)) ∧
  ∀ (p : Params) (x : BitVec p.W), ¬ (x.toNat % 2 = 1 ∧ x.toNat * x.toNat % 2 ^ p.W = 2 ^ p.W - 1)

/-- R70: what the pseudo-instructions do: MOV copies whatever `C` is and keeps `C`, ZERO clears its register and `C`, MDBL doubles
modulo `M` a value below `M`. Both source fields name one register, so both latched values are the same. -/
def Obligations.PseudoInstructions : Prop :=
  ∀ vd va : RegNum,
    (pseudoMov vd va = .cmov vd va va ∧ CompletesWith (pseudoMov vd va) [vd] (fun _ l _ => l.a = l.b) (fun _ l u t =>
      t.reg vd = l.a ∧ t.carry = u.carry)) ∧
    (pseudoZero vd = .sub vd vd vd ∧ CompletesWith (pseudoZero vd) [vd] (fun _ l _ => l.a = l.b) (fun _ _ _ t =>
      (t.reg vd).val = 0 ∧ t.carry = false)) ∧
    (pseudoMdbl vd va = .addmod vd va va ∧
      CompletesWith (pseudoMdbl vd va) [vd] (fun _ l u => l.a = l.b ∧ l.a.val < u.M) (fun _ l u t =>
        (t.reg vd).val = 2 * l.a.val % u.M))

/-- Operands outside a command's domain: every limb of the destination is a fresh free value (nothing is known of it), no error is
raised, and all else is as for an in-domain run (R13; the count of draws is the model's own, log entry 6). -/
def Obligations.OutOfDomainDraws : Prop :=
  ∀ (p : Params) (u : Mau p) (l : Latch p), u.completing = some l → OutOfDomain u l →
    ∃ t : Mau p, exec l.cmd ⟨p, u⟩ = .next ⟨p, t⟩ ∧ CompletionFrame l.cmd.dests u t ∧ SameConfig u t ∧
      t.carry = u.carry ∧ t.draws = u.draws + l.cmd.dests.length * p.N ∧
      ∀ k (h : k < l.cmd.dests.length) j, j < p.N →
        (t.reg l.cmd.dests[k]).limb j = Config.freeWord p.W (u.draws + k * p.N + j)

/-- With `SPAREBITS = 0`, MMULNF and MSQRNF do exactly what MMUL and MSQR do (45_montgomery.md R130, for operands in the domain). For
operands outside the domain the two runs, compared at equal counts of draws, draw the same free words: the spec does not say that, it is
the model's choice (log entry 6). -/
def Obligations.NoSpareBitMeansFullyReduced : Prop :=
  ∀ (p : Params) (u : Mau p) (l : Latch p) (rd ra rb : RegNum), u.script = [] ∨ (∃ rest, u.script = .unit :: rest) →
    u.spareBits.toNat = 0 →
    exec (.mmulnf rd ra rb) ⟨p, { u with inFlight := some { l with cmd := .mmulnf rd ra rb } }⟩ =
      exec (.mmul rd ra rb) ⟨p, { u with inFlight := some { l with cmd := .mmul rd ra rb } }⟩ ∧
    exec (.msqrnf rd ra) ⟨p, { u with inFlight := some { l with cmd := .msqrnf rd ra } }⟩ =
      exec (.msqr rd ra) ⟨p, { u with inFlight := some { l with cmd := .msqr rd ra } }⟩

/-! ### The Montgomery candidate and the reference datapaths -/

/-- R125: `m(T)` is the unique number below `R` that makes `T + m·M` a multiple of `R`; the candidate is the exact quotient, congruent to
`T·R⁻¹` and below `2M`; the reduction is below `M`; the candidate is below `R` when `2M ≤ R`, and may reach `R` otherwise. -/
def Obligations.CandidateAndItsBound : Prop :=
  (∀ (p : Params) (M T : Nat), M % 2 = 1 → M < p.radix → T < M * p.radix →
    montM p.radix M T < p.radix ∧ (T + montM p.radix M T * M) % p.radix = 0 ∧
    (∀ m, m < p.radix → (T + m * M) % p.radix = 0 → m = montM p.radix M T) ∧
    cand p.radix M T * p.radix = T + montM p.radix M T * M ∧
    cand p.radix M T * p.radix % M = T % M ∧ cand p.radix M T < 2 * M ∧
    redc p.radix M T < M ∧ redc p.radix M T * p.radix % M = T % M ∧
    redc p.radix M T = (if M ≤ cand p.radix M T then cand p.radix M T - M else cand p.radix M T) ∧
    (2 * M ≤ p.radix → cand p.radix M T < p.radix)) ∧
  ∃ (p : Params) (M T : Nat), M % 2 = 1 ∧ M < p.radix ∧ T < M * p.radix ∧ p.radix ≤ cand p.radix M T

/-- Montgomery products: associative below `M`; `R mod M` is the unit; negating an operand of a square changes nothing; and one final
subtraction turns the candidate into the reduced value (R131, R121, R123). -/
def Obligations.MontgomeryEquivalences : Prop :=
  ∀ (p : Params) (M : Nat), M % 2 = 1 → M < p.radix →
    (∀ a b c, a < M → b < M → c < M →
      redc p.radix M (redc p.radix M (a * b) * c) = redc p.radix M (a * redc p.radix M (b * c))) ∧
    (∀ b, b < M → redc p.radix M (p.radix % M * b) = b) ∧
    (∀ a, 0 < a → a < M → redc p.radix M ((M - a) * (M - a)) = redc p.radix M (a * a)) ∧
    (2 * M ≤ p.radix → ∀ T, T < M * p.radix →
      (finalSub false (LimbVec.ofNat p.W p.N (cand p.radix M T)) (LimbVec.ofNat p.W p.N M)).val = redc p.radix M T)

/-- Product scanning computes the product, at both lengths, on every instance (R103; the three-word sum does not overflow for
`N ≤ 64`, `W ≥ 32`). -/
def Obligations.ProductScanningMultiplies : Prop :=
  ∀ (p : Params) (a b : LimbVec p.W p.N),
    (comba (p.N + p.N) a b).val = a.val * b.val ∧ (comba p.N a b).val = a.val * b.val % p.radix

/-- The squaring datapath computes the square, on every instance (R104). -/
def Obligations.SquaringDatapathSquares : Prop :=
  ∀ (p : Params) (a : LimbVec p.W p.N), (squareWide a).val = a.val ^ 2

/-- The modular datapaths compute `(a ± b) mod m` for operands below the modulus, at every length, with either final-correction variant
where the modulus allows it (R114, R115, R116). -/
def Obligations.ModularDatapathsAgree : Prop :=
  ∀ (W K spareBits : Nat) (a b m : LimbVec W K), a.val < m.val → b.val < m.val →
    (1 ≤ spareBits → 2 * m.val ≤ 2 ^ (K * W)) →
    (modAddPath spareBits a b m).val = (a.val + b.val) % m.val ∧
      ((modSubPath a b m).val : Int) = ((a.val : Int) - b.val) % (m.val : Int)

/-- The separated CIOS reduction computes the candidate and the reduced value, on every instance (R127). -/
def Obligations.SeparatedCiosReduces : Prop :=
  ∀ (p : Params) (M : LimbVec p.W p.N) (q : BitVec p.W) (T : LimbVec p.W (p.N + p.N)), M.val % 2 = 1 →
    (M.limb 0).toNat * q.toNat % 2 ^ p.W = 2 ^ p.W - 1 → T.val < M.val * p.radix →
    (ciosCandidate M q T).1.toNat * p.radix + (ciosCandidate M q T).2.val = cand p.radix M.val T.val ∧
      (ciosReduce M q T).val = redc p.radix M.val T.val

/-- The interleaved CIOS multiplication computes the candidate and the reduced product, on every instance, for the operands of R126
(R128). -/
def Obligations.InterleavedCiosMultiplies : Prop :=
  ∀ (p : Params) (M : LimbVec p.W p.N) (q : BitVec p.W) (a b : LimbVec p.W p.N), M.val % 2 = 1 →
    (M.limb 0).toNat * q.toNat % 2 ^ p.W = 2 ^ p.W - 1 →
    (a.val < M.val ∧ b.val < M.val) ∨ (4 * M.val ≤ p.radix ∧ a.val < 2 * M.val ∧ b.val < 2 * M.val) →
    (fusedCandidate M q a b).1.toNat ≤ 1 ∧
      (fusedCandidate M q a b).1.toNat * p.radix + (fusedCandidate M q a b).2.val = cand p.radix M.val (a.val * b.val) ∧
      (fusedMul M q a b).val = redc p.radix M.val (a.val * b.val)

/-! ### The whole machine -/

/-- The invariant holds right after reset, for every instance. -/
def Obligations.ResetMeetsInvariant : Prop := ∀ p : Params, (Mau.reset p).Inv

/-- Every step keeps the invariant: the configuration invariant of 10_state.md R32 (`M` odd, `M0NINV = −M[0]⁻¹`, `SPAREBITS` right while
`CFG_VALID = 1`), what a command in flight has passed, and ERRINFO 0 while no error is recorded. -/
def Obligations.StepKeepsInvariant : Prop :=
  ∀ s t : State, s.mau.Inv → step s = .next t → t.mau.Inv

/-- The configuration changes only at reset and at the completion of a SETMOD, and only reset clears CFG_VALID (R143, 10_state.md R26). -/
def Obligations.OnlySetmodWritesConfiguration : Prop :=
  ∀ (p : Params) (u t : Mau p), step ⟨p, u⟩ = .next ⟨p, t⟩ →
    (∃ rest, u.script = .reset :: rest) ∨
      (SameConfig u t ∨ (∃ l ra rb, u.completing = some l ∧ l.cmd = .setmod ra rb)) ∧
        (u.cfgValid = true → t.cfgValid = true)

/-- `C` changes only at reset and at the completion of ADD, ADC, SUB, SBB, CADDM or CSUBM (10_state.md R25). -/
def Obligations.OnlyListedCommandsWriteCarry : Prop :=
  ∀ (p : Params) (u t : Mau p), step ⟨p, u⟩ = .next ⟨p, t⟩ → t.carry ≠ u.carry →
    (∃ rest, u.script = .reset :: rest) ∨
      ∃ l, u.completing = some l ∧ l.cmd.mnemonic ∈ ["ADD", "ADC", "SUB", "SBB", "CADDM", "CSUBM"]

/-- An operand register changes only at reset, by a host write to one of its limbs with nothing in flight, and as a destination of the
command that completes (10_state.md R20). -/
def Obligations.RegistersChangeOnlyAsWritten : Prop :=
  ∀ (p : Params) (u t : Mau p) (r : RegNum), step ⟨p, u⟩ = .next ⟨p, t⟩ → t.reg r ≠ u.reg r →
    (∃ rest, u.script = .reset :: rest) ∨
      (∃ l, u.completing = some l ∧ r ∈ l.cmd.dests) ∨
      (u.inFlight = none ∧ ∃ j v rest, j < p.N ∧ u.script = .write (regAddress r j) v :: rest)

/-- BUSY: set only by an issue, cleared only by completion or reset, the command in flight unchanged in between; and a run that has ended
stays as it is (10_state.md R31, R173, R165, R178). That a run has ended only when no reset is to come either is the model's choice (log
entry 17). -/
def Obligations.BusyFollowsIssueAndCompletion : Prop :=
  ∀ (p : Params) (u t : Mau p), step ⟨p, u⟩ = .next ⟨p, t⟩ →
    (u.inFlight = none → t.inFlight ≠ none →
      ∃ v i, u.cmdWrite = some v ∧ decode (v.setWidth 64) = .ok i ∧ Issued i u t) ∧
    (u.inFlight ≠ none → t.inFlight = none → u.completing ≠ none ∨ ∃ rest, u.script = .reset :: rest) ∧
    (u.inFlight ≠ none → t.inFlight ≠ none → t.inFlight = u.inFlight) ∧
    (u.Ended → t = u)

/-- A command in flight completes, or is abandoned by a reset, within one step more than there are events to come: the model's form of the
fairness that R173 asks for (log entry 2). -/
def Obligations.CommandEndsWithinBound : Prop :=
  ∀ s : State, s.mau.inFlight ≠ none →
    ∃ k t, k ≤ s.mau.script.length + 1 ∧ core.run k s = .next t ∧ t.mau.inFlight = none

/-- A Montgomery multiplication from the port to its result: with the configuration invariant and operands below `M`, the CMD write of
MMUL's word issues it, the Unit's turn completes it, and then `V[RD]·R ≡ V[RA]·V[RB] (mod M)` with `V[RD] < M`, on the values the registers
held at issue; every other register, `C`, the configuration and the error record are as before (R60, R121, R173). -/
def Obligations.MmulFromPortToResult : Prop :=
  ∀ (p : Params) (u : Mau p) (rd ra rb : RegNum) (v : BitVec p.W) (rest : List (Event p)), u.Inv → u.cfgValid = true →
    u.inFlight = none → v.setWidth 64 = (encode (.mmul rd ra rb)).setWidth 64 →
    u.script = .write cmdAddr v :: .unit :: rest → (u.reg ra).val < u.M → (u.reg rb).val < u.M →
    ∃ t1 t : Mau p, step ⟨p, u⟩ = .next ⟨p, t1⟩ ∧ t1.inFlight ≠ none ∧ step ⟨p, t1⟩ = .next ⟨p, t⟩ ∧
      (t.reg rd).val < u.M ∧ (t.reg rd).val * p.radix % u.M = (u.reg ra).val * (u.reg rb).val % u.M ∧
      (∀ q, q ≠ rd → t.reg q = u.reg q) ∧ t.carry = u.carry ∧ SameConfig u t ∧ t.err = u.err ∧
      t.errInfo = u.errInfo ∧ t.inFlight = none ∧ t.script = rest
end

