-- ==== Sys2Proof/Laws/Limbs.lean ====
section
/-!
SUPPORT. Limb vectors and their values: the bound, the value of `limbs_n(x)`, and the value of a pair.
-/

namespace Sys2Proof

theorem limbsVal_lt {W : Nat} (xs : List (BitVec W)) : limbsVal xs < 2 ^ (xs.length * W) := by
  induction xs with
  | nil => simp [limbsVal]
  | cons x xs ih =>
    have hx := x.isLt
    have h1 : 2 ^ W * (limbsVal xs + 1) ≤ 2 ^ W * 2 ^ (xs.length * W) := Nat.mul_le_mul_left _ ih
    have h2 : 2 ^ ((xs.length + 1) * W) = 2 ^ W * 2 ^ (xs.length * W) := by
      rw [Nat.succ_mul, Nat.add_comm, Nat.pow_add]
    rw [Nat.mul_add, Nat.mul_one] at h1
    simp only [limbsVal, List.length_cons]
    omega

theorem limbsVal_append {W : Nat} (xs ys : List (BitVec W)) :
    limbsVal (xs ++ ys) = limbsVal xs + 2 ^ (xs.length * W) * limbsVal ys := by
  induction xs with
  | nil => simp [limbsVal]
  | cons x xs ih =>
    have h2 : 2 ^ ((xs.length + 1) * W) = 2 ^ W * 2 ^ (xs.length * W) := by
      rw [Nat.succ_mul, Nat.add_comm, Nat.pow_add]
    simp only [List.cons_append, limbsVal, ih, List.length_cons, h2]
    ring

theorem limbsVal_replicate_zero (W n : Nat) : limbsVal (List.replicate n 0#W) = 0 := by
  induction n with
  | zero => rfl
  | succ n ih => simp [List.replicate_succ, limbsVal, ih]

theorem limbsVal_limbsOf (W k x : Nat) : limbsVal (limbsOf W k x) = x % 2 ^ (k * W) := by
  induction k generalizing x with
  | zero => simp [limbsOf, limbsVal, Nat.mod_one]
  | succ k ih =>
    simp only [limbsOf, limbsVal, ih, BitVec.toNat_ofNat]
    rw [Nat.succ_mul, Nat.add_comm (k * W) W, Nat.pow_add, Nat.mod_mul]

theorem limbsVal_injective {W : Nat} {xs ys : List (BitVec W)} (hl : xs.length = ys.length)
    (h : limbsVal xs = limbsVal ys) : xs = ys := by
  induction xs generalizing ys with
  | nil => cases ys with
    | nil => rfl
    | cons y ys => simp at hl
  | cons x xs ih => cases ys with
    | nil => simp at hl
    | cons y ys =>
      simp only [limbsVal] at h
      have hx := x.isLt
      have hy := y.isLt
      have e1 : (x.toNat + 2 ^ W * limbsVal xs) % 2 ^ W = x.toNat := by
        rw [Nat.add_mul_mod_self_left, Nat.mod_eq_of_lt hx]
      have e2 : (y.toNat + 2 ^ W * limbsVal ys) % 2 ^ W = y.toNat := by
        rw [Nat.add_mul_mod_self_left, Nat.mod_eq_of_lt hy]
      have e3 : x.toNat = y.toNat := by rw [← e1, ← e2, h]
      have e4 : limbsVal xs = limbsVal ys := by
        rw [e3] at h
        exact Nat.eq_of_mul_eq_mul_left (Nat.two_pow_pos W) (Nat.add_left_cancel h)
      rw [BitVec.eq_of_toNat_eq e3, ih (by simpa using hl) e4]

/-- A vector's value is below `2^(n·W)`. -/
theorem LimbVec.val_lt {W n : Nat} (x : LimbVec W n) : x.val < 2 ^ (n * W) := by
  have h := limbsVal_lt x.limbs
  rwa [x.length_eq] at h

/-- `val(limbs_n(x)) = x mod 2^(n·W)`. -/
@[simp] theorem LimbVec.val_ofNat (W n x : Nat) : (LimbVec.ofNat W n x).val = x % 2 ^ (n * W) :=
  limbsVal_limbsOf W n x

@[simp] theorem LimbVec.val_zero (W n : Nat) : (LimbVec.zero W n).val = 0 := limbsVal_replicate_zero W n

/-- Vectors of one length with one value are equal. -/
theorem LimbVec.eq_of_val_eq {W n : Nat} {x y : LimbVec W n} (h : x.val = y.val) : x = y := by
  cases x with
  | mk xs hx => cases y with
    | mk ys hy =>
      have e : xs = ys := limbsVal_injective (hx.trans hy.symm) h
      subst e
      rfl

/-- The value of a double-width vector: `val(lo) + 2^(n·W) · val(hi)`. -/
@[simp] theorem LimbVec.val_join {W n : Nat} (lo hi : LimbVec W n) :
    (lo.join hi).val = lo.val + 2 ^ (n * W) * hi.val := by
  simp [LimbVec.val, LimbVec.join, limbsVal_append, lo.length_eq]

/-- A double-width vector is its two halves. -/
@[simp] theorem LimbVec.join_halves {W n : Nat} (t : LimbVec W (n + n)) : t.lowHalf.join t.highHalf = t := by
  cases t with
  | mk ts ht => simp [LimbVec.join, LimbVec.lowHalf, LimbVec.highHalf]

theorem LimbVec.val_lowHalf {W n : Nat} (t : LimbVec W (n + n)) : t.lowHalf.val = t.val % 2 ^ (n * W) := by
  conv => rhs; rw [← t.join_halves]
  rw [LimbVec.val_join, Nat.add_mul_mod_self_left, Nat.mod_eq_of_lt (LimbVec.val_lt _)]

theorem LimbVec.val_highHalf {W n : Nat} (t : LimbVec W (n + n)) : t.highHalf.val = t.val / 2 ^ (n * W) := by
  conv => rhs; rw [← t.join_halves]
  rw [LimbVec.val_join, Nat.add_mul_div_left _ _ (Nat.two_pow_pos _), Nat.div_eq_of_lt (LimbVec.val_lt _), Nat.zero_add]

end Sys2Proof
end

