-- ==== Sys2Proof/Laws/State.lean ====
section
/-!
SUPPORT. One lemma per field per update of the unit, each true by unfolding, and what `reg` reads after each update, so that no
later proof unfolds a record update.
-/

namespace Sys2Proof.Machine

variable {p : Params} (u : Mau p)

/-! ### `setReg` -/

@[simp] theorem Mau.setReg_regs (r : RegNum) (x : LimbVec p.W p.N) : (u.setReg r x).regs = u.regs.set r x := rfl
@[simp] theorem Mau.setReg_carry (r : RegNum) (x : LimbVec p.W p.N) : (u.setReg r x).carry = u.carry := rfl
@[simp] theorem Mau.setReg_cfgValid (r : RegNum) (x : LimbVec p.W p.N) : (u.setReg r x).cfgValid = u.cfgValid := rfl
@[simp] theorem Mau.setReg_err (r : RegNum) (x : LimbVec p.W p.N) : (u.setReg r x).err = u.err := rfl
@[simp] theorem Mau.setReg_errInfo (r : RegNum) (x : LimbVec p.W p.N) : (u.setReg r x).errInfo = u.errInfo := rfl
@[simp] theorem Mau.setReg_modulus (r : RegNum) (x : LimbVec p.W p.N) : (u.setReg r x).modulus = u.modulus := rfl
@[simp] theorem Mau.setReg_m0ninv (r : RegNum) (x : LimbVec p.W p.N) : (u.setReg r x).m0ninv = u.m0ninv := rfl
@[simp] theorem Mau.setReg_spareBits (r : RegNum) (x : LimbVec p.W p.N) : (u.setReg r x).spareBits = u.spareBits := rfl
@[simp] theorem Mau.setReg_inFlight (r : RegNum) (x : LimbVec p.W p.N) : (u.setReg r x).inFlight = u.inFlight := rfl
@[simp] theorem Mau.setReg_script (r : RegNum) (x : LimbVec p.W p.N) : (u.setReg r x).script = u.script := rfl
@[simp] theorem Mau.setReg_readData (r : RegNum) (x : LimbVec p.W p.N) : (u.setReg r x).readData = u.readData := rfl
@[simp] theorem Mau.setReg_draws (r : RegNum) (x : LimbVec p.W p.N) : (u.setReg r x).draws = u.draws := rfl

/-! ### `setCarry` -/

@[simp] theorem Mau.setCarry_regs (b : Bool) : (u.setCarry b).regs = u.regs := rfl
@[simp] theorem Mau.setCarry_carry (b : Bool) : (u.setCarry b).carry = b := rfl
@[simp] theorem Mau.setCarry_cfgValid (b : Bool) : (u.setCarry b).cfgValid = u.cfgValid := rfl
@[simp] theorem Mau.setCarry_err (b : Bool) : (u.setCarry b).err = u.err := rfl
@[simp] theorem Mau.setCarry_errInfo (b : Bool) : (u.setCarry b).errInfo = u.errInfo := rfl
@[simp] theorem Mau.setCarry_modulus (b : Bool) : (u.setCarry b).modulus = u.modulus := rfl
@[simp] theorem Mau.setCarry_m0ninv (b : Bool) : (u.setCarry b).m0ninv = u.m0ninv := rfl
@[simp] theorem Mau.setCarry_spareBits (b : Bool) : (u.setCarry b).spareBits = u.spareBits := rfl
@[simp] theorem Mau.setCarry_inFlight (b : Bool) : (u.setCarry b).inFlight = u.inFlight := rfl
@[simp] theorem Mau.setCarry_script (b : Bool) : (u.setCarry b).script = u.script := rfl
@[simp] theorem Mau.setCarry_readData (b : Bool) : (u.setCarry b).readData = u.readData := rfl
@[simp] theorem Mau.setCarry_draws (b : Bool) : (u.setCarry b).draws = u.draws := rfl

/-! ### `setPair` -/

@[simp] theorem Mau.setPair_carry (k : RegNum) (t : LimbVec p.W (p.N + p.N)) : (u.setPair k t).carry = u.carry := rfl
@[simp] theorem Mau.setPair_cfgValid (k : RegNum) (t : LimbVec p.W (p.N + p.N)) : (u.setPair k t).cfgValid = u.cfgValid := rfl
@[simp] theorem Mau.setPair_err (k : RegNum) (t : LimbVec p.W (p.N + p.N)) : (u.setPair k t).err = u.err := rfl
@[simp] theorem Mau.setPair_errInfo (k : RegNum) (t : LimbVec p.W (p.N + p.N)) : (u.setPair k t).errInfo = u.errInfo := rfl
@[simp] theorem Mau.setPair_modulus (k : RegNum) (t : LimbVec p.W (p.N + p.N)) : (u.setPair k t).modulus = u.modulus := rfl
@[simp] theorem Mau.setPair_m0ninv (k : RegNum) (t : LimbVec p.W (p.N + p.N)) : (u.setPair k t).m0ninv = u.m0ninv := rfl
@[simp] theorem Mau.setPair_spareBits (k : RegNum) (t : LimbVec p.W (p.N + p.N)) : (u.setPair k t).spareBits = u.spareBits := rfl
@[simp] theorem Mau.setPair_inFlight (k : RegNum) (t : LimbVec p.W (p.N + p.N)) : (u.setPair k t).inFlight = u.inFlight := rfl
@[simp] theorem Mau.setPair_script (k : RegNum) (t : LimbVec p.W (p.N + p.N)) : (u.setPair k t).script = u.script := rfl
@[simp] theorem Mau.setPair_readData (k : RegNum) (t : LimbVec p.W (p.N + p.N)) : (u.setPair k t).readData = u.readData := rfl
@[simp] theorem Mau.setPair_draws (k : RegNum) (t : LimbVec p.W (p.N + p.N)) : (u.setPair k t).draws = u.draws := rfl

/-! ### `drawReg` -/

@[simp] theorem Mau.drawReg_carry (r : RegNum) : (u.drawReg r).carry = u.carry := rfl
@[simp] theorem Mau.drawReg_cfgValid (r : RegNum) : (u.drawReg r).cfgValid = u.cfgValid := rfl
@[simp] theorem Mau.drawReg_err (r : RegNum) : (u.drawReg r).err = u.err := rfl
@[simp] theorem Mau.drawReg_errInfo (r : RegNum) : (u.drawReg r).errInfo = u.errInfo := rfl
@[simp] theorem Mau.drawReg_modulus (r : RegNum) : (u.drawReg r).modulus = u.modulus := rfl
@[simp] theorem Mau.drawReg_m0ninv (r : RegNum) : (u.drawReg r).m0ninv = u.m0ninv := rfl
@[simp] theorem Mau.drawReg_spareBits (r : RegNum) : (u.drawReg r).spareBits = u.spareBits := rfl
@[simp] theorem Mau.drawReg_inFlight (r : RegNum) : (u.drawReg r).inFlight = u.inFlight := rfl
@[simp] theorem Mau.drawReg_script (r : RegNum) : (u.drawReg r).script = u.script := rfl
@[simp] theorem Mau.drawReg_readData (r : RegNum) : (u.drawReg r).readData = u.readData := rfl
@[simp] theorem Mau.drawReg_draws (r : RegNum) : (u.drawReg r).draws = u.draws + p.N := rfl

/-! ### `drawPair` -/

@[simp] theorem Mau.drawPair_carry (k : RegNum) : (u.drawPair k).carry = u.carry := rfl
@[simp] theorem Mau.drawPair_cfgValid (k : RegNum) : (u.drawPair k).cfgValid = u.cfgValid := rfl
@[simp] theorem Mau.drawPair_err (k : RegNum) : (u.drawPair k).err = u.err := rfl
@[simp] theorem Mau.drawPair_errInfo (k : RegNum) : (u.drawPair k).errInfo = u.errInfo := rfl
@[simp] theorem Mau.drawPair_modulus (k : RegNum) : (u.drawPair k).modulus = u.modulus := rfl
@[simp] theorem Mau.drawPair_m0ninv (k : RegNum) : (u.drawPair k).m0ninv = u.m0ninv := rfl
@[simp] theorem Mau.drawPair_spareBits (k : RegNum) : (u.drawPair k).spareBits = u.spareBits := rfl
@[simp] theorem Mau.drawPair_inFlight (k : RegNum) : (u.drawPair k).inFlight = u.inFlight := rfl
@[simp] theorem Mau.drawPair_script (k : RegNum) : (u.drawPair k).script = u.script := rfl
@[simp] theorem Mau.drawPair_readData (k : RegNum) : (u.drawPair k).readData = u.readData := rfl
@[simp] theorem Mau.drawPair_draws (k : RegNum) : (u.drawPair k).draws = u.draws + (p.N + p.N) := rfl

/-! ### `pop` -/

@[simp] theorem Mau.pop_regs : u.pop.regs = u.regs := rfl
@[simp] theorem Mau.pop_carry : u.pop.carry = u.carry := rfl
@[simp] theorem Mau.pop_cfgValid : u.pop.cfgValid = u.cfgValid := rfl
@[simp] theorem Mau.pop_err : u.pop.err = u.err := rfl
@[simp] theorem Mau.pop_errInfo : u.pop.errInfo = u.errInfo := rfl
@[simp] theorem Mau.pop_modulus : u.pop.modulus = u.modulus := rfl
@[simp] theorem Mau.pop_m0ninv : u.pop.m0ninv = u.m0ninv := rfl
@[simp] theorem Mau.pop_spareBits : u.pop.spareBits = u.spareBits := rfl
@[simp] theorem Mau.pop_inFlight : u.pop.inFlight = u.inFlight := rfl
@[simp] theorem Mau.pop_script : u.pop.script = u.script.tail := rfl
@[simp] theorem Mau.pop_readData : u.pop.readData = u.readData := rfl
@[simp] theorem Mau.pop_draws : u.pop.draws = u.draws := rfl

/-! ### `finish` -/

@[simp] theorem Mau.finish_regs : u.finish.regs = u.regs := rfl
@[simp] theorem Mau.finish_carry : u.finish.carry = u.carry := rfl
@[simp] theorem Mau.finish_cfgValid : u.finish.cfgValid = u.cfgValid := rfl
@[simp] theorem Mau.finish_err : u.finish.err = u.err := rfl
@[simp] theorem Mau.finish_errInfo : u.finish.errInfo = u.errInfo := rfl
@[simp] theorem Mau.finish_modulus : u.finish.modulus = u.modulus := rfl
@[simp] theorem Mau.finish_m0ninv : u.finish.m0ninv = u.m0ninv := rfl
@[simp] theorem Mau.finish_spareBits : u.finish.spareBits = u.spareBits := rfl
@[simp] theorem Mau.finish_inFlight : u.finish.inFlight = none := rfl
@[simp] theorem Mau.finish_script : u.finish.script = u.script := rfl
@[simp] theorem Mau.finish_readData : u.finish.readData = u.readData := rfl
@[simp] theorem Mau.finish_draws : u.finish.draws = u.draws := rfl

/-! ### `answer` -/

@[simp] theorem Mau.answer_regs (w : BitVec p.W) : (u.answer w).regs = u.regs := rfl
@[simp] theorem Mau.answer_carry (w : BitVec p.W) : (u.answer w).carry = u.carry := rfl
@[simp] theorem Mau.answer_cfgValid (w : BitVec p.W) : (u.answer w).cfgValid = u.cfgValid := rfl
@[simp] theorem Mau.answer_err (w : BitVec p.W) : (u.answer w).err = u.err := rfl
@[simp] theorem Mau.answer_errInfo (w : BitVec p.W) : (u.answer w).errInfo = u.errInfo := rfl
@[simp] theorem Mau.answer_modulus (w : BitVec p.W) : (u.answer w).modulus = u.modulus := rfl
@[simp] theorem Mau.answer_m0ninv (w : BitVec p.W) : (u.answer w).m0ninv = u.m0ninv := rfl
@[simp] theorem Mau.answer_spareBits (w : BitVec p.W) : (u.answer w).spareBits = u.spareBits := rfl
@[simp] theorem Mau.answer_inFlight (w : BitVec p.W) : (u.answer w).inFlight = u.inFlight := rfl
@[simp] theorem Mau.answer_script (w : BitVec p.W) : (u.answer w).script = u.script := rfl
@[simp] theorem Mau.answer_readData (w : BitVec p.W) : (u.answer w).readData = some w := rfl
@[simp] theorem Mau.answer_draws (w : BitVec p.W) : (u.answer w).draws = u.draws := rfl

/-! ### `withCmdWrite` -/

@[simp] theorem Mau.withCmdWrite_regs (v : BitVec p.W) : (u.withCmdWrite v).regs = u.regs := rfl
@[simp] theorem Mau.withCmdWrite_carry (v : BitVec p.W) : (u.withCmdWrite v).carry = u.carry := rfl
@[simp] theorem Mau.withCmdWrite_cfgValid (v : BitVec p.W) : (u.withCmdWrite v).cfgValid = u.cfgValid := rfl
@[simp] theorem Mau.withCmdWrite_err (v : BitVec p.W) : (u.withCmdWrite v).err = u.err := rfl
@[simp] theorem Mau.withCmdWrite_errInfo (v : BitVec p.W) : (u.withCmdWrite v).errInfo = u.errInfo := rfl
@[simp] theorem Mau.withCmdWrite_modulus (v : BitVec p.W) : (u.withCmdWrite v).modulus = u.modulus := rfl
@[simp] theorem Mau.withCmdWrite_m0ninv (v : BitVec p.W) : (u.withCmdWrite v).m0ninv = u.m0ninv := rfl
@[simp] theorem Mau.withCmdWrite_spareBits (v : BitVec p.W) : (u.withCmdWrite v).spareBits = u.spareBits := rfl
@[simp] theorem Mau.withCmdWrite_inFlight (v : BitVec p.W) : (u.withCmdWrite v).inFlight = u.inFlight := rfl
@[simp] theorem Mau.withCmdWrite_script (v : BitVec p.W) : (u.withCmdWrite v).script = .write cmdAddr v :: u.script := rfl
@[simp] theorem Mau.withCmdWrite_readData (v : BitVec p.W) : (u.withCmdWrite v).readData = u.readData := rfl
@[simp] theorem Mau.withCmdWrite_draws (v : BitVec p.W) : (u.withCmdWrite v).draws = u.draws := rfl

/-! ### What `reg` and `busy` read -/

@[simp] theorem Mau.reg_setReg_self (r : RegNum) (x : LimbVec p.W p.N) : (u.setReg r x).reg r = x := by
  simp [Mau.reg, Mau.setReg]

theorem Mau.reg_setReg_of_ne {r q : RegNum} (h : q ≠ r) (x : LimbVec p.W p.N) : (u.setReg r x).reg q = u.reg q := by
  have h' : (r : Nat) ≠ q := fun e => h (Fin.ext e.symm)
  simp [Mau.reg, Mau.setReg, h']

@[simp] theorem Mau.reg_setCarry (b : Bool) (q : RegNum) : (u.setCarry b).reg q = u.reg q := rfl
@[simp] theorem Mau.reg_pop (q : RegNum) : u.pop.reg q = u.reg q := rfl
@[simp] theorem Mau.reg_finish (q : RegNum) : u.finish.reg q = u.reg q := rfl
@[simp] theorem Mau.reg_answer (w : BitVec p.W) (q : RegNum) : (u.answer w).reg q = u.reg q := rfl

/-- A pair's two registers are different registers. -/
theorem RegNum.add_one_ne (k : RegNum) : k + 1 ≠ k := by
  revert k; decide

theorem Mau.reg_setPair_low (k : RegNum) (t : LimbVec p.W (p.N + p.N)) : (u.setPair k t).reg k = t.lowHalf := by
  rw [Mau.setPair, Mau.reg_setReg_of_ne _ (RegNum.add_one_ne k).symm, Mau.reg_setReg_self]

theorem Mau.reg_setPair_high (k : RegNum) (t : LimbVec p.W (p.N + p.N)) : (u.setPair k t).reg (k + 1) = t.highHalf := by
  rw [Mau.setPair, Mau.reg_setReg_self]

theorem Mau.reg_setPair_of_ne {k q : RegNum} (h : q ≠ k) (h' : q ≠ k + 1) (t : LimbVec p.W (p.N + p.N)) :
    (u.setPair k t).reg q = u.reg q := by
  rw [Mau.setPair, Mau.reg_setReg_of_ne _ h', Mau.reg_setReg_of_ne _ h]

theorem Mau.reg_drawReg_of_ne {r q : RegNum} (h : q ≠ r) : (u.drawReg r).reg q = u.reg q :=
  Mau.reg_setReg_of_ne u h _

theorem Mau.reg_drawPair_of_ne {k q : RegNum} (h : q ≠ k) (h' : q ≠ k + 1) : (u.drawPair k).reg q = u.reg q :=
  Mau.reg_setPair_of_ne u h h' _

/-- After reset every register is 0. -/
@[simp] theorem Mau.reg_reset (r : RegNum) : (Mau.reset p).reg r = LimbVec.zero p.W p.N := by
  simp [Mau.reg, Mau.reset]

theorem Mau.busy_eq : u.busy = u.inFlight.isSome := rfl

end Sys2Proof.Machine
end

