-- ==== Sys2Proof/Laws/Ops.lean ====
section
/-!
SUPPORT. One lemma per shared operation that says what it can do, which proofs cite instead of unfolding it: the error action,
issue, running a command, the step.
-/

namespace Sys2Proof.Machine

variable {p : Params}

/-- The error action followed by the end of the event is `Recorded`. -/
theorem recorded_raiseError (u : Mau p) (code : ErrCode) (v : BitVec p.W) :
    Recorded code v u (u.raiseError code v).pop := by
  constructor
  · intro h
    simp [Mau.raiseError, h, Mau.pop]
  · intro h
    simp [Mau.raiseError, h, Mau.pop]

/-- An error changes nothing but `ERR` and `ERRINFO`. -/
theorem raiseError_eq (u : Mau p) (code : ErrCode) (v : BitVec p.W) :
    ∃ e x, u.raiseError code v = { u with err := e, errInfo := x } := by
  unfold Mau.raiseError
  split
  · exact ⟨_, _, rfl⟩
  · exact ⟨u.err, u.errInfo, rfl⟩

/-- The issue of a command: it is latched, or the first failing check is recorded. -/
theorem issue_cases (u : Mau p) (i : Instr) (v : BitVec p.W) :
    (u.issueError i = none ∧ u.issue i v = { u with inFlight := some (u.latch i) }) ∨
      ∃ code, u.issueError i = some code ∧ u.issue i v = u.raiseError code v := by
  unfold Mau.issue
  cases h : u.issueError i with
  | none => exact .inl ⟨rfl, rfl⟩
  | some code => exact .inr ⟨code, rfl, rfl⟩

/-- If the Unit moves next, the host is not writing CMD. -/
theorem cmdWrite_of_completing {u : Mau p} {l : Latch p} (h : u.completing = some l) : u.cmdWrite = none := by
  unfold Mau.completing at h
  unfold Mau.cmdWrite
  split at h <;> simp_all

/-- The command that completes is the one in flight. -/
theorem inFlight_of_completing {u : Mau p} {l : Latch p} (h : u.completing = some l) : u.inFlight = some l := by
  unfold Mau.completing at h
  split at h <;> simp_all

/-- A command's completion: its effect on the latched values, `BUSY <- 0`, and the event is over, in one step. -/
theorem runCommand_completing {i : Instr} {effect : {p : Params} → Latch p → Mau p → Mau p} {u : Mau p} {l : Latch p}
    (h : u.completing = some l) (hi : l.cmd = i) :
    runCommand i effect ⟨p, u⟩ = .next ⟨p, (effect l u).finish.pop⟩ := by
  simp [runCommand, cmdWrite_of_completing h, h, hi]

/-- A command's issue. -/
theorem runCommand_cmdWrite {i : Instr} {effect : {p : Params} → Latch p → Mau p → Mau p} {u : Mau p} {v : BitVec p.W}
    (h : u.cmdWrite = some v) (hd : decode (v.setWidth 64) = .ok i) :
    runCommand i effect ⟨p, u⟩ = .next ⟨p, (u.issue i v).pop⟩ := by
  simp [runCommand, h, hd]

/-- The effect of each command at completion, one function over all of them. -/
def effectOf (i : Instr) {p : Params} (l : Latch p) (u : Mau p) : Mau p :=
  match i with
  | .add rd _ _ => addEffect rd l u
  | .adc rd _ _ => adcEffect rd l u
  | .sub rd _ _ => subEffect rd l u
  | .sbb rd _ _ => sbbEffect rd l u
  | .cmov rd _ _ => cmovEffect rd l u
  | .caddm rd _ => caddmEffect rd l u
  | .csubm rd _ => csubmEffect rd l u
  | .finsub rd _ => finsubEffect rd l u
  | .finsubc rd _ => finsubcEffect rd l u
  | .mulraw rd _ _ => mulrawEffect rd l u
  | .sqrraw rd _ => sqrrawEffect rd l u
  | .mullo rd _ _ => mulloEffect rd l u
  | .addmod rd _ _ => addmodEffect rd l u
  | .submod rd _ _ => submodEffect rd l u
  | .addmodd rd _ _ => addmoddEffect rd l u
  | .submodd rd _ _ => submoddEffect rd l u
  | .mredc rd _ => mredcEffect rd l u
  | .mmul rd _ _ => mmulEffect rd l u
  | .mmulnf rd _ _ => mmulnfEffect rd l u
  | .msqr rd _ => msqrEffect rd l u
  | .msqrnf rd _ => msqrnfEffect rd l u
  | .setmod _ _ => setmodEffect l u

/-- Every meaning is the shared operation with the command's effect. -/
theorem exec_eq_runCommand (i : Instr) (s : State) : exec i s = runCommand i (effectOf i) s := by
  cases i <;> rfl

/-- A command's completion, for any command. -/
theorem exec_completing {i : Instr} {u : Mau p} {l : Latch p} (h : u.completing = some l) (hi : l.cmd = i) :
    exec i ⟨p, u⟩ = .next ⟨p, (effectOf i l u).finish.pop⟩ := by
  rw [exec_eq_runCommand, runCommand_completing h hi]

/-- A command's issue, for any command. -/
theorem exec_cmdWrite {i : Instr} {u : Mau p} {v : BitVec p.W} (h : u.cmdWrite = some v)
    (hd : decode (v.setWidth 64) = .ok i) : exec i ⟨p, u⟩ = .next ⟨p, (u.issue i v).pop⟩ := by
  rw [exec_eq_runCommand, runCommand_cmdWrite h hd]

/-- Writing a result, or a free value outside the domain, changes only the destination register and the count of draws. -/
theorem setRegIf_cases (u : Mau p) (inDomain : Bool) (r : RegNum) (x : LimbVec p.W p.N) :
    (inDomain = true ∧ u.setRegIf inDomain r x = u.setReg r x) ∨
      (inDomain = false ∧ u.setRegIf inDomain r x = u.drawReg r) := by
  cases inDomain
  · exact .inr ⟨rfl, rfl⟩
  · exact .inl ⟨rfl, rfl⟩

/-- The same for a destination pair. -/
theorem setPairIf_cases (u : Mau p) (inDomain : Bool) (k : RegNum) (t : LimbVec p.W (p.N + p.N)) :
    (inDomain = true ∧ u.setPairIf inDomain k t = u.setPair k t) ∨
      (inDomain = false ∧ u.setPairIf inDomain k t = u.drawPair k) := by
  cases inDomain
  · exact .inr ⟨rfl, rfl⟩
  · exact .inl ⟨rfl, rfl⟩

end Sys2Proof.Machine
end

