-- ==== Sys2Proof/Laws/Completion.lean ====
section
/-!
SUPPORT. What completing a command leaves unchanged, once for all commands; the limbs of a free value; the doubled modulus; the issue
checks on register numbers beside well-formedness.
-/

namespace Sys2Proof.Machine

variable {p : Params}

/-- A write of a result or of a free value touches no other register. -/
theorem reg_setRegIf_of_ne (u : Mau p) (inDomain : Bool) {r q : RegNum} (x : LimbVec p.W p.N) (h : q ≠ r) :
    (u.setRegIf inDomain r x).reg q = u.reg q := by
  obtain ⟨-, e⟩ | ⟨-, e⟩ := setRegIf_cases u inDomain r x <;> rw [e]
  · exact Mau.reg_setReg_of_ne u h x
  · exact Mau.reg_drawReg_of_ne u h

/-- The same for a pair. -/
theorem reg_setPairIf_of_ne (u : Mau p) (inDomain : Bool) {k q : RegNum} (t : LimbVec p.W (p.N + p.N)) (h : q ≠ k)
    (h' : q ≠ k + 1) : (u.setPairIf inDomain k t).reg q = u.reg q := by
  obtain ⟨-, e⟩ | ⟨-, e⟩ := setPairIf_cases u inDomain k t <;> rw [e]
  · exact Mau.reg_setPair_of_ne u h h' t
  · exact Mau.reg_drawPair_of_ne u h h'

/-- A command's effect leaves every register but its destinations. -/
theorem reg_effectOf (i : Instr) (l : Latch p) (u : Mau p) {r : RegNum} (h : r ∉ i.dests) :
    (effectOf i l u).reg r = u.reg r := by
  cases i <;> simp only [Instr.dests, List.mem_cons, List.not_mem_nil, or_false, not_or] at h
  case setmod => rfl
  case addmod | submod | mredc | mmul | mmulnf | msqr | msqrnf => exact reg_setRegIf_of_ne u _ _ h
  case addmodd | submodd => exact reg_setPairIf_of_ne u _ _ h.1 h.2
  case mulraw | sqrraw => exact Mau.reg_setPair_of_ne u h.1 h.2 _
  all_goals exact Mau.reg_setReg_of_ne u h _

/-- A command's effect leaves the error record, the script, the last word read and the command in flight. -/
theorem effectOf_record (i : Instr) (l : Latch p) (u : Mau p) :
    (effectOf i l u).err = u.err ∧ (effectOf i l u).errInfo = u.errInfo ∧ (effectOf i l u).script = u.script ∧
      (effectOf i l u).readData = u.readData := by
  have hr : ∀ b r (x : LimbVec p.W p.N), (u.setRegIf b r x).err = u.err ∧ (u.setRegIf b r x).errInfo = u.errInfo ∧
      (u.setRegIf b r x).script = u.script ∧ (u.setRegIf b r x).readData = u.readData := by
    intro b r x
    cases b <;> exact ⟨rfl, rfl, rfl, rfl⟩
  have hp : ∀ b k (t : LimbVec p.W (p.N + p.N)), (u.setPairIf b k t).err = u.err ∧
      (u.setPairIf b k t).errInfo = u.errInfo ∧ (u.setPairIf b k t).script = u.script ∧
      (u.setPairIf b k t).readData = u.readData := by
    intro b k t
    cases b <;> exact ⟨rfl, rfl, rfl, rfl⟩
  cases i
  case addmod | submod | mredc | mmul | mmulnf | msqr | msqrnf => exact hr _ _ _
  case addmodd | submodd => exact hp _ _ _
  all_goals exact ⟨rfl, rfl, rfl, rfl⟩

/-- A completed command leaves what `CompletionFrame` says. -/
theorem completionFrame_effectOf (i : Instr) (l : Latch p) (u : Mau p) :
    CompletionFrame i.dests u (effectOf i l u).finish.pop := by
  obtain ⟨he, hi, hs, hd⟩ := effectOf_record i l u
  exact ⟨fun r h => reg_effectOf i l u h, he, hi, rfl, by rw [Mau.pop_script, Mau.finish_script, hs], hd⟩

/-- Limb `j` of a free vector is the `j`-th word drawn. -/
theorem limb_freeVec {W n start j : Nat} (h : j < n) : (freeVec W n start).limb j = Config.freeWord W (start + j) := by
  simp [freeVec, LimbVec.limb, h]

/-- The low half of a free pair. -/
theorem limb_lowHalf_freeVec {W n start j : Nat} (h : j < n) :
    (freeVec W (n + n) start).lowHalf.limb j = Config.freeWord W (start + j) := by
  simp [freeVec, LimbVec.limb, LimbVec.lowHalf, h, List.getD_eq_getElem?_getD]

/-- The high half of a free pair. -/
theorem limb_highHalf_freeVec {W n start j : Nat} (h : j < n) :
    (freeVec W (n + n) start).highHalf.limb j = Config.freeWord W (start + n + j) := by
  simp [freeVec, LimbVec.limb, LimbVec.highHalf, h, List.getD_eq_getElem?_getD, Nat.add_assoc]

/-- `M' = M·R` (44_modadd.md R117). -/
@[simp] theorem val_doubleModulus (u : Mau p) : u.doubleModulus.val = u.M * p.radix := by
  simp [Mau.doubleModulus, Mau.M, Params.radix, Nat.mul_comm]

/-- An odd pair field is what the pair check of well-formedness refuses. -/
theorem pairsEven_eq (i : Instr) : i.pairsEven = !hasOddPair i := by
  have key : ∀ r : RegNum, RegNum.isEven r = !oddPairField .P r := by decide
  have hV : ∀ r : RegNum, oddPairField .V r = false := by decide
  have hu : ∀ r : RegNum, oddPairField .unused r = false := by decide
  cases i <;>
    simp [Instr.pairsEven, Instr.pairFields, hasOddPair, Instr.format, Format.rdKind, Format.raKind, Format.rbKind,
      Instr.rd, Instr.ra, Instr.rb, key, hV, hu, Bool.and_assoc]

/-- An overlap is what the overlap check of well-formedness refuses. -/
theorem noOverlap_eq (i : Instr) : i.noOverlap = !hasOverlap i := by
  cases i <;> simp [Instr.noOverlap, hasOverlap, bne]

end Sys2Proof.Machine
end

