-- ==== Sys2Proof/Laws/PerInstr.lean ====
section
/-!
SUPPORT. Statements made per instruction, about a command as text: the family `CommandWord`.
-/

namespace Sys2Proof.Laws.CommandWord

/-- The command's word carries its opcode in `bits[7:0]` and its register fields above it, and nothing in the reserved bits
(30_encoding.md R61, R62). -/
def Statement (i : Instr) : Prop :=
  (encode i).toNat = i.opcode.toNat + 256 * i.rd.val + 4096 * i.ra.val + 65536 * i.rb.val ∧ (encode i).toNat < 2 ^ 20

/-- Four fields of 8, 4, 4 and 4 bits put together, as a number. -/
theorem fields_toNat (opc : BitVec 8) (rd ra rb : RegNum) :
    (0#12 ++ BitVec.ofFin (w := 4) rb ++ BitVec.ofFin (w := 4) ra ++ BitVec.ofFin (w := 4) rd ++ opc).toNat =
      opc.toNat + 256 * rd.val + 4096 * ra.val + 65536 * rb.val := by
  have ho := opc.isLt
  have hd := rd.isLt
  have ha := ra.isLt
  have hb := rb.isLt
  simp only [BitVec.toNat_append, BitVec.toNat_ofFin, BitVec.toNat_ofNat]
  rw [← Nat.shiftLeft_add_eq_or_of_lt (by omega), ← Nat.shiftLeft_add_eq_or_of_lt (by omega),
    ← Nat.shiftLeft_add_eq_or_of_lt (by omega), ← Nat.shiftLeft_add_eq_or_of_lt (by omega)]
  simp only [Nat.shiftLeft_eq]
  omega

theorem statement_of (i : Instr) : Statement i := by
  have h := fields_toNat i.opcode i.rd i.ra i.rb
  have ho := i.opcode.isLt
  have hd := i.rd.isLt
  have ha := i.ra.isLt
  have hb := i.rb.isLt
  refine ⟨h, ?_⟩
  show (0#12 ++ BitVec.ofFin (w := 4) i.rb ++ BitVec.ofFin (w := 4) i.ra ++ BitVec.ofFin (w := 4) i.rd ++ i.opcode).toNat < 2 ^ 20
  omega

theorem add (rd ra rb : RegNum) : Statement (.add rd ra rb) := statement_of _
theorem adc (rd ra rb : RegNum) : Statement (.adc rd ra rb) := statement_of _
theorem sub (rd ra rb : RegNum) : Statement (.sub rd ra rb) := statement_of _
theorem sbb (rd ra rb : RegNum) : Statement (.sbb rd ra rb) := statement_of _
theorem cmov (rd ra rb : RegNum) : Statement (.cmov rd ra rb) := statement_of _
theorem caddm (rd ra : RegNum) : Statement (.caddm rd ra) := statement_of _
theorem csubm (rd ra : RegNum) : Statement (.csubm rd ra) := statement_of _
theorem finsub (rd ra : RegNum) : Statement (.finsub rd ra) := statement_of _
theorem finsubc (rd ra : RegNum) : Statement (.finsubc rd ra) := statement_of _
theorem mulraw (rd ra rb : RegNum) : Statement (.mulraw rd ra rb) := statement_of _
theorem sqrraw (rd ra : RegNum) : Statement (.sqrraw rd ra) := statement_of _
theorem mullo (rd ra rb : RegNum) : Statement (.mullo rd ra rb) := statement_of _
theorem addmod (rd ra rb : RegNum) : Statement (.addmod rd ra rb) := statement_of _
theorem submod (rd ra rb : RegNum) : Statement (.submod rd ra rb) := statement_of _
theorem addmodd (rd ra rb : RegNum) : Statement (.addmodd rd ra rb) := statement_of _
theorem submodd (rd ra rb : RegNum) : Statement (.submodd rd ra rb) := statement_of _
theorem mredc (rd ra : RegNum) : Statement (.mredc rd ra) := statement_of _
theorem mmul (rd ra rb : RegNum) : Statement (.mmul rd ra rb) := statement_of _
theorem mmulnf (rd ra rb : RegNum) : Statement (.mmulnf rd ra rb) := statement_of _
theorem msqr (rd ra : RegNum) : Statement (.msqr rd ra) := statement_of _
theorem msqrnf (rd ra : RegNum) : Statement (.msqrnf rd ra) := statement_of _
theorem setmod (ra rb : RegNum) : Statement (.setmod ra rb) := statement_of _

end Sys2Proof.Laws.CommandWord
end

