-- ==== Sys2Proof/Laws/Step.lean ====
section
/-!
SUPPORT. Everything a step can do, said once (`step_cases`), and one lemma per port operation. Proofs about all steps start from these.
-/

namespace Sys2Proof.Machine

variable {p : Params}

/-- A command's word comes from a CMD write at the head of the script. -/
theorem script_of_cmdWrite {u : Mau p} {v : BitVec p.W} (h : u.cmdWrite = some v) :
    ∃ rest, u.script = .write cmdAddr v :: rest := by
  unfold Mau.cmdWrite at h
  split at h
  · next addr w rest hs =>
    split at h
    · next ha => exact ⟨rest, by rw [hs, ha, Option.some.inj h]⟩
    · cases h
  · cases h

/-- The Unit moves when its turn is the next event, or when no event is to come. -/
theorem script_of_completing {u : Mau p} {l : Latch p} (h : u.completing = some l) :
    u.script = [] ∨ ∃ rest, u.script = .unit :: rest := by
  unfold Mau.completing at h
  split at h
  · next hs => exact .inl hs
  · next rest hs => exact .inr ⟨rest, hs⟩
  · cases h

/-- A CMD write of a word that is a command: its issue. -/
theorem step_issue {u : Mau p} {v : BitVec p.W} {i : Instr} (h : u.cmdWrite = some v) (hd : decode (v.setWidth 64) = .ok i) :
    step ⟨p, u⟩ = .next ⟨p, (u.issue i v).pop⟩ := by
  have hf : u.fetch = some i := by simp [Mau.fetch, h, hd, Except.toOption]
  simp [step, hf, exec_cmdWrite h hd]

/-- A CMD write of a word that is no command: it is rejected. -/
theorem step_reject {u : Mau p} {v : BitVec p.W} {e : DecodeError} (h : u.cmdWrite = some v)
    (hd : decode (v.setWidth 64) = .error e) : step ⟨p, u⟩ = .next ⟨p, (u.rejectWord v).pop⟩ := by
  obtain ⟨rest, hs⟩ := script_of_cmdWrite h
  have hf : u.fetch = none := by simp [Mau.fetch, h, hd, Except.toOption]
  simp [step, hf, Mau.otherStep, hs, Mau.portWrite, target, cmdAddr]

/-- The Unit's step: the command in flight completes. -/
theorem step_completion {u : Mau p} {l : Latch p} (h : u.completing = some l) :
    step ⟨p, u⟩ = .next ⟨p, (effectOf l.cmd l u).finish.pop⟩ := by
  have hf : u.fetch = some l.cmd := by simp [Mau.fetch, cmdWrite_of_completing h, h]
  simp [step, hf, exec_completing h rfl]

/-- Any other step. -/
theorem step_other {u : Mau p} (h : u.cmdWrite = none) (hc : u.completing = none) :
    step ⟨p, u⟩ = .next ⟨p, u.otherStep⟩ := by
  have hf : u.fetch = none := by simp [Mau.fetch, h, hc]
  simp [step, hf]

/-- What a step can do: issue a command, reject a CMD write, complete the command in flight, or none of these. -/
theorem step_cases (u : Mau p) :
    (∃ v i, u.cmdWrite = some v ∧ decode (v.setWidth 64) = .ok i ∧ step ⟨p, u⟩ = .next ⟨p, (u.issue i v).pop⟩) ∨
    (∃ v e, u.cmdWrite = some v ∧ decode (v.setWidth 64) = .error e ∧ step ⟨p, u⟩ = .next ⟨p, (u.rejectWord v).pop⟩) ∨
    (∃ l, u.completing = some l ∧ step ⟨p, u⟩ = .next ⟨p, (effectOf l.cmd l u).finish.pop⟩) ∨
    (u.cmdWrite = none ∧ u.completing = none ∧ step ⟨p, u⟩ = .next ⟨p, u.otherStep⟩) := by
  cases h : u.cmdWrite with
  | some v =>
    cases hd : decode (v.setWidth 64) with
    | ok i => exact .inl ⟨v, i, rfl, hd, step_issue h hd⟩
    | error e => exact .inr (.inl ⟨v, e, rfl, hd, step_reject h hd⟩)
  | none =>
    cases hc : u.completing with
    | some l => exact .inr (.inr (.inl ⟨l, rfl, step_completion hc⟩))
    | none => exact .inr (.inr (.inr ⟨rfl, rfl, step_other h hc⟩))

/-- A port read changes only the data read and the count of draws. -/
theorem portRead_cases (u : Mau p) (addr : BitVec 16) :
    ∃ w d, u.portRead addr = { u with readData := some w, draws := d } := by
  have key : ∀ w, ∃ w' d, u.answerUnlessBusy w = { u with readData := some w', draws := d } := by
    intro w
    unfold Mau.answerUnlessBusy
    split
    · exact ⟨_, _, rfl⟩
    · exact ⟨w, u.draws, rfl⟩
  unfold Mau.portRead
  split
  · exact ⟨_, u.draws, rfl⟩
  · unfold Mau.readStatus
    split
    · exact ⟨_, _, rfl⟩
    · exact ⟨_, u.draws, rfl⟩
  · exact ⟨_, u.draws, rfl⟩
  · exact ⟨_, u.draws, rfl⟩
  · exact ⟨_, u.draws, rfl⟩
  · exact key _
  · exact key _
  · exact key _
  · exact key _
  · exact ⟨_, u.draws, rfl⟩

/-- A port write other than a command's issue changes nothing, the error record, or one operand register. -/
theorem portWrite_cases (u : Mau p) (addr : BitVec 16) (v : BitVec p.W) :
    (∃ e x, u.portWrite addr v = { u with err := e, errInfo := x }) ∨
      ∃ r j, target p.N addr = .regLimb r j ∧ u.busy = false ∧
        u.portWrite addr v = u.setReg r ((u.reg r).setLimb j v) := by
  have same : ∃ e x, u = { u with err := e, errInfo := x } := ⟨u.err, u.errInfo, rfl⟩
  unfold Mau.portWrite
  split
  · exact .inl (raiseError_eq u _ v)
  · unfold Mau.errClear
    split
    · exact .inl ⟨_, _, rfl⟩
    · exact .inl same
  · next r j ht =>
    split
    · exact .inl (raiseError_eq u _ v)
    · next hb => exact .inr ⟨r, j, ht, by simpa using hb, rfl⟩
  all_goals exact .inl same

/-- The address map gives limb `j` of register `r` at its own address, for every limb there is. -/
theorem target_regAddress (r : RegNum) {N j : Nat} (hN : N ≤ 64) (hj : j < N) : target N (regAddress r j) = .regLimb r j := by
  have hr := r.isLt
  have ha : (regAddress r j).toNat = 0x0400 + 0x40 * r.val + j := by
    simp only [regAddress, BitVec.toNat_ofNat]
    omega
  have hd : (0x0400 + 0x40 * r.val + j - 0x0400) / 0x40 = r.val := by omega
  have hm : (0x0400 + 0x40 * r.val + j - 0x0400) % 0x40 = j := by omega
  have hf : Fin.ofNat 16 r.val = r := by
    apply Fin.ext
    simp only [Fin.ofNat]
    omega
  simp only [target, ha, hd, hm, hf]
  repeat' split
  all_goals first | rfl | omega

/-- An address that names limb `j` of register `r` is that limb's address, and there is such a limb. -/
theorem regAddress_of_target {r : RegNum} {N j : Nat} {addr : BitVec 16} (h : target N addr = .regLimb r j) :
    addr = regAddress r j ∧ j < N := by
  simp only [target] at h
  repeat' split at h
  all_goals try cases h
  next h8 =>
  refine ⟨?_, h8.2.2⟩
  apply BitVec.eq_of_toNat_eq
  simp only [regAddress, BitVec.toNat_ofNat, Fin.ofNat]
  omega

end Sys2Proof.Machine
end

