-- ==== Sys2Proof/Tests/Slice0.lean ====
section
/-!
SUPPORT. The model's own tests: the well-formedness checks, one word of every command, one or two single steps per command, and for
every statement with hypotheses a witness that meets them. Expected values come from spec/95_test_vectors.md and from the examples of
the rules named, never from the model.
-/

namespace Sys2Proof.Tests

open Sys2Proof Sys2Proof.Machine

/-! ### Well-formedness: an ill-formed command for each check -/

theorem test_odd_pair_refused : ¬ (Instr.mulraw 3 5 6).WellFormed := by decide
theorem test_odd_source_pair_refused : ¬ (Instr.addmodd 0 2 3).WellFormed := by decide
theorem test_odd_reduction_pair_refused : ¬ (Instr.mredc 3 5).WellFormed := by decide
theorem test_overlap_high_half_refused : ¬ (Instr.mulraw 0 1 2).WellFormed := by decide
theorem test_square_overlap_refused : ¬ (Instr.sqrraw 2 3).WellFormed := by decide
theorem test_truncated_overlap_refused : ¬ (Instr.mullo 1 1 2).WellFormed := by decide
theorem test_well_formed : (Instr.mulraw 4 1 2).WellFormed ∧ (Instr.mredc 0 0).WellFormed := by decide

/-! ### Decoding: every command, from a word written out from R61 and R65 (programs of spec/95 where they use it) -/

theorem test_decode_add : decodeTableWord 32 0x00021310 = some (.add 3 1 2) := by decide
theorem test_decode_adc : decodeTableWord 32 0x000FE011 = some (.adc 0 14 15) := by decide
theorem test_decode_sub : decodeTableWord 32 0x00016512 = some (.sub 5 6 1) := by decide
theorem test_decode_sbb : decodeTableWord 32 0x00021313 = some (.sbb 3 1 2) := by decide
theorem test_decode_cmov : decodeTableWord 32 0x000F8120 = some (.cmov 1 8 15) := by decide
theorem test_decode_caddm : decodeTableWord 32 0x00005521 = some (.caddm 5 5) := by decide
theorem test_decode_csubm : decodeTableWord 32 0x00001F22 = some (.csubm 15 1) := by decide
theorem test_decode_finsub : decodeTableWord 32 0x00009A23 = some (.finsub 10 9) := by decide
theorem test_decode_finsubc : decodeTableWord 32 0x00003324 = some (.finsubc 3 3) := by decide
theorem test_decode_mulraw : decodeTableWord 32 0x00021830 = some (.mulraw 8 1 2) := by decide
theorem test_decode_sqrraw : decodeTableWord 32 0x00002431 = some (.sqrraw 4 2) := by decide
theorem test_decode_mullo : decodeTableWord 32 0x00021332 = some (.mullo 3 1 2) := by decide
theorem test_decode_addmod : decodeTableWord 32 0x00032540 = some (.addmod 5 2 3) := by decide
theorem test_decode_submod : decodeTableWord 32 0x00024741 = some (.submod 7 4 2) := by decide
theorem test_decode_addmodd : decodeTableWord 32 0x00022C42 = some (.addmodd 12 2 2) := by decide
theorem test_decode_submodd : decodeTableWord 32 0x00020443 = some (.submodd 4 0 2) := by decide
theorem test_decode_mredc : decodeTableWord 32 0x00008750 = some (.mredc 7 8) := by decide
theorem test_decode_mmul : decodeTableWord 32 0x00034451 = some (.mmul 4 4 3) := by decide
theorem test_decode_mmulnf : decodeTableWord 32 0x00021352 = some (.mmulnf 3 1 2) := by decide
theorem test_decode_msqr : decodeTableWord 32 0x00001C53 = some (.msqr 12 1) := by decide
theorem test_decode_msqrnf : decodeTableWord 32 0x00001354 = some (.msqrnf 3 1) := by decide
theorem test_decode_setmod : decodeTableWord 32 0x000FE060 = some (.setmod 14 15) := by decide
theorem test_decode_unused_field : decode 0x00010021 = .error .unusedField := by decide
theorem test_decode_setmod_rd : decode 0x00021160 = .error .unusedField := by decide
theorem test_decode_undefined : decode 0x000000FF = .error .undefinedOpcode := by decide
theorem test_decode_reserved : decode 0x00121310 = .error .reservedBits := by decide
theorem test_decode_high_word : decode 0x100021351 = .error .reservedBits := by decide
theorem test_assembly : (Instr.mmul 3 1 2).assembly = "MMUL v3, v1, v2" ∧ (Instr.mredc 3 4).assembly = "MREDC v3, d4" ∧
    (Instr.setmod 1 2).assembly = "SETMOD v1, v2" := by decide

/-! ### States to test on: `W = 32`, `N = 2` -/

/-- The instance of the worked examples. -/
abbrev p : Params := Config.params

/-- A register value given as a number. -/
def vec (x : Nat) : LimbVec p.W p.N := LimbVec.ofNat p.W p.N x

/-- The unit configured with modulus `M` and m0ninv `q`, with `s` spare bits. -/
def withModulus (M q s : Nat) : Mau p :=
  { Mau.reset p with modulus := vec M, m0ninv := BitVec.ofNat _ q, spareBits := BitVec.ofNat _ s, cfgValid := true }

/-- M1 = 2^64 − 59, no spare bit. -/
def m1 : Nat := 0xFFFFFFFFFFFFFFC5
/-- M2 = 2^61 − 1, three spare bits. -/
def m2 : Nat := 0x1FFFFFFFFFFFFFFF
/-- The unit configured with M1. -/
def u1 : Mau p := withModulus m1 0xA08AD8F3 0
/-- The unit configured with M2. -/
def u2 : Mau p := withModulus m2 1 3

/-- A command in flight with its latched values, pairs given as their two halves. -/
def latched (i : Instr) (aHi a bHi b : Nat) (c : Bool) : Latch p := ⟨i, vec a, vec aHi, vec b, vec bHi, c⟩

/-- `u` with command `i` in flight and nothing else to come. -/
def running (u : Mau p) (i : Instr) (a b : Nat) (c : Bool) : Mau p := { u with inFlight := some (latched i 0 a 0 b c) }

/-- `u` with command `i` in flight on pairs. -/
def runningPairs (u : Mau p) (i : Instr) (aHi a bHi b : Nat) : Mau p :=
  { u with inFlight := some (latched i aHi a bHi b false) }

/-- `u` with the host about to write a word to CMD. -/
def writing (u : Mau p) (w : Nat) : Mau p := u.withCmdWrite (BitVec.ofNat _ w)

/-- The value of register `r` and `C` after one step. -/
def result (s : Mau p) (r : RegNum) : Option (Nat × Bool) :=
  match step ⟨p, s⟩ with
  | .next t => some ((t.mau.reg r).val, t.mau.carry)
  | _ => none

/-- The values of the pair `k` after one step, high half first. -/
def resultPair (s : Mau p) (k : RegNum) : Option (Nat × Nat) :=
  match step ⟨p, s⟩ with
  | .next t => some ((t.mau.reg (k + 1)).val, (t.mau.reg k).val)
  | _ => none

/-- `BUSY`, the error code and ERRINFO after one step. -/
def errorAfter (s : Mau p) : Option (Bool × ErrCode × Nat) :=
  match step ⟨p, s⟩ with
  | .next t => some (t.mau.busy, t.mau.err, t.mau.errInfo.toNat)
  | _ => none

/-- The word that a port read returns, as a number. -/
def readOf (s : Mau p) : Option Nat :=
  match step ⟨p, s⟩ with
  | .next t => t.mau.readData.map BitVec.toNat
  | _ => none

/-! ### One step per command (spec/95 section L2) -/

theorem test_add_carries_across_limb : result (running (Mau.reset p) (.add 3 1 2) 0xFFFFFFFF 1 false) 3 = some (0x100000000, false) := by decide
theorem test_add_wraps : result (running (Mau.reset p) (.add 3 1 2) 0xFFFFFFFFFFFFFFFF 0xFFFFFFFFFFFFFFFF true) 3 = some (0xFFFFFFFFFFFFFFFE, true) := by decide
theorem test_adc_maximum : result (running (Mau.reset p) (.adc 3 1 2) 0xFFFFFFFFFFFFFFFF 0xFFFFFFFFFFFFFFFF true) 3 = some (0xFFFFFFFFFFFFFFFF, true) := by decide
theorem test_adc_carry_in : result (running (Mau.reset p) (.adc 3 1 2) 5 7 true) 3 = some (0xD, false) := by decide
theorem test_sub_borrows_across_limb : result (running (Mau.reset p) (.sub 3 1 2) 0x100000000 1 false) 3 = some (0xFFFFFFFF, false) := by decide
theorem test_sub_wraps : result (running (Mau.reset p) (.sub 3 1 2) 0 0xFFFFFFFFFFFFFFFF false) 3 = some (1, true) := by decide
theorem test_sbb_minimum : result (running (Mau.reset p) (.sbb 3 1 2) 0 0xFFFFFFFFFFFFFFFF true) 3 = some (0, true) := by decide
theorem test_sbb_equal : result (running (Mau.reset p) (.sbb 3 1 2) 9 9 true) 3 = some (0xFFFFFFFFFFFFFFFF, true) := by decide
theorem test_cmov_flag_set : result (running (Mau.reset p) (.cmov 3 1 2) 1 2 true) 3 = some (2, false) := by decide
theorem test_cmov_flag_clear : result (running (Mau.reset p) (.cmov 3 1 2) 1 2 false) 3 = some (1, false) := by decide
theorem test_caddm_wraps : result (running u1 (.caddm 3 1) 0x3B 0 true) 3 = some (0, true) := by decide
theorem test_caddm_flag_clear : result (running u1 (.caddm 3 1) 0x40 0 false) 3 = some (0x40, false) := by decide
theorem test_csubm_borrows : result (running u1 (.csubm 3 1) 0xFFFFFFFFFFFFFFC4 0 true) 3 = some (0xFFFFFFFFFFFFFFFF, true) := by decide
theorem test_csubm_equal : result (running u1 (.csubm 3 1) 0xFFFFFFFFFFFFFFC5 0 true) 3 = some (0, false) := by decide
theorem test_finsub_top : result (running u1 (.finsub 3 1) 0xFFFFFFFFFFFFFFFF 0 false) 3 = some (0x3A, false) := by decide
theorem test_finsub_once_only : result (running u2 (.finsub 3 1) 0x3FFFFFFFFFFFFFFE 0 false) 3 = some (0x1FFFFFFFFFFFFFFF, false) := by decide
theorem test_finsubc_overflow : result (running u1 (.finsubc 3 1) 0xFFFFFFFFFFFFFF89 0 true) 3 = some (0xFFFFFFFFFFFFFFC4, false) := by decide
theorem test_finsubc_no_overflow : result (running u1 (.finsubc 3 1) 0xFFFFFFFFFFFFFFC5 0 false) 3 = some (0, false) := by decide
theorem test_mulraw_maximum : resultPair (running (Mau.reset p) (.mulraw 4 1 2) 0xFFFFFFFFFFFFFFFF 0xFFFFFFFFFFFFFFFF false) 4 = some (0xFFFFFFFFFFFFFFFE, 1) := by decide
theorem test_sqrraw : resultPair (running (Mau.reset p) (.sqrraw 4 1) 0x123456789ABCDEF0 0 false) 4 =
    some (0x014B66DC33F6ACDC, 0xA5E20890F2A52100) := by decide
theorem test_mullo_truncates : result (running (Mau.reset p) (.mullo 3 1 2) 0xFFFFFFFFFFFFFFFF 3 false) 3 = some (0xFFFFFFFFFFFFFFFD, false) := by decide
theorem test_mullo_exactly_radix : result (running (Mau.reset p) (.mullo 3 1 2) 0x100000000 0x100000000 false) 3 = some (0, false) := by decide
theorem test_addmod_over_radix : result (running u1 (.addmod 3 1 2) 0xFFFFFFFFFFFFFFC4 0xFFFFFFFFFFFFFFC4 false) 3 = some (0xFFFFFFFFFFFFFFC3, false) := by decide
theorem test_addmod_to_zero : result (running u2 (.addmod 3 1 2) 0x1FFFFFFFFFFFFFFE 1 false) 3 = some (0, false) := by decide
theorem test_submod_negative : result (running u1 (.submod 3 1 2) 0 1 false) 3 = some (0xFFFFFFFFFFFFFFC4, false) := by decide
theorem test_submod_from_zero : result (running u1 (.submod 3 1 2) 0 0xFFFFFFFFFFFFFFC4 false) 3 = some (1, false) := by decide
theorem test_addmodd_top : resultPair (runningPairs u1 (.addmodd 4 0 2) 0xFFFFFFFFFFFFFFC4 0xFFFFFFFFFFFFFFFF 0xFFFFFFFFFFFFFFC4 0xFFFFFFFFFFFFFFFF) 4 =
    some (0xFFFFFFFFFFFFFFC4, 0xFFFFFFFFFFFFFFFE) := by decide
theorem test_submodd_negative : resultPair (runningPairs u1 (.submodd 4 0 2) 0 0 0 1) 4 = some (0xFFFFFFFFFFFFFFC4, 0xFFFFFFFFFFFFFFFF) := by decide
theorem test_mredc_inverse_of_radix : result (runningPairs u1 (.mredc 3 0) 0 1 0 0) 3 = some (0xCBEEA4E1A08AD8C4, false) := by decide
theorem test_mredc_top_of_domain : result (runningPairs u1 (.mredc 3 0) 0xFFFFFFFFFFFFFFC4 0xFFFFFFFFFFFFFFFF 0 0) 3 = some (0x34115B1E5F752701, false) := by decide
theorem test_mmul_product : result (running u1 (.mmul 3 1 2) 2 3 false) 3 = some (0xC797DD49C3411584, false) := by decide
theorem test_mmul_lazy_operands : result (running u2 (.mmul 3 1 2) 0x3FFFFFFFFFFFFFFD 0x3FFFFFFFFFFFFFFD false) 3 = some (0x0400000000000000, false) := by decide
theorem test_mmulnf_keeps_candidate : result (running u2 (.mmulnf 3 1 2) 0x1FFFFFFFFFFFFFF7 0x1FFFFFFFFFFFFFFE false) 3 = some (0x2000000000000000, false) := by decide
theorem test_mmulnf_no_spare_bit : result (running u1 (.mmulnf 3 1 2) 0xFFFFFFFFFFFFFFC4 0xFFFFFFFFFFFFFFC4 false) 3 = some (0xCBEEA4E1A08AD8C4, false) := by decide
theorem test_msqr : result (running u1 (.msqr 3 1) 0xFFFFFFFFFFFFFFC4 0 false) 3 = some (0xCBEEA4E1A08AD8C4, false) := by decide
theorem test_msqrnf_lazy_square : result (running u2 (.msqrnf 3 1) 0x3FFFFFFFFFFFFFFD 0 false) 3 = some (0x23FFFFFFFFFFFFFF, false) := by decide

/-- The configuration after one step: the modulus, M0NINV, SPAREBITS, CFG_VALID. -/
def configAfter (s : Mau p) : Option (Nat × Nat × Nat × Bool) :=
  match step ⟨p, s⟩ with
  | .next t => some (t.mau.M, t.mau.m0ninv.toNat, t.mau.spareBits.toNat, t.mau.cfgValid)
  | _ => none

theorem test_setmod_m2 : configAfter (running (Mau.reset p) (.setmod 0 1) m2 1 false) = some (m2, 1, 3, true) := by decide
theorem test_setmod_one : configAfter (running (Mau.reset p) (.setmod 1 2) 1 0xFFFFFFFF false) =
    some (1, 0xFFFFFFFF, 63, true) := by decide

/-! ### Issue errors (spec/95 section L2.7), one step from reset -/

theorem test_issue_opc_zero : errorAfter (writing (Mau.reset p) 0x00000000) = some (false, .eill, 0) := by decide
theorem test_issue_unused_before_enocfg : errorAfter (writing (Mau.reset p) 0x00010021) = some (false, .eill, 0x00010021) := by decide
theorem test_issue_epair : errorAfter (writing (Mau.reset p) 0x00021330) = some (false, .epair, 0x00021330) := by decide
theorem test_issue_epair_before_enocfg : errorAfter (writing (Mau.reset p) 0x00032042) = some (false, .epair, 0x00032042) := by decide
theorem test_issue_epair_before_ealias : errorAfter (writing (Mau.reset p) 0x00033330) = some (false, .epair, 0x00033330) := by decide
theorem test_issue_ealias_high_half : errorAfter (writing (Mau.reset p) 0x00021030) = some (false, .ealias, 0x00021030) := by decide
theorem test_issue_ealias_mullo : errorAfter (writing (Mau.reset p) 0x00021132) = some (false, .ealias, 0x00021132) := by decide
theorem test_issue_enocfg : errorAfter (writing (Mau.reset p) 0x00021351) = some (false, .enocfg, 0x00021351) := by decide
theorem test_issue_ecfg : errorAfter (writing (Mau.reset p) 0x00021060) = some (false, .ecfg, 0x00021060) := by decide
theorem test_issue_add_issues : errorAfter (writing (Mau.reset p) 0x00021310) = some (true, .noError, 0) := by decide
theorem test_issue_busy : errorAfter (writing (running u1 (.add 3 1 2) 1 2 false) 0) = some (true, .ebusy, 0) := by decide
theorem test_first_error_wins : errorAfter (writing { Mau.reset p with err := .eill } 0x00021330) =
    some (false, .eill, 0) := by decide

/-! ### The port -/

/-- `u1` with register 5 holding a value, about to do one port read. -/
def reading (a : Nat) : Mau p := { u1.setReg 5 (vec 0x650B76B7E0002926) with script := [.read (BitVec.ofNat 16 a)] }

theorem test_read_id : readOf (reading 0x0000) = some 0x01102002 := by decide
theorem test_read_status : readOf (reading 0x0001) = some 0x04 := by decide
theorem test_read_register_limbs : readOf (reading 0x0540) = some 0xE0002926 ∧ readOf (reading 0x0541) = some 0x650B76B7 := by
  decide
theorem test_read_modulus_high_limb : readOf (reading 0x0101) = some 0xFFFFFFFF := by decide
theorem test_read_reserved_limb : readOf (reading 0x0542) = some 0 ∧ readOf (reading 0x0102) = some 0 := by decide
theorem test_read_m0ninv : readOf (reading 0x0006) = some 0xA08AD8F3 := by decide

/-- Reset abandons the command in flight (program P6). -/
theorem test_reset_abandons : step ⟨p, { running u1 (.mmul 3 1 2) 2 3 false with script := [.reset] }⟩ matches .next _ ∧
    errorAfter { running u1 (.mmul 3 1 2) 2 3 false with script := [.reset] } = some (false, .noError, 0) := by decide

/-! ### Witnesses: for each statement with hypotheses, a state and operands that meet them all, clause by clause -/

/-- Command word `w` as a word of the instance. -/
abbrev word (w : Nat) : BitVec p.W := BitVec.ofNat p.W w

/-- `u` with one port write to come. -/
def storing (u : Mau p) (a : BitVec 16) (w : Nat) : Mau p := { u with script := [.write a (word w)] }

/-- `u` with the Unit's turn to come. -/
def unitTurn (u : Mau p) : Mau p := { u with script := [.unit] }

/-- A command in flight: ADD, on the reset registers. -/
def busyAdd : Mau p := running (Mau.reset p) (.add 3 1 2) 1 2 false

theorem witness_EncodeReturnsDecodedWord : decode 0x00021351 = .ok (.mmul 3 1 2) := by decide

theorem witness_DecoderFollowsOpcodeTable : (0x60, 0xFFF00FFF) ∈ opcodeRows ∧
    (∃ i, decode 0x000FE060 = .ok i ∧ i.opcode.setWidth 32 = (0x60 : BitVec 32)) ∧
    (0x00021160 : BitVec 64) &&& (BitVec.allOnes 32 ++ 0xFFF00FFF#32) ≠ (0x60#32).setWidth 64 :=
  ⟨by decide, ⟨.setmod 14 15, by decide, by decide⟩, by decide⟩

/-- Each way of being illegal, at the boundary, and a legal word. -/
theorem witness_IllegalWordsRaiseEill :
    (writing (Mau.reset p) 0x00100010).cmdWrite = some (word 0x00100010) ∧
    (writing (Mau.reset p) 0x00100010).inFlight = none ∧
    IllegalWord 0x00100010 ∧ IllegalWord 0x00000014 ∧ IllegalWord 0x00010021 ∧ IllegalWord 0x00000160 ∧
    ¬ IllegalWord 0x000FFF10 := by
  refine ⟨by decide, by decide, ?_, ?_, ?_, ?_, ?_⟩ <;> unfold IllegalWord <;> decide

theorem witness_StepRunsDecodedCommand :
    (writing (Mau.reset p) 0x00021310).cmdWrite = some (word 0x00021310) ∧
    decode ((word 0x00021310).setWidth 64) = .ok (.add 3 1 2) ∧
    (unitTurn busyAdd).completing = some (latched (.add 3 1 2) 0 1 0 2 false) ∧
    busyAdd.completing = some (latched (.add 3 1 2) 0 1 0 2 false) := by decide

/-- Busy and idle writes of legal and illegal words; odd pair; overlap; not configured; bad and good SETMOD; issued. -/
theorem witness_CmdWriteChecksInOrder :
    (writing busyAdd 0).cmdWrite = some (word 0) ∧ (writing busyAdd 0).inFlight ≠ none ∧
    (writing (Mau.reset p) 0).inFlight = none ∧ IllegalWord (word 0).toNat ∧
    decode ((word 0x00033330).setWidth 64) = .ok (.mulraw 3 3 3) ∧ (Instr.mulraw 3 3 3).pairsEven = false ∧
    decode ((word 0x00021030).setWidth 64) = .ok (.mulraw 0 1 2) ∧ (Instr.mulraw 0 1 2).pairsEven = true ∧
    (Instr.mulraw 0 1 2).noOverlap = false ∧
    decode ((word 0x00021351).setWidth 64) = .ok (.mmul 3 1 2) ∧ (Instr.mmul 3 1 2).WellFormed ∧
    readsMod (.mmul 3 1 2) = true ∧ (Mau.reset p).cfgValid = false ∧ u1.cfgValid = true ∧
    decode ((word 0x00021060).setWidth 64) = .ok (.setmod 1 2) ∧
    ¬ (((Mau.reset p).reg 1).limb 0).toNat % 2 = 1 ∧
    ((((Mau.reset p).setReg 1 (vec m1)).reg 1).limb 0).toNat % 2 = 1 ∧
    ((((Mau.reset p).setReg 1 (vec m1)).reg 1).limb 0).toNat *
      ((((Mau.reset p).setReg 2 (vec 0xA08AD8F3)).reg 2).limb 0).toNat % 2 ^ p.W = 2 ^ p.W - 1 := by
  refine ⟨by decide, by decide, by decide, ?_, by decide, by decide, by decide, by decide, by decide, by decide,
    by decide, by decide, by decide, by decide, by decide, by decide, by decide, by decide⟩
  unfold IllegalWord
  decide

/-- A write of the last limb of the last register while `BUSY = 1`, and an event that raises no error. -/
theorem witness_CmdWriteChecksInOrder_other :
    (storing busyAdd (regAddress 15 1) 7).script = .write (regAddress 15 1) (word 7) :: [] ∧ 1 < p.N ∧
    (storing busyAdd (regAddress 15 1) 7).inFlight ≠ none ∧
    (∃ t : Mau p, step ⟨p, unitTurn busyAdd⟩ = .next ⟨p, t⟩) ∧ (unitTurn busyAdd).cmdWrite = none :=
  ⟨rfl, by decide, by decide, ⟨_, rfl⟩, rfl⟩

/-- A command with register sources and one with pair sources are issued. -/
theorem witness_IssueLatchesOperands :
    (∃ t : Mau p, step ⟨p, writing (Mau.reset p) 0x00021310⟩ = .next ⟨p, t⟩ ∧ t.inFlight ≠ none) ∧
    decode ((word 0x00021310).setWidth 64) = .ok (.add 3 1 2) ∧
    (∃ t : Mau p, step ⟨p, writing u1 0x00022C42⟩ = .next ⟨p, t⟩ ∧ t.inFlight ≠ none) ∧
    decode ((word 0x00022C42).setWidth 64) = .ok (.addmodd 12 2 2) :=
  ⟨⟨_, rfl, by decide⟩, by decide, ⟨_, rfl, by decide⟩, by decide⟩

/-- A step with an error recorded, and the reads on both sides of the exception: ERRINFO, and `M0NINV`, which returns the same word. -/
theorem witness_ErrorsDoNotBlock :
    (∃ t : Mau p, step ⟨p, { writing (Mau.reset p) 0x00021310 with err := .eill }⟩ = .next ⟨p, t⟩) ∧
    (∃ t : Mau p, step ⟨p, reading 0x0006⟩ = .next ⟨p, t⟩) ∧
    (∀ rest, (reading 0x0006).script ≠ .read 0x0001 :: rest ∧ (reading 0x0006).script ≠ .read 0x0004 :: rest) ∧
    (reading 0x0004).script = .read 0x0004 :: [] :=
  ⟨⟨_, rfl⟩, ⟨_, rfl⟩, fun _ => ⟨fun h => absurd (List.cons.inj h).1 (by decide), fun h => absurd (List.cons.inj h).1 (by decide)⟩, rfl⟩

/-- States with different registers: a command that is refused in both, and a SETMOD with the same low limbs. -/
theorem witness_RefusalReadsNoOperands :
    (writing (Mau.reset p) 0x00021351).cmdWrite = some (word 0x00021351) ∧
    (writing ((Mau.reset p).setReg 1 (vec 9)) 0x00021351).cmdWrite = some (word 0x00021351) ∧
    (writing (Mau.reset p) 0x00021351).inFlight.isSome =
      (writing ((Mau.reset p).setReg 1 (vec 9)) 0x00021351).inFlight.isSome ∧
    decode ((word 0x00021060).setWidth 64) = .ok (.setmod 1 2) ∧
    ((Mau.reset p).reg 1).limb 0 = (((Mau.reset p).setReg 1 (vec 0x100000000)).reg 1).limb 0 := by decide

theorem witness_UnconfiguredCommandsRefused :
    (writing (Mau.reset p) 0x00021351).cmdWrite = some (word 0x00021351) ∧
    decode ((word 0x00021351).setWidth 64) = .ok (.mmul 3 1 2) ∧ (Instr.mmul 3 1 2).WellFormed ∧
    (writing (Mau.reset p) 0x00021351).inFlight = none ∧ (Instr.mmul 3 1 2).mnemonic = "MMUL" ∧
    (writing (Mau.reset p) 0x00021351).cfgValid = false ∧ (writing u1 0x00021351).cfgValid = true ∧
    decode ((word 0x00021060).setWidth 64) = .ok (.setmod 1 2) ∧ (Instr.setmod 1 2).WellFormed := by decide

/-- A clearing write, a write that clears nothing, and the two steps that clear the record. -/
theorem witness_ErrclrClearsErrors :
    (storing (Mau.reset p) 0x0003 1).script = .write 0x0003 (word 1) :: [] ∧ (word 1).getLsbD 0 = true ∧
    (word 2).getLsbD 0 = false ∧
    (∃ t : Mau p, step ⟨p, storing { Mau.reset p with err := .eill } 0x0003 1⟩ = .next ⟨p, t⟩ ∧ t.err = .noError) ∧
    (∃ t : Mau p, step ⟨p, { Mau.reset p with err := .eill, script := [.reset] }⟩ = .next ⟨p, t⟩ ∧ t.err = .noError) :=
  ⟨rfl, by decide, by decide, ⟨_, rfl, by decide⟩, ⟨_, rfl, by decide⟩⟩

/-- The first and last reserved addresses of each range, and the edges of the read-only ones. -/
theorem witness_ReservedAndReadOnlyAddresses :
    (∀ a ∈ [0x0007, 0x00FF, 0x0102, 0x013F, 0x0140, 0x03FF, 0x0402, 0x043F, 0x07FF, 0x0800, 0xFFFF], ReservedAddress p.N a) ∧
    (∀ a ∈ [0x0000, 0x0006, 0x0100, 0x0101, 0x0400, 0x0401, 0x07C1], ¬ ReservedAddress p.N a) := by
  unfold ReservedAddress
  decide

theorem witness_IdleReadsAreExact :
    (reading 0x07C1).inFlight = none ∧ (reading 0x07C1).script = .read 0x07C1 :: [] ∧
    (0x07C1 : BitVec 16) = regAddress 15 1 ∧ (0x0101 : BitVec 16) = BitVec.ofNat 16 (0x0100 + 1) ∧ 1 < p.N := by decide

theorem witness_BusyReadsHaveNoSideEffect :
    ({ busyAdd with script := [.read 0x0004] } : Mau p).inFlight ≠ none ∧
    ({ busyAdd with script := [.read 0x0000] } : Mau p).script = .read 0x0000 :: [] ∧
    ({ busyAdd with script := [.read 0x07C1] } : Mau p).inFlight ≠ none ∧ (0x07C1 : BitVec 16) = regAddress 15 1 := by decide

theorem witness_IdentificationWord :
    (reading 0x0000).script = .read 0x0000 :: [] ∧
    (storing u1 0x0000 5).script = .write 0x0000 (word 5) :: [] := by decide

theorem witness_StatusFields :
    (reading 0x0001).script = .read 0x0001 :: [] ∧ (reading 0x0001).inFlight = none ∧
    ({ busyAdd with script := [.read 0x0001] } : Mau p).inFlight ≠ none ∧
    (storing u1 0x0001 5).script = .write 0x0001 (word 5) :: [] := by decide

theorem witness_OperandWriteThenRead :
    ({ u1 with script := [.write (regAddress 0 0) (word 9), .read (regAddress 0 0)] } : Mau p).inFlight = none ∧
    ({ u1 with script := [.write (regAddress 15 1) (word 9), .read (regAddress 15 1)] } : Mau p).script =
      .write (regAddress 15 1) (word 9) :: .read (regAddress 15 1) :: [] ∧ 0 < p.N ∧ 1 < p.N ∧
    (storing u1 (regAddress 15 1) 9).script = .write (regAddress 15 1) (word 9) :: [] ∧
    (storing u1 (regAddress 15 1) 9).inFlight = none := by decide

theorem witness_ResetFromAnyState :
    ({ running u1 (.mmul 3 1 2) 2 3 true with script := [.reset] } : Mau p).script = .reset :: [] := rfl

/-- A command's word is being written to CMD. -/
def issues (u : Mau p) (w : Nat) (i : Instr) : Prop :=
  (writing u w).cmdWrite = some (word w) ∧ decode ((word w).setWidth 64) = .ok i

/-- A command is in flight and the Unit moves next. -/
def completes (u : Mau p) (i : Instr) (a b : Nat) (c : Bool) : Prop :=
  (running u i a b c).completing = some (latched i 0 a 0 b c)

theorem witness_AddAdcRule :
    issues (Mau.reset p) 0x00021310 (.add 3 1 2) ∧ issues busyAdd 0x00021311 (.adc 3 1 2) ∧
    completes (Mau.reset p) (.add 3 1 2) 0x8000000000000000 0x8000000000000000 true ∧
    completes (Mau.reset p) (.adc 1 1 1) 0xFFFFFFFFFFFFFFFF 0 true := by unfold issues completes; decide

theorem witness_SubSbbRule :
    issues (Mau.reset p) 0x00021312 (.sub 3 1 2) ∧ issues busyAdd 0x00021313 (.sbb 3 1 2) ∧
    completes (Mau.reset p) (.sub 3 3 3) 7 7 true ∧ completes (Mau.reset p) (.sbb 3 1 2) 9 9 true := by
  unfold issues completes; decide

theorem witness_CmovRule :
    issues (Mau.reset p) 0x00021320 (.cmov 3 1 2) ∧ completes (Mau.reset p) (.cmov 3 1 2) 1 2 true ∧
    completes (Mau.reset p) (.cmov 3 1 2) 1 2 false := by unfold issues completes; decide

theorem witness_CaddmCsubmRule :
    issues u1 0x00001321 (.caddm 3 1) ∧ issues (Mau.reset p) 0x00001322 (.csubm 3 1) ∧
    completes u1 (.caddm 3 1) 0x3B 0 true ∧ completes u1 (.csubm 3 1) m1 0 true := by unfold issues completes; decide

theorem witness_FinsubRule :
    issues u1 0x00001323 (.finsub 3 1) ∧ completes u1 (.finsub 3 1) m1 0 false ∧ m1 < 2 * u1.M ∧
    completes u1 (.finsub 3 1) (m1 - 1) 0 false := by unfold issues completes; decide

theorem witness_FinsubcRule :
    issues u1 0x00001324 (.finsubc 3 1) ∧ completes u1 (.finsubc 3 1) 0xFFFFFFFFFFFFFF89 0 true ∧
    true.toNat * p.radix + 0xFFFFFFFFFFFFFF89 < 2 * u1.M ∧ completes u1 (.finsubc 3 1) 0xFFFFFFFFFFFFFF8A 0 true ∧
    ¬ true.toNat * p.radix + 0xFFFFFFFFFFFFFF8A < 2 * u1.M := by unfold issues completes; decide

theorem witness_MulrawSqrrawRule :
    issues (Mau.reset p) 0x00021430 (.mulraw 4 1 2) ∧ issues (Mau.reset p) 0x00021330 (.mulraw 3 1 2) ∧
    issues (Mau.reset p) 0x00021030 (.mulraw 0 1 2) ∧ issues (Mau.reset p) 0x00001431 (.sqrraw 4 1) ∧
    completes (Mau.reset p) (.mulraw 4 1 2) 0xFFFFFFFFFFFFFFFF 0xFFFFFFFFFFFFFFFF false ∧
    completes (Mau.reset p) (.sqrraw 14 1) 0xFFFFFFFFFFFFFFFF 0 false := by unfold issues completes; decide

theorem witness_MulloRule :
    issues (Mau.reset p) 0x00021332 (.mullo 3 1 2) ∧ issues (Mau.reset p) 0x00021132 (.mullo 1 1 2) ∧
    completes (Mau.reset p) (.mullo 3 1 2) 0x100000000 0x100000000 false := by unfold issues completes; decide

theorem witness_AddmodSubmodRule :
    issues u1 0x00021340 (.addmod 3 1 2) ∧ issues u1 0x00021341 (.submod 3 1 2) ∧
    completes u1 (.addmod 3 1 2) (m1 - 1) (m1 - 1) false ∧ completes u1 (.submod 3 1 2) 0 (m1 - 1) false ∧
    (vec (m1 - 1)).val < u1.M := by unfold issues completes; decide

theorem witness_AddmoddSubmoddRule :
    issues u1 0x00020442 (.addmodd 4 0 2) ∧ issues u1 0x00032043 (.submodd 0 2 3) ∧
    (runningPairs u1 (.addmodd 4 0 2) (m1 - 1) 0xFFFFFFFFFFFFFFFF 0 1).completing =
      some (latched (.addmodd 4 0 2) (m1 - 1) 0xFFFFFFFFFFFFFFFF 0 1 false) ∧
    (runningPairs u1 (.submodd 4 0 2) 0 0 0 1).completing = some (latched (.submodd 4 0 2) 0 0 0 1 false) ∧
    (latched (.addmodd 4 0 2) (m1 - 1) 0xFFFFFFFFFFFFFFFF 0 1 false).aPair.val < u1.M * p.radix ∧
    (latched (.addmodd 4 0 2) (m1 - 1) 0xFFFFFFFFFFFFFFFF 0 1 false).bPair.val < u1.M * p.radix := by
  unfold issues; decide

theorem configured_u1 : Configured u1 := by unfold Configured Mau.ConfigInv; decide
theorem configured_u2 : Configured u2 := by unfold Configured Mau.ConfigInv; decide

/-- The top of the domain, on the modulus without a spare bit. -/
theorem witness_MredcRule :
    issues u1 0x00000350 (.mredc 3 0) ∧ issues u1 0x00005350 (.mredc 3 5) ∧
    (runningPairs u1 (.mredc 3 0) (m1 - 1) 0xFFFFFFFFFFFFFFFF 0 0).completing =
      some (latched (.mredc 3 0) (m1 - 1) 0xFFFFFFFFFFFFFFFF 0 0 false) ∧
    (latched (.mredc 3 0) (m1 - 1) 0xFFFFFFFFFFFFFFFF 0 0 false).aPair.val < u1.M * p.radix ∧
    Configured (runningPairs u1 (.mredc 3 0) (m1 - 1) 0xFFFFFFFFFFFFFFFF 0 0) := by
  unfold issues; exact ⟨by decide, by decide, by decide, by decide, configured_u1⟩

/-- Operands just below `M` on M1, and just below `2M` on M2. -/
theorem witness_MmulMsqrRule :
    issues u1 0x00021351 (.mmul 3 1 2) ∧ issues (Mau.reset p) 0x00001353 (.msqr 3 1) ∧
    completes u1 (.mmul 3 1 2) (m1 - 1) (m1 - 1) false ∧ InMulDomain u1 (vec (m1 - 1)).val (vec (m1 - 1)).val ∧
    completes u2 (.msqr 3 1) (2 * m2 - 1) 0 false ∧ InMulDomain u2 (vec (2 * m2 - 1)).val (vec (2 * m2 - 1)).val := by
  unfold issues completes InMulDomain; decide

theorem witness_MmulnfMsqrnfRule :
    issues u1 0x00021352 (.mmulnf 3 1 2) ∧ issues (Mau.reset p) 0x00001354 (.msqrnf 3 1) ∧
    completes u1 (.mmulnf 3 1 2) (m1 - 1) (m1 - 1) false ∧ u1.spareBits.toNat = 0 ∧
    completes u2 (.msqrnf 3 1) (2 * m2 - 1) 0 false ∧ 1 ≤ u2.spareBits.toNat ∧
    InMulDomain u2 (vec (2 * m2 - 1)).val (vec (2 * m2 - 1)).val := by
  unfold issues completes InMulDomain; decide

theorem witness_SetmodRule :
    issues (Mau.reset p) 0x00021060 (.setmod 1 2) ∧ completes (Mau.reset p) (.setmod 0 1) m2 1 false := by
  unfold issues completes; decide

theorem witness_PseudoInstructions :
    completes (Mau.reset p) (pseudoMov 3 1) 5 5 true ∧ completes (Mau.reset p) (pseudoZero 3) 5 5 true ∧
    completes u1 (pseudoMdbl 3 1) (m1 - 1) (m1 - 1) false ∧ (vec (m1 - 1)).val < u1.M := by unfold completes; decide

/-- Each domain, just outside it. -/
theorem witness_OutOfDomainDraws :
    completes u1 (.addmod 3 1 2) m1 0 false ∧ OutOfDomain u1 (latched (.addmod 3 1 2) 0 m1 0 0 false) ∧
    OutOfDomain u1 (latched (.submodd 4 0 2) 0 0 m1 0 false) ∧ OutOfDomain u1 (latched (.mredc 3 0) m1 0 0 0 false) ∧
    OutOfDomain u1 (latched (.mmul 3 1 2) 0 m1 0 0 false) ∧ OutOfDomain u2 (latched (.msqrnf 3 1) 0 (2 * m2) 0 0 false) := by
  refine ⟨by unfold completes; decide, ?_, ?_, ?_, ?_, ?_⟩
  · show ¬ ((vec m1).val < u1.M ∧ (vec 0).val < u1.M)
    decide
  · show ¬ (((vec 0).join (vec 0)).val < u1.M * p.radix ∧ ((vec 0).join (vec m1)).val < u1.M * p.radix)
    decide
  · show ¬ ((vec 0).join (vec m1)).val < u1.M * p.radix
    decide
  · show ¬ InMulDomain u1 (vec m1).val (vec 0).val
    unfold InMulDomain
    decide
  · show ¬ InMulDomain u2 (vec (2 * m2)).val (vec (2 * m2)).val
    unfold InMulDomain
    decide

theorem witness_NoSpareBitMeansFullyReduced :
    u1.script = [] ∧ (unitTurn u1).script = .unit :: [] ∧ u1.spareBits.toNat = 0 := by decide

theorem witness_CandidateAndItsBound :
    m1 % 2 = 1 ∧ m1 < p.radix ∧ m1 * p.radix - 1 < m1 * p.radix ∧ 2 * m2 ≤ p.radix := by decide

theorem witness_MontgomeryEquivalences :
    m2 % 2 = 1 ∧ m2 < p.radix ∧ m2 - 1 < m2 ∧ 0 < m2 - 1 ∧ 2 * m2 ≤ p.radix ∧ m2 * p.radix - 1 < m2 * p.radix := by
  decide

theorem witness_ModularDatapathsAgree :
    (vec (m1 - 1)).val < (vec m1).val ∧ (vec (m2 - 1)).val < (vec m2).val ∧ 2 * (vec m2).val ≤ 2 ^ (p.N * p.W) := by decide

theorem witness_SeparatedCiosReduces :
    (vec m1).val % 2 = 1 ∧ ((vec m1).limb 0).toNat * (word 0xA08AD8F3).toNat % 2 ^ p.W = 2 ^ p.W - 1 ∧
    ((vec 0xFFFFFFFFFFFFFFFF).join (vec (m1 - 1))).val < (vec m1).val * p.radix := by decide

theorem witness_InterleavedCiosMultiplies :
    (vec m1).val % 2 = 1 ∧ ((vec m1).limb 0).toNat * (word 0xA08AD8F3).toNat % 2 ^ p.W = 2 ^ p.W - 1 ∧
    (vec (m1 - 1)).val < (vec m1).val ∧ (vec m2).val % 2 = 1 ∧
    ((vec m2).limb 0).toNat * (word 1).toNat % 2 ^ p.W = 2 ^ p.W - 1 ∧ 4 * (vec m2).val ≤ p.radix ∧
    (vec (2 * m2 - 1)).val < 2 * (vec m2).val := by decide

/-- A configured unit with a command in flight meets the invariant and steps. -/
theorem witness_StepKeepsInvariant :
    (running u1 (.mmul 3 1 2) 2 3 false).Inv ∧
    ∃ t : State, step ⟨p, running u1 (.mmul 3 1 2) 2 3 false⟩ = .next t := by
  refine ⟨⟨configured_u1.2, ?_, ?_⟩, ⟨_, rfl⟩⟩
  · intro l h
    have e : l = latched (.mmul 3 1 2) 0 2 0 3 false := (Option.some.inj h).symm
    subst e
    exact ⟨by decide, fun _ => by decide, fun ra rb h => nomatch h⟩
  · intro _
    decide

theorem witness_OnlySetmodWritesConfiguration :
    (∃ t : Mau p, step ⟨p, running u1 (.setmod 0 1) m2 1 false⟩ = .next ⟨p, t⟩ ∧ t.m0ninv ≠ u1.m0ninv) ∧
    u1.cfgValid = true := ⟨⟨_, rfl, by decide⟩, by decide⟩

theorem witness_OnlyListedCommandsWriteCarry :
    (∃ t : Mau p, step ⟨p, running (Mau.reset p) (.sub 3 1 2) 0 1 false⟩ = .next ⟨p, t⟩ ∧ t.carry ≠ (Mau.reset p).carry) ∧
    ∃ t : Mau p, step ⟨p, { Mau.reset p with carry := true, script := [.reset] }⟩ = .next ⟨p, t⟩ ∧ t.carry ≠ true :=
  ⟨⟨_, rfl, by decide⟩, ⟨_, rfl, by decide⟩⟩

theorem witness_RegistersChangeOnlyAsWritten :
    (∃ t : Mau p, step ⟨p, running (Mau.reset p) (.add 3 1 2) 1 1 false⟩ = .next ⟨p, t⟩ ∧ t.reg 3 ≠ (Mau.reset p).reg 3) ∧
    ∃ t : Mau p, step ⟨p, storing (Mau.reset p) (regAddress 15 1) 7⟩ = .next ⟨p, t⟩ ∧ t.reg 15 ≠ (Mau.reset p).reg 15 :=
  ⟨⟨_, rfl, by decide⟩, ⟨_, rfl, by decide⟩⟩

/-- An issue, a completion, a step while busy, and an ended run. -/
theorem witness_BusyFollowsIssueAndCompletion :
    (∃ t : Mau p, step ⟨p, writing (Mau.reset p) 0x00021310⟩ = .next ⟨p, t⟩ ∧ t.inFlight ≠ none) ∧
    (∃ t : Mau p, step ⟨p, busyAdd⟩ = .next ⟨p, t⟩ ∧ t.inFlight = none) ∧
    (∃ t : Mau p, step ⟨p, writing busyAdd 0⟩ = .next ⟨p, t⟩ ∧ t.inFlight ≠ none) ∧ (Mau.reset p).Ended :=
  ⟨⟨_, rfl, by decide⟩, ⟨_, rfl, by decide⟩, ⟨_, rfl, by decide⟩, ⟨rfl, rfl⟩⟩

theorem witness_CommandEndsWithinBound : (writing busyAdd 0x00021310).inFlight ≠ none := by decide

/-- The configured unit with two operands, about to multiply them. -/
def aboutToMultiply : Mau p :=
  { (u1.setReg 1 (vec 2)).setReg 2 (vec 3) with script := [.write cmdAddr (word 0x00021351), .unit] }

theorem aboutToMultiply_inv : aboutToMultiply.Inv where
  config := configured_u1.2
  latch := fun _ h => nomatch h
  error := fun _ => rfl

theorem witness_MmulFromPortToResult :
    aboutToMultiply.Inv ∧ aboutToMultiply.cfgValid = true ∧ aboutToMultiply.inFlight = none ∧
    (word 0x00021351).setWidth 64 = (encode (.mmul 3 1 2)).setWidth 64 ∧
    aboutToMultiply.script = .write cmdAddr (word 0x00021351) :: .unit :: [] ∧
    (aboutToMultiply.reg 1).val < aboutToMultiply.M ∧ (aboutToMultiply.reg 2).val < aboutToMultiply.M :=
  ⟨aboutToMultiply_inv, by decide, by decide, by decide, by decide, by decide, by decide⟩

end Sys2Proof.Tests
end

section
/-!
Limb vectors and word primitives (00_scope.md R3 to R10): what each primitive computes, as an equation over the numbers without a
remainder, the value of the two chains made of them, and the obligations of that section.
-/

namespace Sys2Proof

/-! ### The value of a limb vector (R3) -/

/-- The recursive value of a list of limbs, unrolled to the weighted sum. -/
theorem limbsVal_eq_sum {W : Nat} (xs : List (BitVec W)) :
    limbsVal xs = ∑ j ∈ Finset.range xs.length, (xs.getD j 0#W).toNat * 2 ^ (j * W) := by
  induction xs with
  | nil => rfl
  | cons x xs ih =>
    have shift : ∀ j, (xs.getD j 0#W).toNat * 2 ^ ((j + 1) * W) = 2 ^ W * ((xs.getD j 0#W).toNat * 2 ^ (j * W)) := by
      intro j
      rw [Nat.succ_mul, Nat.pow_add]
      ring
    rw [List.length_cons, Finset.sum_range_succ']
    simp only [List.getD_cons_succ, List.getD_cons_zero, shift, ← Finset.mul_sum, ← ih, limbsVal]
    simp [Nat.add_comm]

/-- Settles O6: the value unrolls to the weighted sum, and the laws of limb vectors give the bound and the value of `limbs_k`. -/
theorem limbVectorValues : Obligations.LimbVectorValues := by
  intro W n x
  refine ⟨?_, x.val_lt, LimbVec.val_ofNat W⟩
  have h := limbsVal_eq_sum x.limbs
  rwa [x.length_eq] at h

/-! ### Word primitives (R5, R6, R7) -/

theorem addWithCarry_toNat {W : Nat} (a b : BitVec W) (c : Bool) :
    (addWithCarry a b c).1.toNat = (a.toNat + b.toNat + c.toNat) % 2 ^ W := by
  simp [addWithCarry]

theorem addWithCarry_carry {W : Nat} (a b : BitVec W) (c : Bool) :
    (addWithCarry a b c).2 = true ↔ 2 ^ W ≤ a.toNat + b.toNat + c.toNat := by
  simp [addWithCarry]

theorem subWithBorrow_toNat {W : Nat} (a b : BitVec W) (c : Bool) :
    ((subWithBorrow a b c).1.toNat : Int) = ((a.toNat : Int) - b.toNat - c.toNat) % 2 ^ W := by
  have hpos : (0 : Int) ≤ ((a.toNat : Int) - b.toNat - c.toNat) % 2 ^ W := Int.emod_nonneg _ (by positivity)
  simp [subWithBorrow, BitVec.toNat_ofInt, hpos]

theorem subWithBorrow_borrow {W : Nat} (a b : BitVec W) (c : Bool) :
    (subWithBorrow a b c).2 = true ↔ (a.toNat : Int) - b.toNat - c.toNat < 0 := by
  simp [subWithBorrow]

/-- The high word of a product fits in a word, so that the two words lose nothing. -/
theorem mulWide_toNat {W : Nat} (a b : BitVec W) :
    (mulWide a b).1.toNat * 2 ^ W + (mulWide a b).2.toNat = a.toNat * b.toNat := by
  have hhi : a.toNat * b.toNat / 2 ^ W < 2 ^ W :=
    Nat.div_lt_of_lt_mul (Nat.mul_lt_mul'' a.isLt b.isLt)
  simp only [mulWide, BitVec.toNat_ofNat, Nat.mod_eq_of_lt hhi]
  exact Nat.div_add_mod' _ _

/-- Settles O7: each primitive by its own lemma. -/
theorem wordPrimitives : Obligations.WordPrimitives := fun _ a b c =>
  ⟨addWithCarry_toNat a b c, addWithCarry_carry a b c, subWithBorrow_toNat a b c, subWithBorrow_borrow a b c,
    mulWide_toNat a b⟩

/-! ### The masked blend (R8) -/

theorem ctSelectWord_eq_ite {W : Nat} (f : Bool) (a b : BitVec W) : ctSelectWord f a b = if f then b else a := by
  cases f <;> simp [ctSelectWord, mask]

/-- Settles O8: limb by limb, the mask keeps one operand and clears the other. -/
theorem selectByMask : Obligations.SelectByMask := by
  intro W n f a b
  have ha := a.length_eq
  have hb := b.length_eq
  have hlimbs : (ctSelect f a b).limbs = (if f then b else a).limbs := by
    apply List.ext_getElem
    · cases f <;> simp [ctSelect, ha, hb]
    · intro j _ _
      cases f <;> simp [ctSelect, ctSelectWord_eq_ite]
  exact LimbVec.eq_of_val_eq (congrArg limbsVal hlimbs)

/-! ### A chain of word operations, limb by limb (R9, R10) -/

/-- Word operation `f` run over two lists of limbs in ascending order, limb `j`'s flag out being limb `j+1`'s in: the shape that
the carry chain and the borrow chain share. -/
def wordChain {W : Nat} (f : BitVec W → BitVec W → Bool → BitVec W × Bool) :
    List (BitVec W) → List (BitVec W) → Bool → List (BitVec W) × Bool
  | a :: as, b :: bs, c =>
    ((f a b c).1 :: (wordChain f as bs (f a b c).2).1, (wordChain f as bs (f a b c).2).2)
  | _, _, c => ([], c)

theorem addLimbs_eq_wordChain {W : Nat} (as bs : List (BitVec W)) (c : Bool) :
    addLimbs as bs c = wordChain addWithCarry as bs c := by
  induction as generalizing bs c with
  | nil => rfl
  | cons a as ih => cases bs <;> simp [addLimbs, wordChain, ih]

theorem subLimbs_eq_wordChain {W : Nat} (as bs : List (BitVec W)) (c : Bool) :
    subLimbs as bs c = wordChain subWithBorrow as bs c := by
  induction as generalizing bs c with
  | nil => rfl
  | cons a as ih => cases bs <;> simp [subLimbs, wordChain, ih]

/-- Limb `j` of a chain is `f` of limbs `j` of the operands and the flag out of the chain over the `j` limbs below; its flag out is
that of the chain over the lowest `j + 1` limbs. -/
theorem wordChain_limb {W : Nat} (f : BitVec W → BitVec W → Bool → BitVec W × Bool) (as bs : List (BitVec W)) (c : Bool)
    (j : Nat) (ha : j < as.length) (hb : j < bs.length) :
    f (as.getD j 0#W) (bs.getD j 0#W) (wordChain f (as.take j) (bs.take j) c).2 =
      ((wordChain f as bs c).1.getD j 0#W, (wordChain f (as.take (j + 1)) (bs.take (j + 1)) c).2) := by
  induction as generalizing bs c j with
  | nil => cases ha
  | cons a as ih =>
    cases bs with
    | nil => cases hb
    | cons b bs =>
      cases j with
      | zero => simp [wordChain]
      | succ j =>
        have h := ih bs (f a b c).2 j (Nat.lt_of_succ_lt_succ ha) (Nat.lt_of_succ_lt_succ hb)
        simpa [wordChain] using h

/-- The flags of a chain of `n` limbs: `c j` enters limb `j`, the first is the flag in, the last the flag out. -/
theorem exists_wordChain_flags {W n : Nat} (f : BitVec W → BitVec W → Bool → BitVec W × Bool) (a b : LimbVec W n)
    (cin : Bool) : ∃ c : Nat → Bool, c 0 = cin ∧ c n = (wordChain f a.limbs b.limbs cin).2 ∧
      ∀ j < n, f (a.limb j) (b.limb j) (c j) = ((wordChain f a.limbs b.limbs cin).1.getD j 0#W, c (j + 1)) := by
  have ha := a.length_eq
  have hb := b.length_eq
  refine ⟨fun j => (wordChain f (a.limbs.take j) (b.limbs.take j) cin).2, rfl, ?_, ?_⟩
  · simp [List.take_of_length_le, ha, hb]
  · intro j hj
    exact wordChain_limb f a.limbs b.limbs cin j (by rwa [ha]) (by rwa [hb])

/-! ### The carry chain (R9) -/

/-- Sum and carry out of one word, as one number. -/
theorem addWithCarry_value {W : Nat} (a b : BitVec W) (c : Bool) :
    (addWithCarry a b c).1.toNat + 2 ^ W * (addWithCarry a b c).2.toNat = a.toNat + b.toNat + c.toNat := by
  have ha := a.isLt
  have hb := b.isLt
  have hc := c.toNat_le
  rw [addWithCarry_toNat]
  cases h : (addWithCarry a b c).2
  · have hlt : ¬ 2 ^ W ≤ a.toNat + b.toNat + c.toNat := mt (addWithCarry_carry a b c).mpr (by simp [h])
    rw [Nat.mod_eq_of_lt (Nat.lt_of_not_le hlt)]
    simp
  · have hge : 2 ^ W ≤ a.toNat + b.toNat + c.toNat := (addWithCarry_carry a b c).mp h
    rw [Nat.mod_eq_sub_mod hge, Nat.mod_eq_of_lt (by omega)]
    simp only [Bool.toNat_true]
    omega

/-- Sum and carry out of the chain, as one number. -/
theorem limbsVal_addLimbs {W : Nat} (as bs : List (BitVec W)) (c : Bool) (h : as.length = bs.length) :
    limbsVal (addLimbs as bs c).1 + 2 ^ (as.length * W) * (addLimbs as bs c).2.toNat =
      limbsVal as + limbsVal bs + c.toNat := by
  induction as generalizing bs c with
  | nil =>
    cases bs with
    | nil => simp [addLimbs, limbsVal]
    | cons b bs => cases h
  | cons a as ih =>
    cases bs with
    | nil => cases h
    | cons b bs =>
      have hword := addWithCarry_value a b c
      have hrest := ih bs (addWithCarry a b c).2 (Nat.succ.inj h)
      simp only [addLimbs, limbsVal, List.length_cons, Nat.succ_mul, Nat.pow_add]
      linear_combination hword + 2 ^ W * hrest

theorem addChain_value {W n : Nat} (a b : LimbVec W n) (cin : Bool) :
    (addChain a b cin).1.val + 2 ^ (n * W) * (addChain a b cin).2.toNat = a.val + b.val + cin.toNat := by
  have h := limbsVal_addLimbs a.limbs b.limbs cin (a.length_eq.trans b.length_eq.symm)
  rwa [a.length_eq] at h

theorem addChain_carry {W n : Nat} (a b : LimbVec W n) (cin : Bool) :
    (addChain a b cin).2 = true ↔ 2 ^ (n * W) ≤ a.val + b.val + cin.toNat := by
  have hv := addChain_value a b cin
  have hs := (addChain a b cin).1.val_lt
  rw [← hv]
  cases (addChain a b cin).2
  · simpa using hs
  · simp

/-- Settles O9: the flags of the chain are those of `addWithCarry` limb by limb; the sum and its carry, as one number, give the
remainder and the comparison. -/
theorem carryChainValue : Obligations.CarryChainValue := by
  intro W n a b cin
  refine ⟨?_, ?_, addChain_carry a b cin⟩
  · have h := exists_wordChain_flags addWithCarry a b cin
    rwa [← addLimbs_eq_wordChain] at h
  · rw [← addChain_value a b cin, Nat.add_mul_mod_self_left, Nat.mod_eq_of_lt (LimbVec.val_lt _)]

/-! ### The borrow chain (R10) -/

/-- Difference and borrow out of one word: the borrow lends `2^W`. -/
theorem subWithBorrow_value {W : Nat} (a b : BitVec W) (c : Bool) :
    ((subWithBorrow a b c).1.toNat : Int) - 2 ^ W * (subWithBorrow a b c).2.toNat =
      (a.toNat : Int) - b.toNat - c.toNat := by
  have ha : (a.toNat : Int) < 2 ^ W := by exact_mod_cast a.isLt
  have hb : (b.toNat : Int) < 2 ^ W := by exact_mod_cast b.isLt
  have hc := c.toNat_le
  rw [subWithBorrow_toNat]
  cases h : (subWithBorrow a b c).2
  · have hge : ¬ (a.toNat : Int) - b.toNat - c.toNat < 0 := mt (subWithBorrow_borrow a b c).mpr (by simp [h])
    rw [Int.emod_eq_of_lt (by omega) (by omega)]
    simp
  · have hlt : (a.toNat : Int) - b.toNat - c.toNat < 0 := (subWithBorrow_borrow a b c).mp h
    rw [← Int.add_emod_right, Int.emod_eq_of_lt (by omega) (by omega)]
    simp

/-- Difference and borrow out of the chain: the borrow lends `2^(n·W)`. -/
theorem limbsVal_subLimbs {W : Nat} (as bs : List (BitVec W)) (c : Bool) (h : as.length = bs.length) :
    (limbsVal (subLimbs as bs c).1 : Int) - 2 ^ (as.length * W) * (subLimbs as bs c).2.toNat =
      (limbsVal as : Int) - limbsVal bs - c.toNat := by
  induction as generalizing bs c with
  | nil =>
    cases bs with
    | nil => simp [subLimbs, limbsVal]
    | cons b bs => cases h
  | cons a as ih =>
    cases bs with
    | nil => cases h
    | cons b bs =>
      have hword := subWithBorrow_value a b c
      have hrest := ih bs (subWithBorrow a b c).2 (Nat.succ.inj h)
      simp only [subLimbs, limbsVal, List.length_cons, Nat.succ_mul, pow_add]
      push_cast
      linear_combination hword + 2 ^ W * hrest

theorem subChain_value {W n : Nat} (a b : LimbVec W n) (bin : Bool) :
    ((subChain a b bin).1.val : Int) - 2 ^ (n * W) * (subChain a b bin).2.toNat = (a.val : Int) - b.val - bin.toNat := by
  have h := limbsVal_subLimbs a.limbs b.limbs bin (a.length_eq.trans b.length_eq.symm)
  rwa [a.length_eq] at h

theorem subChain_borrow {W n : Nat} (a b : LimbVec W n) (bin : Bool) :
    (subChain a b bin).2 = true ↔ (a.val : Int) - b.val - bin.toNat < 0 := by
  have hv := subChain_value a b bin
  have hs : ((subChain a b bin).1.val : Int) < 2 ^ (n * W) := by exact_mod_cast (subChain a b bin).1.val_lt
  rw [← hv]
  cases (subChain a b bin).2
  · simp
  · simpa using hs

/-- Settles O10: the flags of the chain are those of `subWithBorrow` limb by limb; the difference with what its borrow lends gives the
remainder and the sign. -/
theorem borrowChainValue : Obligations.BorrowChainValue := by
  intro W n a b bin
  refine ⟨?_, ?_, subChain_borrow a b bin⟩
  · have h := exists_wordChain_flags subWithBorrow a b bin
    rwa [← subLimbs_eq_wordChain] at h
  · have hs : ((subChain a b bin).1.val : Int) < 2 ^ (n * W) := by exact_mod_cast (subChain a b bin).1.val_lt
    rw [← subChain_value a b bin, Int.sub_mul_emod_self_left, Int.emod_eq_of_lt (Int.natCast_nonneg _) hs]

end Sys2Proof
end

section
/-!
Operands outside a command's domain (00_scope.md R13): the effect is a draw of the destination, and what a draw does.
-/

namespace Sys2Proof.Machine

variable {p : Params}

/-- `t` is `u` with every limb of the registers `ds` a fresh free word, in the order of `ds`, with `C` and the
configuration unchanged and these draws alone counted (R13). -/
def FreshlyDrawn (ds : List RegNum) (u t : Mau p) : Prop :=
  SameConfig u t ∧ t.carry = u.carry ∧ t.draws = u.draws + ds.length * p.N ∧
    ∀ k (h : k < ds.length) j, j < p.N → (t.reg ds[k]).limb j = Config.freeWord p.W (u.draws + k * p.N + j)

theorem freshlyDrawn_drawReg (u : Mau p) (r : RegNum) : FreshlyDrawn [r] u (u.drawReg r) := by
  refine ⟨⟨rfl, rfl, rfl, rfl⟩, rfl, by simp, ?_⟩
  intro k hk j hj
  obtain rfl : k = 0 := by simpa using hk
  have hreg : (u.drawReg r).reg r = freeVec p.W p.N u.draws := Mau.reg_setReg_self u r _
  simp [hreg, limb_freeVec hj]

theorem freshlyDrawn_drawPair (u : Mau p) (r : RegNum) : FreshlyDrawn [r, r + 1] u (u.drawPair r) := by
  refine ⟨⟨rfl, rfl, rfl, rfl⟩, rfl, by simp [Nat.two_mul], ?_⟩
  intro k hk j hj
  have hlow : (u.drawPair r).reg r = (freeVec p.W (p.N + p.N) u.draws).lowHalf := Mau.reg_setPair_low u r _
  have hhigh : (u.drawPair r).reg (r + 1) = (freeVec p.W (p.N + p.N) u.draws).highHalf := Mau.reg_setPair_high u r _
  match k, hk with
  | 0, _ => simp [hlow, limb_lowHalf_freeVec hj]
  | 1, _ => simp [hhigh, limb_highHalf_freeVec hj]

/-- The end of the completion touches nothing a draw speaks of. -/
theorem FreshlyDrawn.finish_pop {ds : List RegNum} {u t : Mau p} (h : FreshlyDrawn ds u t) :
    FreshlyDrawn ds u t.finish.pop := by
  obtain ⟨⟨hmodulus, hm0ninv, hspare, hvalid⟩, hcarry, hdraws, hlimbs⟩ := h
  exact ⟨⟨hmodulus, hm0ninv, hspare, hvalid⟩, hcarry, hdraws, hlimbs⟩

/-- The modular commands' domain check fails exactly when an operand is not below the modulus. -/
theorem belowBoth_eq_false {m a b : Nat} (h : ¬ (a < m ∧ b < m)) : belowBoth m a b = false := by
  simpa [belowBoth] using h

/-- The Montgomery multiplications' domain check fails outside the domain of R126. -/
theorem mulDomain_eq_false {u : Mau p} {a b : Nat} (h : ¬ InMulDomain u a b) :
    mulDomain u.M u.spareBits.toNat a b = false := by
  simpa [InMulDomain, mulDomain, and_assoc] using h

theorem freshlyDrawn_setRegIf (u : Mau p) {inDomain : Bool} (h : inDomain = false) (r : RegNum)
    (x : LimbVec p.W p.N) : FreshlyDrawn [r] u (u.setRegIf inDomain r x) := by
  subst h
  exact freshlyDrawn_drawReg u r

theorem freshlyDrawn_setPairIf (u : Mau p) {inDomain : Bool} (h : inDomain = false) (k : RegNum)
    (t : LimbVec p.W (p.N + p.N)) : FreshlyDrawn [k, k + 1] u (u.setPairIf inDomain k t) := by
  subst h
  exact freshlyDrawn_drawPair u k

/-- Outside its domain a command's effect draws its destination: a register for seven commands, a pair for ADDMODD and SUBMODD. -/
theorem freshlyDrawn_effectOf {u : Mau p} {l : Latch p} (h : OutOfDomain u l) :
    FreshlyDrawn l.cmd.dests u (effectOf l.cmd l u) := by
  unfold OutOfDomain at h
  cases hc : l.cmd <;> simp only [hc] at h
  case addmod | submod => exact freshlyDrawn_setRegIf u (belowBoth_eq_false h) _ _
  case addmodd | submodd =>
    rw [← val_doubleModulus] at h
    exact freshlyDrawn_setPairIf u (belowBoth_eq_false h) _ _
  case mredc => exact freshlyDrawn_setRegIf u (decide_eq_false h) _ _
  case mmul | mmulnf | msqr | msqrnf => exact freshlyDrawn_setRegIf u (mulDomain_eq_false h) _ _

/-- Settles O42: a completion keeps what every completion keeps, and outside the domain its effect is a draw of the destination. -/
theorem outOfDomainDraws : Obligations.OutOfDomainDraws := by
  intro p u l hc hl
  exact ⟨_, exec_completing hc rfl, completionFrame_effectOf l.cmd l u, (freshlyDrawn_effectOf hl).finish_pop⟩

end Sys2Proof.Machine
end

section
/-!
Every transition of the unit, said once as an inductive relation that keeps the cause of each change (`StepsTo`), and what the state's
registers and flags do over all of them: the invariant, `C`, the operand registers, `BUSY`, and the words of ID and STATUS
(10_state.md).
-/

namespace Sys2Proof

theorem Params.W_cases (p : Params) : p.W = 32 ∨ p.W = 64 := by
  unfold Params.W
  cases p.width <;> simp [Width.bits]

/-- A vector is odd exactly when its lowest limb is. -/
theorem LimbVec.val_mod_two {W n : Nat} (hW : 1 ≤ W) (hn : 1 ≤ n) (x : LimbVec W n) :
    x.val % 2 = (x.limb 0).toNat % 2 := by
  obtain ⟨limbs, hlen⟩ := x
  cases limbs with
  | nil => simp at hlen; omega
  | cons y ys =>
    obtain ⟨k, hk⟩ : 2 ∣ 2 ^ W := dvd_pow_self 2 (by omega)
    simp [LimbVec.val, LimbVec.limb, limbsVal, hk, Nat.mul_assoc]

end Sys2Proof

namespace Sys2Proof.Machine

variable {p : Params}

/-! ### The shared operations, as far as a transition shows them -/

/-- The error action records the first error, and does nothing while one is recorded (R151). -/
theorem raiseError_cases (u : Mau p) (code : ErrCode) (v : BitVec p.W) :
    u.raiseError code v = u ∨ u.raiseError code v = { u with err := code, errInfo := v } := by
  unfold Mau.raiseError
  split
  · exact .inr rfl
  · exact .inl rfl

/-- An issue check that fails names an error. -/
theorem issueError_ne_noError {u : Mau p} {i : Instr} {code : ErrCode} (h : u.issueError i = some code) :
    code ≠ .noError := by
  rintro rfl
  unfold Mau.issueError at h
  repeat' split at h
  all_goals cases h

/-- A command is issued exactly when it passes each of the checks (R151). -/
theorem issueError_eq_none_iff (u : Mau p) (i : Instr) :
    u.issueError i = none ↔
      u.inFlight = none ∧ i.WellFormed ∧ (readsMod i = true → u.cfgValid = true) ∧ u.badConfig i = false := by
  rw [Instr.WellFormed, pairsEven_eq, noOverlap_eq]
  unfold Mau.issueError
  rw [Mau.busy_eq]
  cases u.inFlight with
  | some l => simp
  | none =>
    repeat' split
    all_goals simp_all

/-- The validity check of SETMOD, on the latched values (R141). -/
theorem badConfig_setmod_eq_false_iff (u : Mau p) (ra rb : RegNum) :
    u.badConfig (.setmod ra rb) = false ↔ ((u.latch (.setmod ra rb)).a.limb 0).toNat % 2 = 1 ∧
      ((u.latch (.setmod ra rb)).a.limb 0).toNat * ((u.latch (.setmod ra rb)).b.limb 0).toNat % 2 ^ p.W = 2 ^ p.W - 1 := by
  show (!configValid ((u.reg ra).limb 0) ((u.reg rb).limb 0)) = false ↔ ((u.reg ra).limb 0).toNat % 2 = 1 ∧
    ((u.reg ra).limb 0).toNat * ((u.reg rb).limb 0).toNat % 2 ^ p.W = 2 ^ p.W - 1
  simp [configValid]

/-- Taking the event off an empty script changes nothing. -/
theorem pop_of_script_nil {u : Mau p} (h : u.script = []) : u.pop = u := by
  cases u
  simp_all [Mau.pop]

/-- Taking off the next event leaves the rest. -/
theorem pop_of_script_cons {u : Mau p} {e : Event p} {rest : List (Event p)} (h : u.script = e :: rest) :
    u.pop = { u with script := rest } := by
  rw [Mau.pop, h, List.tail_cons]

/-! ### Every transition -/

/-- What a step makes of unit `u`, with its cause: a command is issued or completes, an error is recorded or the record cleared, a
read is answered, a limb is written, the unit is reset, or only the event is over. -/
inductive StepsTo (u : Mau p) : Mau p → Prop where
  | issue {v : BitVec p.W} {i : Instr} (hw : u.cmdWrite = some v) (hd : decode (v.setWidth 64) = .ok i)
      (hi : u.issueError i = none) : StepsTo u { u with inFlight := some (u.latch i) }.pop
  | complete {l : Latch p} (hc : u.completing = some l) : StepsTo u (effectOf l.cmd l u).finish.pop
  | raise {addr : BitVec 16} {v : BitVec p.W} {rest : List (Event p)} {code : ErrCode}
      (hs : u.script = .write addr v :: rest) (hne : code ≠ .noError) :
      StepsTo u { u with err := code, errInfo := v }.pop
  | clear {addr : BitVec 16} {v : BitVec p.W} {rest : List (Event p)} (hs : u.script = .write addr v :: rest) :
      StepsTo u { u with err := .noError, errInfo := 0#p.W }.pop
  | read {addr : BitVec 16} {rest : List (Event p)} {w : BitVec p.W} {d : Nat} (hs : u.script = .read addr :: rest) :
      StepsTo u { u with readData := some w, draws := d }.pop
  | writeLimb {r : RegNum} {j : Nat} {v : BitVec p.W} {rest : List (Event p)} (hf : u.inFlight = none) (hj : j < p.N)
      (hs : u.script = .write (regAddress r j) v :: rest) : StepsTo u (u.setReg r ((u.reg r).setLimb j v)).pop
  | reset {rest : List (Event p)} (hs : u.script = .reset :: rest) : StepsTo u u.applyReset.pop
  | pass : StepsTo u u.pop

theorem stepsTo_raiseError {u : Mau p} {addr : BitVec 16} {v : BitVec p.W} {rest : List (Event p)} {code : ErrCode}
    (hs : u.script = .write addr v :: rest) (hne : code ≠ .noError) : StepsTo u (u.raiseError code v).pop := by
  obtain h | h := raiseError_cases u code v <;> rw [h]
  · exact .pass
  · exact .raise hs hne

theorem stepsTo_issue {u : Mau p} {v : BitVec p.W} {i : Instr} (hw : u.cmdWrite = some v)
    (hd : decode (v.setWidth 64) = .ok i) : StepsTo u (u.issue i v).pop := by
  obtain ⟨hi, h⟩ | ⟨code, hi, h⟩ := issue_cases u i v <;> rw [h]
  · exact .issue hw hd hi
  · obtain ⟨rest, hs⟩ := script_of_cmdWrite hw
    exact stepsTo_raiseError hs (issueError_ne_noError hi)

theorem stepsTo_rejectWord {u : Mau p} {addr : BitVec 16} {v : BitVec p.W} {rest : List (Event p)}
    (hs : u.script = .write addr v :: rest) : StepsTo u (u.rejectWord v).pop :=
  stepsTo_raiseError hs (by split <;> decide)

theorem stepsTo_portWrite {u : Mau p} {addr : BitVec 16} {v : BitVec p.W} {rest : List (Event p)}
    (hs : u.script = .write addr v :: rest) : StepsTo u (u.portWrite addr v).pop := by
  unfold Mau.portWrite
  split
  case h_1 => exact stepsTo_rejectWord hs
  case h_2 =>
    unfold Mau.errClear
    split
    · exact .clear hs
    · exact .pass
  case h_3 r j ht =>
    obtain ⟨rfl, hj⟩ := regAddress_of_target ht
    split
    · exact stepsTo_raiseError hs (by decide)
    · next hb => exact .writeLimb (by simpa [Mau.busy_eq] using hb) hj hs
  all_goals exact .pass

theorem stepsTo_otherStep (u : Mau p) : StepsTo u u.otherStep := by
  unfold Mau.otherStep
  split
  next hs =>
    have h : StepsTo u u.pop := .pass
    rwa [pop_of_script_nil hs] at h
  next addr rest hs =>
    obtain ⟨w, d, h⟩ := portRead_cases u addr
    rw [h]
    exact .read hs
  next addr v rest hs => exact stepsTo_portWrite hs
  next => exact .pass
  next rest hs => exact .reset hs

/-- Every step is one of these transitions. -/
theorem exists_step_stepsTo (u : Mau p) : ∃ t, step ⟨p, u⟩ = .next ⟨p, t⟩ ∧ StepsTo u t := by
  obtain ⟨v, i, hw, hd, h⟩ | ⟨v, e, hw, hd, h⟩ | ⟨l, hc, h⟩ | ⟨-, -, h⟩ := step_cases u
  · exact ⟨_, h, stepsTo_issue hw hd⟩
  · obtain ⟨rest, hs⟩ := script_of_cmdWrite hw
    exact ⟨_, h, stepsTo_rejectWord hs⟩
  · exact ⟨_, h, .complete hc⟩
  · exact ⟨_, h, stepsTo_otherStep u⟩

theorem stepsTo_of_step {u t : Mau p} (h : step ⟨p, u⟩ = .next ⟨p, t⟩) : StepsTo u t := by
  obtain ⟨t', h', ht⟩ := exists_step_stepsTo u
  rw [h] at h'
  cases h'
  exact ht

/-! ### What a completion leaves of `C` and of the configuration -/

theorem setRegIf_config_carry (u : Mau p) (inDomain : Bool) (r : RegNum) (x : LimbVec p.W p.N) :
    SameConfig u (u.setRegIf inDomain r x) ∧ (u.setRegIf inDomain r x).carry = u.carry := by
  cases inDomain <;> exact ⟨⟨rfl, rfl, rfl, rfl⟩, rfl⟩

theorem setPairIf_config_carry (u : Mau p) (inDomain : Bool) (k : RegNum) (t : LimbVec p.W (p.N + p.N)) :
    SameConfig u (u.setPairIf inDomain k t) ∧ (u.setPairIf inDomain k t).carry = u.carry := by
  cases inDomain <;> exact ⟨⟨rfl, rfl, rfl, rfl⟩, rfl⟩

/-- Only SETMOD's effect writes the configuration (R143). -/
theorem sameConfig_effectOf {i : Instr} (h : ∀ ra rb, i ≠ .setmod ra rb) (l : Latch p) (u : Mau p) :
    SameConfig u (effectOf i l u) := by
  cases i
  case setmod ra rb => exact absurd rfl (h ra rb)
  case addmod | submod | mredc | mmul | mmulnf | msqr | msqrnf => exact (setRegIf_config_carry u _ _ _).1
  case addmodd | submodd => exact (setPairIf_config_carry u _ _ _).1
  all_goals exact ⟨rfl, rfl, rfl, rfl⟩

/-- A command that does not write `C` leaves it (R25). -/
theorem carry_effectOf {i : Instr} (h : i.writesCarry = false) (l : Latch p) (u : Mau p) :
    (effectOf i l u).carry = u.carry := by
  cases i
  case add | adc | sub | sbb | caddm | csubm => cases h
  case addmod | submod | mredc | mmul | mmulnf | msqr | msqrnf => exact (setRegIf_config_carry u _ _ _).2
  case addmodd | submodd => exact (setPairIf_config_carry u _ _ _).2
  all_goals rfl

/-- The commands that write `C`, by name (R25). -/
theorem mnemonic_mem_of_writesCarry {i : Instr} (h : i.writesCarry = true) :
    i.mnemonic ∈ ["ADD", "ADC", "SUB", "SBB", "CADDM", "CSUBM"] := by
  cases i
  case add | adc | sub | sbb | caddm | csubm => simp [Instr.mnemonic]
  all_goals cases h

/-! ### The invariant -/

theorem Mau.inv_reset (p : Params) : (Mau.reset p).Inv where
  config := nofun
  latch := nofun
  error := fun _ => rfl

/-- Settles O51: nothing is configured, in flight or recorded. -/
theorem resetMeetsInvariant : Obligations.ResetMeetsInvariant := Mau.inv_reset

/-- The spare-bit count fits its register: `N·W ≤ 4096`. -/
theorem toNat_spareBitsOf (p : Params) (M : Nat) : (spareBitsOf p M).toNat = p.N * p.W - bitlen M := by
  have hN := p.le_max
  have hlt : p.N * p.W < 2 ^ p.W := by
    obtain h | h := Params.W_cases p <;> rw [h] <;> omega
  rw [spareBitsOf, BitVec.toNat_ofNat, Nat.mod_eq_of_lt (by omega)]

/-- SETMOD's effect, on values that passed its check, is a valid configuration (R140, R141). -/
theorem configInv_setmodEffect {l : Latch p} (hodd : (l.a.limb 0).toNat % 2 = 1)
    (hinv : (l.a.limb 0).toNat * (l.b.limb 0).toNat % 2 ^ p.W = 2 ^ p.W - 1) (u : Mau p) :
    (setmodEffect l u).ConfigInv := by
  intro _
  have hW : 1 ≤ p.W := by
    obtain h | h := Params.W_cases p <;> rw [h] <;> omega
  exact ⟨(LimbVec.val_mod_two hW p.one_le l.a).trans hodd, hinv, toNat_spareBitsOf p l.a.val⟩

theorem Mau.ConfigInv.of_sameConfig {u t : Mau p} (h : SameConfig u t) (hu : u.ConfigInv) : t.ConfigInv := by
  obtain ⟨hm, hq, hs, hv⟩ := h
  unfold Mau.ConfigInv Mau.M
  rw [hm, hq, hs, hv]
  exact hu

/-- A completion leaves a configuration as R32 says: SETMOD's passed its check at issue, and no other command writes one. -/
theorem configInv_effectOf {u : Mau p} {l : Latch p} (hu : u.Inv) (hl : u.inFlight = some l) :
    (effectOf l.cmd l u).ConfigInv := by
  obtain ⟨-, -, hset⟩ := hu.latch l hl
  by_cases h : ∃ ra rb, l.cmd = .setmod ra rb
  · obtain ⟨ra, rb, hcmd⟩ := h
    obtain ⟨hodd, hinv⟩ := hset ra rb hcmd
    rw [hcmd]
    exact configInv_setmodEffect hodd hinv u
  · exact hu.config.of_sameConfig (sameConfig_effectOf (fun ra rb e => h ⟨ra, rb, e⟩) l u)

/-- What an issued command has passed (R151). -/
theorem latchInv_issue {u : Mau p} {i : Instr} (h : u.issueError i = none) :
    { u with inFlight := some (u.latch i) }.LatchInv := by
  obtain ⟨-, hwf, hcfg, hbad⟩ := (issueError_eq_none_iff u i).mp h
  intro l hl
  obtain rfl : u.latch i = l := Option.some.inj hl
  refine ⟨hwf, hcfg, ?_⟩
  rintro ra rb hcmd
  obtain rfl : i = .setmod ra rb := hcmd
  exact (badConfig_setmod_eq_false_iff u ra rb).mp hbad

/-- Every transition keeps the invariant. Each part of it speaks of a few registers, so that only the transitions that write these have
something to show. -/
theorem StepsTo.inv {u t : Mau p} (h : StepsTo u t) (hu : u.Inv) : t.Inv := by
  cases h with
  | issue _ _ hi => exact ⟨hu.config, latchInv_issue hi, hu.error⟩
  | @complete l hc =>
    obtain ⟨herr, hinfo, -, -⟩ := effectOf_record l.cmd l u
    refine ⟨configInv_effectOf hu (inFlight_of_completing hc), nofun, ?_⟩
    intro he
    exact hinfo.trans (hu.error (herr.symm.trans he))
  | raise _ hne => exact ⟨hu.config, hu.latch, fun he => absurd he hne⟩
  | clear _ => exact ⟨hu.config, hu.latch, fun _ => rfl⟩
  | read _ => exact ⟨hu.config, hu.latch, hu.error⟩
  | writeLimb _ _ _ => exact ⟨hu.config, hu.latch, hu.error⟩
  | reset _ =>
    obtain ⟨hconfig, hlatch, herror⟩ := Mau.inv_reset p
    exact ⟨hconfig, hlatch, herror⟩
  | pass => exact ⟨hu.config, hu.latch, hu.error⟩

/-- Settles O52: a step is one of the transitions, and each of them keeps the invariant. -/
theorem stepKeepsInvariant : Obligations.StepKeepsInvariant := by
  intro s t hinv hstep
  obtain ⟨u, hu, ht⟩ := exists_step_stepsTo s.mau
  obtain rfl : t = ⟨s.params, u⟩ := Host.Outcome.next.inj (hstep.symm.trans hu)
  exact ht.inv hinv

/-! ### What changes `C`, the operand registers and `BUSY` -/

/-- Settles O54: the two transitions that write `C` are a reset and a completion, and the latter only for the listed commands. -/
theorem onlyListedCommandsWriteCarry : Obligations.OnlyListedCommandsWriteCarry := by
  intro p u t hstep hne
  cases stepsTo_of_step hstep with
  | reset hs => exact .inl ⟨_, hs⟩
  | @complete l hc =>
    cases hw : l.cmd.writesCarry with
    | true => exact .inr ⟨l, hc, mnemonic_mem_of_writesCarry hw⟩
    | false => exact absurd (carry_effectOf hw l u) hne
  | issue | raise | clear | read | writeLimb | pass => exact absurd rfl hne

/-- Settles O55: the three transitions that write a register are a reset, a completion and an idle write, and the latter two write
no other register than those they name. -/
theorem registersChangeOnlyAsWritten : Obligations.RegistersChangeOnlyAsWritten := by
  intro p u t r hstep hne
  cases stepsTo_of_step hstep with
  | reset hs => exact .inl ⟨_, hs⟩
  | @complete l hc =>
    by_cases hr : r ∈ l.cmd.dests
    · exact .inr (.inl ⟨l, hc, hr⟩)
    · exact absurd (reg_effectOf l.cmd l u hr) hne
  | @writeLimb q j v rest hf hj hs =>
    by_cases hr : r = q
    · subst hr
      exact .inr (.inr ⟨hf, j, v, rest, hj, hs⟩)
    · exact absurd (Mau.reg_setReg_of_ne u hr _) hne
  | issue | raise | clear | read | pass => exact absurd rfl hne

/-- With nothing in flight, only an issue puts a command in flight. -/
theorem StepsTo.issued_of_inFlight {u t : Mau p} (h : StepsTo u t) (hu : u.inFlight = none) (ht : t.inFlight ≠ none) :
    ∃ v i, u.cmdWrite = some v ∧ decode (v.setWidth 64) = .ok i ∧ Issued i u t := by
  cases h with
  | @issue v i hw hd _ => exact ⟨v, i, hw, hd, rfl⟩
  | complete | reset => exact absurd rfl ht
  | raise | clear | read | writeLimb | pass => exact absurd hu ht

/-- A command in flight stays in flight but for its completion and a reset. -/
theorem StepsTo.inFlight_cases {u t : Mau p} (h : StepsTo u t) (hu : u.inFlight ≠ none) :
    t.inFlight = u.inFlight ∨ t.inFlight = none ∧ (u.completing ≠ none ∨ ∃ rest, u.script = .reset :: rest) := by
  cases h with
  | @issue v i _ _ hi => exact absurd ((issueError_eq_none_iff u i).mp hi).1 hu
  | complete hc => exact .inr ⟨rfl, .inl (by simp [hc])⟩
  | reset hs => exact .inr ⟨rfl, .inr ⟨_, hs⟩⟩
  | raise | clear | read | writeLimb | pass => exact .inl rfl

/-- A run that has ended stays as it is (R178). -/
theorem StepsTo.eq_of_ended {u t : Mau p} (h : StepsTo u t) (hu : u.Ended) : t = u := by
  obtain ⟨hscript, hflight⟩ := hu
  cases h with
  | pass => exact pop_of_script_nil hscript
  | issue hw =>
    obtain ⟨rest, hs⟩ := script_of_cmdWrite hw
    simp [hscript] at hs
  | complete hc => exact absurd (hflight.symm.trans (inFlight_of_completing hc)) (Option.some_ne_none _).symm
  | raise hs | clear hs | read hs | writeLimb _ _ hs | reset hs =>
    simp [hscript] at hs

/-- Settles O56: with nothing in flight, with a command in flight, and at the end of a run. -/
theorem busyFollowsIssueAndCompletion : Obligations.BusyFollowsIssueAndCompletion := by
  intro p u t hstep
  have h := stepsTo_of_step hstep
  refine ⟨h.issued_of_inFlight, ?_, ?_, h.eq_of_ended⟩
  · intro hu ht
    obtain hsame | ⟨-, hcause⟩ := h.inFlight_cases hu
    · exact absurd (hsame.symm.trans ht) hu
    · exact hcause
  · intro hu ht
    obtain hsame | ⟨hnone, -⟩ := h.inFlight_cases hu
    · exact hsame
    · exact absurd hnone ht

/-! ### Port accesses that run no command -/

theorem step_read {u : Mau p} {addr : BitVec 16} {rest : List (Event p)} (hs : u.script = .read addr :: rest) :
    step ⟨p, u⟩ = .next ⟨p, (u.portRead addr).pop⟩ := by
  rw [step_other (by simp [Mau.cmdWrite, hs]) (by simp [Mau.completing, hs]), Mau.otherStep, hs]

theorem step_write {u : Mau p} {addr : BitVec 16} {v : BitVec p.W} {rest : List (Event p)}
    (hs : u.script = .write addr v :: rest) (ha : addr ≠ cmdAddr) :
    step ⟨p, u⟩ = .next ⟨p, (u.portWrite addr v).pop⟩ := by
  rw [step_other (by simp [Mau.cmdWrite, hs, ha]) (by simp [Mau.completing, hs]), Mau.otherStep, hs]

/-- A read that the port answers with a word as it is. -/
theorem step_read_answer {u : Mau p} {addr : BitVec 16} {w : BitVec p.W} {rest : List (Event p)}
    (hs : u.script = .read addr :: rest) (hr : u.portRead addr = u.answer w) :
    step ⟨p, u⟩ = .next ⟨p, { u with readData := some w, script := rest }⟩ := by
  have hpop : (u.answer w).pop = { u with readData := some w, script := rest } := pop_of_script_cons (u := u.answer w) hs
  rw [step_read hs, hr, hpop]

/-- A write that the port ignores. -/
theorem step_write_ignored {u : Mau p} {addr : BitVec 16} {v : BitVec p.W} {rest : List (Event p)}
    (hs : u.script = .write addr v :: rest) (ha : addr ≠ cmdAddr) (hr : u.portWrite addr v = u) :
    step ⟨p, u⟩ = .next ⟨p, { u with script := rest }⟩ := by
  rw [step_write hs ha, hr, pop_of_script_cons hs]

/-! ### ID (R22) -/

/-- The ID word as a number. -/
theorem toNat_idWord (p : Params) : (idWord p).toNat = p.N + 256 * p.W + 65536 * 16 + 16777216 := by
  have hN := p.le_max
  unfold idWord
  obtain h | h := Params.W_cases p <;>
  · simp only [h, BitVec.toNat_setWidth, BitVec.toNat_append, BitVec.toNat_ofNat]
    rw [← Nat.shiftLeft_add_eq_or_of_lt (by omega), ← Nat.shiftLeft_add_eq_or_of_lt (by omega),
      ← Nat.shiftLeft_add_eq_or_of_lt (by omega)]
    simp only [Nat.shiftLeft_eq]
    omega

/-- Settles O22: a read answers the ID word, whose number gives the fields; a write to ID is ignored. -/
theorem identificationWord : Obligations.IdentificationWord := by
  intro p u rest
  constructor
  · intro hs
    have hN := p.le_max
    refine ⟨idWord p, step_read_answer hs rfl, ?_⟩
    rw [toNat_idWord]
    obtain h | h := Params.W_cases p <;> rw [h] <;> omega
  · intro v hs
    exact step_write_ignored hs (by decide) rfl

/-! ### STATUS (R23) -/

/-- The five fields of STATUS below bit 8. -/
theorem toNat_statusWord {W : Nat} (hW : 8 ≤ W) (busy c cfgValid : Bool) (err : ErrCode) :
    (statusWord W busy c cfgValid err).toNat = busy.toNat + 2 * c.toNat + 4 * cfgValid.toNat + 16 * err.bits.toNat := by
  have hpow : 2 ^ 8 ≤ 2 ^ W := Nat.pow_le_pow_right (by decide) hW
  have hb := busy.toNat_le
  have hc := c.toNat_le
  have hv := cfgValid.toNat_le
  have he := err.bits.isLt
  simp only [statusWord, BitVec.toNat_setWidth, BitVec.toNat_append, BitVec.toNat_ofBool, BitVec.toNat_ofNat]
  rw [← Nat.shiftLeft_add_eq_or_of_lt (by omega), ← Nat.shiftLeft_add_eq_or_of_lt (by omega),
    ← Nat.shiftLeft_add_eq_or_of_lt (by omega), ← Nat.shiftLeft_add_eq_or_of_lt (by omega)]
  simp only [Nat.shiftLeft_eq]
  rw [Nat.mod_eq_of_lt (by omega)]
  omega

/-- The single bits of STATUS. -/
theorem getLsbD_statusWord {W : Nat} (hW : 8 ≤ W) (busy c cfgValid : Bool) (err : ErrCode) :
    (statusWord W busy c cfgValid err).getLsbD 0 = busy ∧ (statusWord W busy c cfgValid err).getLsbD 1 = c ∧
      (statusWord W busy c cfgValid err).getLsbD 2 = cfgValid ∧ (statusWord W busy c cfgValid err).getLsbD 3 = false := by
  have h0 : 0 < W := by omega
  have h1 : 1 < W := by omega
  have h2 : 2 < W := by omega
  have h3 : 3 < W := by omega
  simp only [statusWord, BitVec.getLsbD_setWidth, BitVec.getLsbD_append]
  simp [h0, h1, h2, h3]

/-- The error code stands above the single bits. -/
theorem toNat_statusWord_div {W : Nat} (hW : 8 ≤ W) (busy c cfgValid : Bool) (err : ErrCode) :
    (statusWord W busy c cfgValid err).toNat / 16 = err.bits.toNat := by
  have hb := busy.toNat_le
  have hc := c.toNat_le
  have hv := cfgValid.toNat_le
  rw [toNat_statusWord hW]
  omega

theorem step_read_status {u : Mau p} {rest : List (Event p)} (hs : u.script = .read 0x0001 :: rest) :
    step ⟨p, u⟩ = .next ⟨p, u.readStatus.pop⟩ := step_read hs

/-- A read of STATUS, idle. -/
theorem readStatus_of_idle {u : Mau p} (h : u.inFlight = none) :
    u.readStatus = u.answer (statusWord p.W false u.carry u.cfgValid u.err) := by
  simp [Mau.readStatus, Mau.busy_eq, h]

/-- A read of STATUS while `BUSY = 1`: the two free bits are drawn. -/
theorem readStatus_of_busy {u : Mau p} (h : u.inFlight ≠ none) :
    u.readStatus = { u with draws := u.draws + 2 }.answer
      (statusWord p.W true (Config.freeBit u.draws) (Config.freeBit (u.draws + 1)) u.err) := by
  simp [Mau.readStatus, Mau.busy_eq, Option.isSome_iff_ne_none.mpr h]

/-- Settles O23: a read answers the STATUS word of its case, idle or BUSY, whose bits give the fields; a write is ignored; after reset
every field is 0. -/
theorem statusFields : Obligations.StatusFields := by
  have hW : ∀ p : Params, 8 ≤ p.W := fun p => by obtain h | h := Params.W_cases p <;> omega
  refine ⟨?_, fun p u v rest hs => step_write_ignored hs (by decide) rfl, ?_⟩
  · intro p u rest hs
    by_cases hf : u.inFlight = none
    · obtain ⟨hbusy, hc, hv, hzero⟩ := getLsbD_statusWord (hW p) false u.carry u.cfgValid u.err
      exact ⟨_, _, step_read_answer hs (readStatus_of_idle hf), rfl, hbusy.trans (by simp [hf]), fun _ => ⟨hc, hv⟩,
        fun h => absurd hf h, hzero, toNat_statusWord_div (hW p) _ _ _ _⟩
    · obtain ⟨hbusy, hc, hv, hzero⟩ :=
        getLsbD_statusWord (hW p) true (Config.freeBit u.draws) (Config.freeBit (u.draws + 1)) u.err
      have hstep := step_read_status hs
      rw [readStatus_of_busy hf] at hstep
      exact ⟨_, _, hstep, rfl, hbusy.trans (Option.isSome_iff_ne_none.mpr hf).symm, fun h => absurd h hf,
        fun _ => ⟨hc, hv, rfl⟩, hzero, toNat_statusWord_div (hW p) _ _ _ _⟩
  · rintro p u rfl
    have hzero : statusWord p.W false false false .noError = 0 := BitVec.eq_of_toNat_eq (toNat_statusWord (hW p) _ _ _ _)
    exact step_read_answer rfl (congrArg (Mau.answer _) hzero)

end Sys2Proof.Machine
end

section
/-!
The port (20_memory.md R41 to R48): what the address map names at each kind of address, the word and the draws of a read of each
target, idle and while `BUSY = 1`, and the writes that the port ignores.
-/

namespace Sys2Proof

/-! ### Single limbs -/

theorem LimbVec.limb_setLimb_self {W n j : Nat} (x : LimbVec W n) (w : BitVec W) (h : j < n) :
    (x.setLimb j w).limb j = w := by
  simp [LimbVec.limb, LimbVec.setLimb, x.length_eq, h]

theorem LimbVec.limb_setLimb_of_ne {W n j k : Nat} (x : LimbVec W n) (w : BitVec W) (h : k ≠ j) :
    (x.setLimb j w).limb k = x.limb k := by
  simp [LimbVec.limb, LimbVec.setLimb, List.getElem?_set_ne h.symm]

end Sys2Proof

namespace Sys2Proof.Machine

variable {p : Params}

/-! ### The address map (R41) -/

/-- The spec's reserved addresses are those at which the map names nothing. -/
theorem target_of_reserved {N : Nat} {a : BitVec 16} (hN : N ≤ 64) (h : ReservedAddress N a.toNat) :
    target N a = .reserved := by
  unfold ReservedAddress at h
  simp only [target]
  rw [if_neg (by omega), if_neg (by omega), if_neg (by omega), if_neg (by omega), if_neg (by omega), if_neg (by omega),
    if_neg (by omega), if_neg (by omega), if_neg (by omega)]

theorem target_of_modRange {N : Nat} {a : BitVec 16} (hlow : 0x0100 ≤ a.toNat) (hhigh : a.toNat < 0x0100 + N) :
    target N a = .modLimb (a.toNat - 0x0100) := by
  simp only [target]
  rw [if_neg (by omega), if_neg (by omega), if_neg (by omega), if_neg (by omega), if_neg (by omega), if_neg (by omega),
    if_neg (by omega), if_pos ⟨hlow, hhigh⟩]

theorem target_modAddress {N j : Nat} (hN : N ≤ 64) (hj : j < N) :
    target N (BitVec.ofNat 16 (0x0100 + j)) = .modLimb j := by
  have ha : (BitVec.ofNat 16 (0x0100 + j)).toNat = 0x0100 + j := by
    rw [BitVec.toNat_ofNat]
    omega
  rw [target_of_modRange (by omega) (by omega), ha, Nat.add_sub_cancel_left]

/-! ### Writes that the port ignores (R43) -/

/-- The targets whose writes have no effect: the read-only registers and the reserved addresses. -/
def Target.ignoresWrites : Target → Bool
  | .id | .status | .errinfo | .sparebits | .m0ninv | .modLimb _ | .reserved => true
  | .cmd | .errclr | .regLimb _ _ => false

theorem portWrite_of_ignoresWrites {u : Mau p} {a : BitVec 16} (h : (target p.N a).ignoresWrites = true)
    (v : BitVec p.W) : u.portWrite a v = u := by
  unfold Mau.portWrite
  cases ht : target p.N a
  case cmd | errclr | regLimb => simp [ht, Target.ignoresWrites] at h
  all_goals rfl

/-- An address at which the map names anything but CMD is not CMD's. -/
theorem ne_cmdAddr_of_target {N : Nat} {a : BitVec 16} (h : target N a ≠ .cmd) : a ≠ cmdAddr := by
  rintro rfl
  exact h rfl

theorem ignoresWrites_of_address {N : Nat} {a : BitVec 16} (hN : N ≤ 64)
    (h : ReservedAddress N a.toNat ∨ a.toNat ∈ [0x0000, 0x0001, 0x0004, 0x0005, 0x0006] ∨
      (0x0100 ≤ a.toNat ∧ a.toNat < 0x0100 + N)) : (target N a).ignoresWrites = true := by
  obtain hres | hreg | ⟨hlow, hhigh⟩ := h
  · rw [target_of_reserved hN hres]
    rfl
  · simp only [List.mem_cons, List.not_mem_nil, or_false] at hreg
    obtain h | h | h | h | h := hreg <;> simp [target, h, Target.ignoresWrites]
  · rw [target_of_modRange hlow hhigh]
    rfl

/-- Settles O19: the map names nothing at a reserved address, and a write there or to a read-only register is one the port ignores. -/
theorem reservedAndReadOnlyAddresses : Obligations.ReservedAndReadOnlyAddresses := by
  constructor
  · intro p u a rest ha hs
    refine step_read_answer hs ?_
    rw [Mau.portRead, target_of_reserved p.le_max ha]
    rfl
  · intro p u a v rest ha hs
    have hign := ignoresWrites_of_address p.le_max ha
    have hcmd : target p.N a ≠ .cmd := fun h => by simp [h, Target.ignoresWrites] at hign
    exact step_write_ignored hs (ne_cmdAddr_of_target hcmd) (portWrite_of_ignoresWrites hign v)

/-! ### Reads (R44) -/

/-- The word that a target reads as while nothing is in flight. -/
def Mau.idleWord (u : Mau p) : Target → BitVec p.W
  | .id => idWord p
  | .status => statusWord p.W false u.carry u.cfgValid u.err
  | .cmd | .errclr | .reserved => 0#p.W
  | .errinfo => u.errInfo
  | .sparebits => u.spareBits
  | .m0ninv => u.m0ninv
  | .modLimb j => u.modulus.limb j
  | .regLimb r j => (u.reg r).limb j

theorem portRead_of_idle {u : Mau p} (h : u.inFlight = none) (a : BitVec 16) :
    u.portRead a = u.answer (u.idleWord (target p.N a)) := by
  have hfree : ∀ w, u.answerUnlessBusy w = u.answer w := fun w => by simp [Mau.answerUnlessBusy, Mau.busy_eq, h]
  unfold Mau.portRead
  cases target p.N a
  case status => exact readStatus_of_idle h
  case sparebits | m0ninv | modLimb | regLimb => exact hfree _
  all_goals rfl

/-- Settles O20: an idle read answers the word of the target that the map names, and each clause says which target that is. -/
theorem idleReadsAreExact : Obligations.IdleReadsAreExact := by
  intro p u a rest hf hs
  refine ⟨u.idleWord (target p.N a), step_read_answer hs (portRead_of_idle hf a), ?_, ?_, ?_, ?_, ?_, ?_, ?_⟩
  · rintro (rfl | rfl) <;> rfl
  · rintro rfl
    rfl
  · rintro rfl
    rfl
  · rintro rfl
    rfl
  · rintro j hj rfl
    rw [target_modAddress p.le_max hj, Mau.idleWord]
  · rintro r j hj rfl
    rw [target_regAddress r p.le_max hj, Mau.idleWord]
  · intro ha
    rw [target_of_reserved p.le_max ha]
    rfl

/-- The word that a target reads as while a command is in flight. -/
def Mau.busyWord (u : Mau p) : Target → BitVec p.W
  | .id => idWord p
  | .status => statusWord p.W true (Config.freeBit u.draws) (Config.freeBit (u.draws + 1)) u.err
  | .cmd | .errclr | .reserved => 0#p.W
  | .errinfo => u.errInfo
  | .sparebits | .m0ninv | .modLimb _ | .regLimb _ _ => Config.freeWord p.W u.draws

/-- How many free values a read of a target draws while a command is in flight (log entry 6). -/
def Target.busyDraws : Target → Nat
  | .id | .cmd | .errclr | .errinfo | .reserved => 0
  | .status => 2
  | .sparebits | .m0ninv | .modLimb _ | .regLimb _ _ => 1

theorem portRead_of_busy {u : Mau p} (h : u.inFlight ≠ none) (a : BitVec 16) :
    u.portRead a =
      { u with draws := u.draws + (target p.N a).busyDraws }.answer (u.busyWord (target p.N a)) := by
  have hfree : ∀ w, u.answerUnlessBusy w = { u with draws := u.draws + 1 }.answer (Config.freeWord p.W u.draws) :=
    fun w => by simp [Mau.answerUnlessBusy, Mau.busy_eq, Option.isSome_iff_ne_none.mpr h, Mau.drawWord]
  unfold Mau.portRead
  cases target p.N a
  case status => exact readStatus_of_busy h
  case sparebits | m0ninv | modLimb | regLimb => exact hfree _
  all_goals rfl

theorem step_read_of_busy {u : Mau p} {a : BitVec 16} {rest : List (Event p)} (h : u.inFlight ≠ none)
    (hs : u.script = .read a :: rest) :
    step ⟨p, u⟩ = .next ⟨p, { u with
      readData := some (u.busyWord (target p.N a)), script := rest, draws := u.draws + (target p.N a).busyDraws }⟩ := by
  rw [step_read hs, portRead_of_busy h, pop_of_script_cons (rest := rest) (by exact hs)]
  rfl

/-- Settles O21: a read while `BUSY = 1` answers the word of the target that the map names, and each clause says which target that
is. -/
theorem busyReadsHaveNoSideEffect : Obligations.BusyReadsHaveNoSideEffect := by
  intro p u a rest hf hs
  refine ⟨_, _, step_read_of_busy hf hs, ?_, ?_, ?_, ?_, ?_⟩
  · rintro rfl
    exact toNat_idWord p
  · rintro rfl
    rfl
  · rintro (rfl | rfl) <;> rfl
  · intro ha
    rw [target_of_reserved p.le_max ha]
    rfl
  · rintro (rfl | rfl | ⟨j, hj, rfl⟩ | ⟨r, j, hj, rfl⟩)
    · exact ⟨rfl, rfl⟩
    · exact ⟨rfl, rfl⟩
    · rw [target_modAddress p.le_max hj]
      exact ⟨rfl, rfl⟩
    · rw [target_regAddress r p.le_max hj]
      exact ⟨rfl, rfl⟩

/-! ### Operand writes (R45, R47) -/

/-- An idle write to a register's limb writes that limb. -/
theorem step_write_limb {u : Mau p} {r : RegNum} {j : Nat} {v : BitVec p.W} {rest : List (Event p)} (hj : j < p.N)
    (hf : u.inFlight = none) (hs : u.script = .write (regAddress r j) v :: rest) :
    step ⟨p, u⟩ = .next ⟨p, { u.setReg r ((u.reg r).setLimb j v) with script := rest }⟩ := by
  have ht : target p.N (regAddress r j) = .regLimb r j := target_regAddress r p.le_max hj
  have hw : u.portWrite (regAddress r j) v = u.setReg r ((u.reg r).setLimb j v) := by
    simp [Mau.portWrite, ht, Mau.busy_eq, hf]
  rw [step_write hs (ne_cmdAddr_of_target (N := p.N) (by simp [ht])), hw, pop_of_script_cons (rest := rest) (by exact hs)]

/-- Settles O24: the write sets one limb of one register, and the next read of its address is an idle read of that limb. -/
theorem operandWriteThenRead : Obligations.OperandWriteThenRead := by
  intro p u r j v rest hj hf hs
  have hlimb : ((u.setReg r ((u.reg r).setLimb j v)).reg r).limb j = v := by
    rw [Mau.reg_setReg_self, LimbVec.limb_setLimb_self _ _ hj]
  refine ⟨_, step_write_limb hj hf hs, rfl, hlimb, ?_, ?_, ?_⟩
  · intro k hk
    exact (congrArg (LimbVec.limb · k) (Mau.reg_setReg_self u r _)).trans (LimbVec.limb_setLimb_of_ne _ _ hk)
  · intro q hq
    exact Mau.reg_setReg_of_ne u hq _
  · rintro rest' rfl
    refine step_read_answer rfl ((portRead_of_idle (by exact hf) _).trans (congrArg _ ?_))
    rw [target_regAddress r p.le_max hj]
    exact hlimb

end Sys2Proof.Machine
end

section
/-!
Encoding (30_encoding.md R61 to R66): the five fields of a word as numbers, the decoder said once as what the fields must be, and the
obligations on decoding and encoding.
-/

namespace Sys2Proof

/-! ### The fields of a word (R61, R62) -/

theorem toNat_opcField (v : BitVec 64) : (opcField v).toNat = v.toNat % 256 := by
  simp [opcField]

theorem val_rdField (v : BitVec 64) : (rdField v).val = v.toNat / 256 % 16 := by
  simp [rdField, Nat.shiftRight_eq_div_pow]

theorem val_raField (v : BitVec 64) : (raField v).val = v.toNat / 4096 % 16 := by
  simp [raField, Nat.shiftRight_eq_div_pow]

theorem val_rbField (v : BitVec 64) : (rbField v).val = v.toNat / 65536 % 16 := by
  simp [rbField, Nat.shiftRight_eq_div_pow]

theorem toNat_rsvField (v : BitVec 64) : (rsvField v).toNat = v.toNat / 2 ^ 20 := by
  have hv := v.isLt
  simp only [rsvField, BitVec.extractLsb'_toNat, Nat.shiftRight_eq_div_pow]
  omega

/-- A word is its five fields. -/
theorem word_eq_iff {v w : BitVec 64} :
    v = w ↔ rsvField v = rsvField w ∧ opcField v = opcField w ∧ rdField v = rdField w ∧ raField v = raField w ∧
      rbField v = rbField w := by
  simp only [← BitVec.toNat_inj, Fin.ext_iff, toNat_rsvField, toNat_opcField, val_rdField, val_raField, val_rbField]
  omega

/-- The fields of a word that is put together from them, with no reserved bit (R61). -/
theorem fields_of_toNat {v : BitVec 64} {opc : BitVec 8} {rd ra rb : RegNum}
    (h : v.toNat = opc.toNat + 256 * rd.val + 4096 * ra.val + 65536 * rb.val) :
    rsvField v = 0 ∧ opcField v = opc ∧ rdField v = rd ∧ raField v = ra ∧ rbField v = rb := by
  have hopc := opc.isLt
  have hrd := rd.isLt
  have hra := ra.isLt
  have hrb := rb.isLt
  simp only [← BitVec.toNat_inj, Fin.ext_iff, toNat_rsvField, toNat_opcField, val_rdField, val_raField, val_rbField, h,
    BitVec.ofNat_eq_ofNat, BitVec.toNat_ofNat]
  omega

/-- The fields of a command's word (R61, R69). -/
theorem fields_encode (i : Instr) :
    rsvField ((encode i).setWidth 64) = 0 ∧ opcField ((encode i).setWidth 64) = i.opcode ∧
      rdField ((encode i).setWidth 64) = i.rd ∧ raField ((encode i).setWidth 64) = i.ra ∧
      rbField ((encode i).setWidth 64) = i.rb :=
  fields_of_toNat ((BitVec.toNat_setWidth_of_le (by decide)).trans (Laws.CommandWord.statement_of i).1)

/-! ### The decoder (R63 to R66) -/

/-- The register fields that a format does not use are 0 (R63); every format uses `RA` (R64). -/
abbrev Format.UnusedZero (f : Format) (rd rb : RegNum) : Prop :=
  (f.rdKind = .unused → rd = 0) ∧ (f.rbKind = .unused → rb = 0)

/-- The command of the same row of the opcode table with other register fields; a field that its format does not use is dropped. -/
def Instr.withFields (rd ra rb : RegNum) : Instr → Instr
  | .add _ _ _ => .add rd ra rb
  | .adc _ _ _ => .adc rd ra rb
  | .sub _ _ _ => .sub rd ra rb
  | .sbb _ _ _ => .sbb rd ra rb
  | .cmov _ _ _ => .cmov rd ra rb
  | .caddm _ _ => .caddm rd ra
  | .csubm _ _ => .csubm rd ra
  | .finsub _ _ => .finsub rd ra
  | .finsubc _ _ => .finsubc rd ra
  | .mulraw _ _ _ => .mulraw rd ra rb
  | .sqrraw _ _ => .sqrraw rd ra
  | .mullo _ _ _ => .mullo rd ra rb
  | .addmod _ _ _ => .addmod rd ra rb
  | .submod _ _ _ => .submod rd ra rb
  | .addmodd _ _ _ => .addmodd rd ra rb
  | .submodd _ _ _ => .submodd rd ra rb
  | .mredc _ _ => .mredc rd ra
  | .mmul _ _ _ => .mmul rd ra rb
  | .mmulnf _ _ _ => .mmulnf rd ra rb
  | .msqr _ _ => .msqr rd ra
  | .msqrnf _ _ => .msqrnf rd ra
  | .setmod _ _ => .setmod ra rb

@[simp] theorem Instr.opcode_withFields (i : Instr) (rd ra rb : RegNum) : (i.withFields rd ra rb).opcode = i.opcode := by
  cases i <;> rfl

theorem Instr.withFields_self (i : Instr) : i.withFields i.rd i.ra i.rb = i := by
  cases i <;> rfl

theorem Instr.unusedZero (i : Instr) : i.format.UnusedZero i.rd i.rb := by
  cases i <;> exact ⟨by simp [Instr.format, Format.rdKind, Instr.rd], by simp [Instr.format, Format.rbKind, Instr.rb]⟩

theorem Instr.fields_withFields (i : Instr) {rd ra rb : RegNum} (h : i.format.UnusedZero rd rb) :
    (i.withFields rd ra rb).rd = rd ∧ (i.withFields rd ra rb).ra = ra ∧ (i.withFields rd ra rb).rb = rb := by
  obtain ⟨hrd, hrb⟩ := h
  cases i
  case setmod => exact ⟨(hrd rfl).symm, rfl, rfl⟩
  case caddm | csubm | finsub | finsubc | sqrraw | mredc | msqr | msqrnf => exact ⟨rfl, rfl, (hrb rfl).symm⟩
  all_goals exact ⟨rfl, rfl, rfl⟩

/-- A word with a command's opcode is the command of that row with the word's register fields, unless a field that the format does not
use is set (R63, R65). -/
theorem decodeFields_of_opcode {v : BitVec 64} {i : Instr} (h : opcField v = i.opcode) :
    decodeFields v = if i.format.UnusedZero (rdField v) (rbField v)
      then .ok (i.withFields (rdField v) (raField v) (rbField v)) else .error .unusedField := by
  unfold decodeFields
  cases i <;>
    simp [h, Instr.opcode, decode3, decode2, decodeC, Instr.withFields, Instr.format, Format.UnusedZero, Format.rdKind,
      Format.rbKind]

theorem decode_of_opcode {v : BitVec 64} {i : Instr} (hrsv : rsvField v = 0) (h : opcField v = i.opcode) :
    decode v = if i.format.UnusedZero (rdField v) (rbField v)
      then .ok (i.withFields (rdField v) (raField v) (rbField v)) else .error .unusedField := by
  rw [decode, if_pos hrsv, decodeFields_of_opcode h]

/-- A word whose opcode is not in the table is no command (R66). -/
theorem decodeFields_of_undefined {v : BitVec 64} (h : (opcField v).toNat ∉ definedOpcodes) :
    decodeFields v = .error .undefinedOpcode := by
  unfold decodeFields
  split <;> simp_all [definedOpcodes]

/-- The commands of the table's rows, with every register field 0. -/
def rowCommands : List Instr :=
  [.add 0 0 0, .adc 0 0 0, .sub 0 0 0, .sbb 0 0 0, .cmov 0 0 0, .caddm 0 0, .csubm 0 0, .finsub 0 0, .finsubc 0 0,
   .mulraw 0 0 0, .sqrraw 0 0, .mullo 0 0 0, .addmod 0 0 0, .submod 0 0 0, .addmodd 0 0 0, .submodd 0 0 0,
   .mredc 0 0, .mmul 0 0 0, .mmulnf 0 0 0, .msqr 0 0, .msqrnf 0 0, .setmod 0 0]

/-- The defined opcodes are those of the commands. -/
theorem mem_definedOpcodes_iff {o : Nat} : o ∈ definedOpcodes ↔ ∃ i : Instr, i.opcode.toNat = o := by
  have hrows : definedOpcodes = rowCommands.map fun i => i.opcode.toNat := by decide
  constructor
  · rw [hrows, List.mem_map]
    rintro ⟨i, -, hi⟩
    exact ⟨i, hi⟩
  · rintro ⟨i, rfl⟩
    cases i <;> simp [definedOpcodes, Instr.opcode]

/-- What the decoder says, as what each field of the word must be. -/
theorem decode_eq_ok_iff {v : BitVec 64} {i : Instr} :
    decode v = .ok i ↔
      rsvField v = 0 ∧ opcField v = i.opcode ∧ rdField v = i.rd ∧ raField v = i.ra ∧ rbField v = i.rb := by
  unfold decode
  constructor
  · intro h
    split at h
    case isFalse => cases h
    case isTrue hrsv =>
    by_cases hdef : (opcField v).toNat ∈ definedOpcodes
    · obtain ⟨j, hj⟩ := mem_definedOpcodes_iff.mp hdef
      have hopc : opcField v = j.opcode := (BitVec.eq_of_toNat_eq hj).symm
      rw [decodeFields_of_opcode hopc] at h
      split at h
      case isFalse => cases h
      case isTrue hzero =>
      obtain rfl := Except.ok.inj h
      obtain ⟨hrd, hra, hrb⟩ := j.fields_withFields (ra := raField v) hzero
      exact ⟨hrsv, hopc.trans (j.opcode_withFields _ _ _).symm, hrd.symm, hra.symm, hrb.symm⟩
    · rw [decodeFields_of_undefined hdef] at h
      cases h
  · rintro ⟨hrsv, hopc, hrd, hra, hrb⟩
    rw [if_pos hrsv, decodeFields_of_opcode hopc, hrd, hra, hrb, if_pos i.unusedZero, i.withFields_self]

/-- Decoding and encoding are inverse: a word means command `i` exactly when it is `i`'s word. -/
theorem decode_eq_ok_iff_eq_encode {v : BitVec 64} {i : Instr} : decode v = .ok i ↔ v = (encode i).setWidth 64 := by
  obtain ⟨hrsv, hopc, hrd, hra, hrb⟩ := fields_encode i
  rw [decode_eq_ok_iff, word_eq_iff, hrsv, hopc, hrd, hra, hrb]

/-- Settles O1: the command's word has the fields that the decoder asks for. -/
theorem decodeReturnsEncodedCommand : Obligations.DecodeReturnsEncodedCommand :=
  fun _ => decode_eq_ok_iff_eq_encode.mpr rfl

/-- Settles O2: the fields that the decoder asks for leave no other word. -/
theorem encodeReturnsDecodedWord : Obligations.EncodeReturnsDecodedWord :=
  fun _ _ h => (decode_eq_ok_iff_eq_encode.mp h).symm

/-! ### The opcode table (R64, R65) -/

/-- A word is a command of `j`'s row exactly when it has its opcode, no reserved bit, and 0 in the fields its format does not use. -/
theorem exists_decode_of_row_iff {v : BitVec 64} {j : Instr} :
    (∃ i, decode v = .ok i ∧ i.opcode = j.opcode) ↔
      rsvField v = 0 ∧ opcField v = j.opcode ∧ j.format.UnusedZero (rdField v) (rbField v) := by
  constructor
  · rintro ⟨i, hi, hopc⟩
    obtain ⟨hrsv, hopci, -⟩ := decode_eq_ok_iff.mp hi
    have hopcj := hopci.trans hopc
    refine ⟨hrsv, hopcj, ?_⟩
    by_contra hzero
    rw [decode_of_opcode hrsv hopcj, if_neg hzero] at hi
    cases hi
  · rintro ⟨hrsv, hopc, hzero⟩
    exact ⟨_, (decode_of_opcode hrsv hopc).trans (if_pos hzero), j.opcode_withFields _ _ _⟩

/-- The bits of a register field that the table's mask holds: all of a field that the format does not use. -/
def FieldKind.mask : FieldKind → BitVec 4
  | .V | .P => 0
  | .unused => BitVec.allOnes 4

/-- The mask of a format's rows: the reserved bits, the unused register fields and `OPC`. -/
def Format.mask (f : Format) : BitVec 32 :=
  BitVec.allOnes 12 ++ f.rbKind.mask ++ f.raKind.mask ++ f.rdKind.mask ++ BitVec.allOnes 8

/-- The opcode table is the opcodes of the commands and the masks of their formats. -/
theorem opcodeRows_eq : opcodeRows = rowCommands.map fun i => (i.opcode.setWidth 32, i.format.mask) := by
  decide

/-- A register field under a mask. -/
theorem FieldKind.and_mask (k : FieldKind) (x : BitVec 4) :
    (x &&& k.mask).toFin = if k = .unused then x.toFin else 0 := by
  cases k
  case unused => exact congrArg BitVec.toFin BitVec.and_allOnes
  all_goals exact congrArg BitVec.toFin BitVec.and_zero

/-- A word under a row's mask, field by field. -/
theorem fields_and_mask (v : BitVec 64) (f : Format) :
    rsvField (v &&& (BitVec.allOnes 32 ++ f.mask)) = rsvField v ∧
      opcField (v &&& (BitVec.allOnes 32 ++ f.mask)) = opcField v ∧
      rdField (v &&& (BitVec.allOnes 32 ++ f.mask)) = (if f.rdKind = .unused then rdField v else 0) ∧
      raField (v &&& (BitVec.allOnes 32 ++ f.mask)) = (if f.raKind = .unused then raField v else 0) ∧
      rbField (v &&& (BitVec.allOnes 32 ++ f.mask)) = (if f.rbKind = .unused then rbField v else 0) := by
  obtain ⟨hrsv, hopc, hrd, hra, hrb⟩ :
      (BitVec.allOnes 32 ++ f.mask).extractLsb' 20 44 = BitVec.allOnes 44 ∧
        (BitVec.allOnes 32 ++ f.mask).extractLsb' 0 8 = BitVec.allOnes 8 ∧
        (BitVec.allOnes 32 ++ f.mask).extractLsb' 8 4 = f.rdKind.mask ∧
        (BitVec.allOnes 32 ++ f.mask).extractLsb' 12 4 = f.raKind.mask ∧
        (BitVec.allOnes 32 ++ f.mask).extractLsb' 16 4 = f.rbKind.mask := by
    cases f <;> decide
  simp only [rsvField, opcField, rdField, raField, rbField, BitVec.extractLsb'_and, hrsv, hopc, hrd, hra, hrb,
    BitVec.and_allOnes, FieldKind.and_mask, true_and]

/-- A match value is an opcode with nothing above it. -/
theorem fields_opcode (o : BitVec 8) :
    rsvField ((o.setWidth 32).setWidth 64) = 0 ∧ opcField ((o.setWidth 32).setWidth 64) = o ∧
      rdField ((o.setWidth 32).setWidth 64) = 0 ∧ raField ((o.setWidth 32).setWidth 64) = 0 ∧
      rbField ((o.setWidth 32).setWidth 64) = 0 :=
  fields_of_toNat ((BitVec.toNat_setWidth_of_le (by decide)).trans (BitVec.toNat_setWidth_of_le (by decide)))

theorem Format.raKind_ne_unused (f : Format) : f.raKind ≠ .unused := by
  cases f <;> decide

/-- A word matches a row under its mask exactly when it has the opcode, no reserved bit, and 0 in the unused fields. -/
theorem and_mask_eq_iff {v : BitVec 64} {f : Format} {o : BitVec 8} :
    v &&& (BitVec.allOnes 32 ++ f.mask) = (o.setWidth 32).setWidth 64 ↔
      rsvField v = 0 ∧ opcField v = o ∧ f.UnusedZero (rdField v) (rbField v) := by
  obtain ⟨hrsv, hopc, hrd, hra, hrb⟩ := fields_and_mask v f
  obtain ⟨hrsv', hopc', hrd', hra', hrb'⟩ := fields_opcode o
  rw [word_eq_iff, hrsv, hopc, hrd, hra, hrb, hrsv', hopc', hrd', hra', hrb']
  simp [f.raKind_ne_unused]

/-- Settles O3: a row is a command's opcode with its format's mask, and both sides ask the same of the word's fields. -/
theorem decoderFollowsOpcodeTable : Obligations.DecoderFollowsOpcodeTable := by
  intro row hrow v
  rw [opcodeRows_eq, List.mem_map] at hrow
  obtain ⟨j, -, rfl⟩ := hrow
  have hwiden : ∀ i : Instr, i.opcode.setWidth 32 = j.opcode.setWidth 32 ↔ i.opcode = j.opcode := by
    intro i
    have hi := i.opcode.isLt
    have hj := j.opcode.isLt
    simp only [← BitVec.toNat_inj, BitVec.toNat_setWidth]
    omega
  simp only [hwiden]
  rw [exists_decode_of_row_iff, and_mask_eq_iff]

/-! ### Illegal words (R62, R63, R66) -/

theorem Instr.opcode_mem_opcodesWithoutRb_iff (i : Instr) :
    i.opcode.toNat ∈ opcodesWithoutRb ↔ i.format.rbKind = .unused := by
  cases i <;> simp [Instr.opcode, opcodesWithoutRb, Instr.format, Format.rbKind]

theorem Instr.opcode_eq_setmod_iff (i : Instr) : i.opcode.toNat = 0x60 ↔ i.format.rdKind = .unused := by
  cases i <;> simp [Instr.opcode, Instr.format, Format.rdKind]

/-- The spec's illegal words are those that the decoder gives no command. -/
theorem not_illegalWord_iff {v : BitVec 64} : ¬ IllegalWord v.toNat ↔ ∃ i, decode v = .ok i := by
  constructor
  · intro h
    simp only [IllegalWord, not_or, not_and_or, not_not] at h
    obtain ⟨hlt, hdef, hrb, hrd⟩ := h
    obtain ⟨j, hj⟩ := mem_definedOpcodes_iff.mp hdef
    have hrsv : rsvField v = 0 :=
      BitVec.eq_of_toNat_eq ((toNat_rsvField v).trans (Nat.div_eq_of_lt (Nat.lt_of_not_le hlt)))
    have hopc : opcField v = j.opcode := BitVec.eq_of_toNat_eq ((toNat_opcField v).trans hj.symm)
    rw [← hj, j.opcode_mem_opcodesWithoutRb_iff, ← val_rbField] at hrb
    rw [← hj, j.opcode_eq_setmod_iff, ← val_rdField] at hrd
    have hzero : j.format.UnusedZero (rdField v) (rbField v) :=
      ⟨fun hk => Fin.ext (hrd.resolve_left (not_not_intro hk)), fun hk => Fin.ext (hrb.resolve_left (not_not_intro hk))⟩
    exact ⟨_, (decode_of_opcode hrsv hopc).trans (if_pos hzero)⟩
  · rintro ⟨i, hi⟩
    obtain ⟨hrsv, hopc, hrd, -, hrb⟩ := decode_eq_ok_iff.mp hi
    obtain ⟨hzrd, hzrb⟩ := i.unusedZero
    have hopc' : v.toNat % 256 = i.opcode.toNat := (toNat_opcField v).symm.trans (congrArg BitVec.toNat hopc)
    have hlt : v.toNat / 2 ^ 20 = 0 := (toNat_rsvField v).symm.trans (congrArg BitVec.toNat hrsv)
    rw [IllegalWord, hopc', i.opcode_mem_opcodesWithoutRb_iff, i.opcode_eq_setmod_iff, ← val_rbField, ← val_rdField,
      hrd, hrb]
    rintro (h | h | ⟨hk, h⟩ | ⟨hk, h⟩)
    · omega
    · exact h (mem_definedOpcodes_iff.mpr ⟨i, rfl⟩)
    · exact h (congrArg Fin.val (hzrb hk))
    · exact h (congrArg Fin.val (hzrd hk))

end Sys2Proof
end

section
/-!
A command's issue (30_encoding.md R60, R66; 10_state.md R31): a CMD write runs the command its word is or raises EILL, and what an issued
command latches.
-/

namespace Sys2Proof.Machine

variable {p : Params}

/-- Settles O11: both sides are the command's issue, or both its completion. -/
theorem stepRunsDecodedCommand : Obligations.StepRunsDecodedCommand := fun _ _ =>
  ⟨fun _ _ hw hd => (step_issue hw hd).trans (exec_cmdWrite hw hd).symm,
    fun _ hc => (step_completion hc).trans (exec_completing hc rfl).symm⟩

theorem rejectWord_of_idle {u : Mau p} (h : u.inFlight = none) (v : BitVec p.W) :
    u.rejectWord v = u.raiseError .eill v := by
  simp [Mau.rejectWord, Mau.busy_eq, h]

/-- A CMD word keeps its number when it is given to the decoder (R61). -/
theorem toNat_decoderWord (v : BitVec p.W) : (v.setWidth 64).toNat = v.toNat := by
  have hW : p.W ≤ 64 := by obtain h | h := Params.W_cases p <;> omega
  exact BitVec.toNat_setWidth_of_le hW

/-- A CMD word is legal exactly when it is a command. -/
theorem not_illegalWord_cmd_iff {v : BitVec p.W} : ¬ IllegalWord v.toNat ↔ ∃ i, decode (v.setWidth 64) = .ok i := by
  rw [← toNat_decoderWord, not_illegalWord_iff]

/-- Settles O4: a word is illegal exactly when it does not decode; then the step rejects it, and else it runs the command. -/
theorem illegalWordsRaiseEill : Obligations.IllegalWordsRaiseEill := by
  intro p u v hw hf
  constructor
  · intro hill
    cases hd : decode (v.setWidth 64) with
    | ok i => exact absurd hill (not_illegalWord_cmd_iff.mpr ⟨i, hd⟩)
    | error e =>
      have hstep := step_reject hw hd
      rw [rejectWord_of_idle hf] at hstep
      exact ⟨_, hstep, recorded_raiseError u .eill v⟩
  · intro hlegal
    obtain ⟨i, hd⟩ := not_illegalWord_cmd_iff.mp hlegal
    exact ⟨i, hd, (stepRunsDecodedCommand p u).1 v i hw hd⟩

/-- A completion statement is a statement about the command's effect: the frame holds of every command. -/
theorem completesWith_of_effectOf {i : Instr} {pre : (p : Params) → Latch p → Mau p → Prop}
    {post : (p : Params) → Latch p → Mau p → Mau p → Prop}
    (h : ∀ (p : Params) (l : Latch p) (u : Mau p), pre p l u → post p l u (effectOf i l u).finish.pop) :
    CompletesWith i i.dests pre post := fun p u l hc hcmd hpre =>
  ⟨_, exec_completing hc hcmd, h p l u hpre, completionFrame_effectOf i l u⟩

/-! ### What an issued command latches (R60) -/

theorem source_of_V (u : Mau p) {k : FieldKind} (h : k = .V) (r : RegNum) : u.source k r = u.reg r := by
  subst h
  rfl

theorem join_source_of_P (u : Mau p) {k : FieldKind} (h : k = .P) (r : RegNum) :
    (u.source k r).join (u.sourceHi k r) = u.pair r := by
  subst h
  rfl

/-- Settles O14: with nothing in flight, what is in flight after the step was issued by it, and the latch takes each source field as its
kind says. -/
theorem issueLatchesOperands : Obligations.IssueLatchesOperands := by
  intro p u t i v hw hd hf hstep ht
  obtain ⟨v', i', hw', hd', hissued⟩ := (stepsTo_of_step hstep).issued_of_inFlight hf ht
  obtain rfl : v = v' := Option.some.inj (hw.symm.trans hw')
  obtain rfl : i = i' := Except.ok.inj (hd.symm.trans hd')
  rw [Issued] at hissued
  subst hissued
  exact ⟨u.latch i, rfl, rfl, rfl, fun h => source_of_V u h _, fun h => join_source_of_P u h _,
    fun h => source_of_V u h _, fun h => join_source_of_P u h _⟩

end Sys2Proof.Machine
end

section
/-!
The pseudo-instructions (30_encoding.md R70): with one value in both sources, CMOV copies it, SUB clears, and ADDMOD doubles it.
-/

namespace Sys2Proof.Machine

variable {p : Params}

/-- Selecting between a value and itself gives that value, whatever the flag. -/
theorem ctSelect_self {W n : Nat} (f : Bool) (x : LimbVec W n) : ctSelect f x x = x := by
  rw [selectByMask, ite_self]

/-- A value minus itself is 0, with no borrow. -/
theorem subChain_self {W n : Nat} (x : LimbVec W n) : (subChain x x false).1.val = 0 ∧ (subChain x x false).2 = false := by
  have hborrow : (subChain x x false).2 = false := by
    rw [← Bool.not_eq_true, subChain_borrow]
    simp
  have hval := subChain_value x x false
  rw [hborrow] at hval
  exact ⟨by simpa using hval, hborrow⟩

/-- A number below the modulus is the value of its limbs. -/
theorem val_ofNat_of_lt_M {u : Mau p} {x : Nat} (h : x < u.M) : (LimbVec.ofNat p.W p.N x).val = x := by
  rw [LimbVec.val_ofNat, Nat.mod_eq_of_lt (h.trans u.modulus.val_lt)]

/-- ADDMOD in its domain (R110). -/
theorem addmodEffect_of_lt (rd : RegNum) {l : Latch p} {u : Mau p} (ha : l.a.val < u.M) (hb : l.b.val < u.M) :
    addmodEffect rd l u = u.setReg rd (LimbVec.ofNat p.W p.N ((l.a.val + l.b.val) % u.M)) := by
  simp [addmodEffect, belowBoth, ha, hb, Mau.setRegIf, addModVal]

/-- Settles O41: each is its command by definition, whose completion keeps the frame, and the result is read off the effect. -/
theorem pseudoInstructions : Obligations.PseudoInstructions := by
  intro vd va
  refine ⟨⟨rfl, completesWith_of_effectOf (i := pseudoMov vd va) ?_⟩,
    ⟨rfl, completesWith_of_effectOf (i := pseudoZero vd) ?_⟩, ⟨rfl, completesWith_of_effectOf (i := pseudoMdbl vd va) ?_⟩⟩
  · intro p l u hab
    have hreg : (u.setReg vd (ctSelect l.c l.a l.b)).reg vd = l.a := by
      rw [Mau.reg_setReg_self, ← hab, ctSelect_self]
    exact ⟨hreg, rfl⟩
  · intro p l u hab
    obtain ⟨hval, hborrow⟩ := subChain_self l.a
    have hreg : ((u.setReg vd (subChain l.a l.b false).1).reg vd).val = 0 := by
      rw [Mau.reg_setReg_self, ← hab, hval]
    have hcarry : (subChain l.a l.b false).2 = false := by rw [← hab, hborrow]
    exact ⟨hreg, hcarry⟩
  · intro p l u hpre
    obtain ⟨hab, hlt⟩ := hpre
    have hreg : ((addmodEffect vd l u).reg vd).val = (l.a.val + l.b.val) % u.M := by
      rw [addmodEffect_of_lt vd hlt (hab ▸ hlt), Mau.reg_setReg_self, val_ofNat_of_lt_M (Nat.mod_lt _ (by omega))]
    rwa [← hab, ← Nat.two_mul] at hreg

end Sys2Proof.Machine
end

section
/-!
Montgomery reduction as arithmetic (45_montgomery.md R125): the Newton steps invert an odd modulus modulo `R`, so that the candidate is an
exact quotient, and the reduction is below `M` and congruent to `T·R⁻¹`.
-/

namespace Sys2Proof

/-! ### The inverse of the modulus modulo `R` (log entry 8) -/

/-- The difference that the model writes for `−x mod R`. -/
theorem natCast_sub_mod {R : Nat} (hR : 0 < R) (x : Nat) : ((R - x % R : Nat) : ZMod R) = -(x : ZMod R) := by
  rw [Nat.cast_sub (Nat.mod_lt x hR).le, ZMod.natCast_self, ZMod.natCast_mod, zero_sub]

/-- A Newton step squares the error of the inverse. -/
theorem one_sub_mul_invSteps_succ {R : Nat} (hR : 0 < R) (M k : Nat) :
    (1 - M * invSteps R M (k + 1) : ZMod R) = (1 - M * invSteps R M k) ^ 2 := by
  have hstep : (invSteps R M (k + 1) : ZMod R) = invSteps R M k * (2 + -(M * invSteps R M k)) := by
    simp only [invSteps, ZMod.natCast_mod, Nat.cast_mul, Nat.cast_add, natCast_sub_mod hR, Nat.cast_ofNat]
  rw [hstep]
  ring

theorem one_sub_mul_invSteps {R : Nat} (hR : 0 < R) (M k : Nat) :
    (1 - M * invSteps R M k : ZMod R) = (1 - M) ^ 2 ^ k := by
  induction k with
  | zero => simp [invSteps]
  | succ k ih => rw [one_sub_mul_invSteps_succ hR, ih, ← pow_mul, ← pow_succ]

/-- For an odd modulus the first error is even, and 12 squarings make it a multiple of `2^(2^12)`. -/
theorem mul_montInv {n M : Nat} (hn : n ≤ 2 ^ 12) (hM : M % 2 = 1) : (M * montInv (2 ^ n) M : ZMod (2 ^ n)) = 1 := by
  obtain ⟨j, hj⟩ : ∃ j, M = 2 * j + 1 := ⟨M / 2, by omega⟩
  have heven : (1 - M : ZMod (2 ^ n)) = 2 * -j := by
    rw [hj]
    push_cast
    ring
  have htwo : (2 : ZMod (2 ^ n)) ^ n = 0 := by exact_mod_cast ZMod.natCast_self (2 ^ n)
  have herror : (1 - M * montInv (2 ^ n) M : ZMod (2 ^ n)) = 0 := by
    rw [montInv, one_sub_mul_invSteps (Nat.two_pow_pos n), heven, mul_pow, pow_eq_zero_of_le hn htwo, zero_mul]
  exact (sub_eq_zero.mp herror).symm

theorem Params.radix_pos (p : Params) : 0 < p.radix := Nat.two_pow_pos _

/-- There are at most 64 limbs of 64 bits (R1, R2). -/
theorem Params.N_mul_W_le (p : Params) : p.N * p.W ≤ 2 ^ 12 := by
  have hN := p.le_max
  obtain h | h := p.W_cases <;> rw [h] <;> omega

/-! ### The candidate and the reduction -/

theorem montM_lt (p : Params) (M T : Nat) : montM p.radix M T < p.radix := Nat.mod_lt _ p.radix_pos

section
variable {p : Params} {M T : Nat} (hM : M % 2 = 1)
include hM

/-- `m(T)` makes `T + m(T)·M` a multiple of `R`. -/
theorem radix_dvd_add_montM_mul (T : Nat) : p.radix ∣ T + montM p.radix M T * M := by
  have hinv : (M * montInv p.radix M : ZMod p.radix) = 1 := mul_montInv p.N_mul_W_le hM
  rw [← ZMod.natCast_eq_zero_iff, montM]
  simp only [Nat.cast_add, Nat.cast_mul, ZMod.natCast_mod, natCast_sub_mod p.radix_pos]
  linear_combination -(T : ZMod p.radix) * hinv

/-- The candidate is the exact quotient. -/
theorem cand_mul_radix (T : Nat) : cand p.radix M T * p.radix = T + montM p.radix M T * M :=
  Nat.div_mul_cancel (radix_dvd_add_montM_mul hM T)

theorem cand_mul_radix_mod (T : Nat) : cand p.radix M T * p.radix % M = T % M := by
  rw [cand_mul_radix hM, Nat.add_mul_mod_self_right]

theorem redc_mul_radix_mod (T : Nat) : redc p.radix M T * p.radix % M = T % M := by
  unfold redc
  split
  case isFalse => exact cand_mul_radix_mod hM T
  case isTrue hle =>
    rw [Nat.sub_mul, ← cand_mul_radix_mod hM T]
    exact Nat.sub_mul_mod (Nat.mul_le_mul_right p.radix hle)

end

/-- In the domain the candidate is below `2M`. -/
theorem cand_lt {p : Params} {M T : Nat} (hT : T < M * p.radix) : cand p.radix M T < 2 * M := by
  have hm : montM p.radix M T * M ≤ p.radix * M := Nat.mul_le_mul_right M (montM_lt p M T).le
  refine Nat.div_lt_of_lt_mul ?_
  linarith

theorem redc_lt {p : Params} {M T : Nat} (hT : T < M * p.radix) : redc p.radix M T < M := by
  have hcand := cand_lt hT
  unfold redc
  split <;> omega

end Sys2Proof
end

section
/-!
A Montgomery multiplication (45_montgomery.md R121): what its effect writes in the domain, and its two steps from the port to the result.
-/

namespace Sys2Proof.Machine

variable {p : Params}

/-- The Montgomery multiplications' domain check passes in the domain of R126. -/
theorem mulDomain_eq_true {u : Mau p} {a b : Nat} (h : InMulDomain u a b) :
    mulDomain u.M u.spareBits.toNat a b = true := by
  simpa [InMulDomain, mulDomain, and_assoc] using h

/-- MMUL writes the reduced product of operands in its domain, when that product is in the domain of the reduction. -/
theorem val_reg_mmulEffect (rd : RegNum) {l : Latch p} {u : Mau p} (h : InMulDomain u l.a.val l.b.val)
    (hT : l.a.val * l.b.val < u.M * p.radix) :
    ((mmulEffect rd l u).reg rd).val = redc p.radix u.M (l.a.val * l.b.val) := by
  rw [mmulEffect, mulDomain_eq_true h, Mau.setRegIf, if_pos rfl, Mau.reg_setReg_self, val_ofNat_of_lt_M (redc_lt hT)]

theorem mul_lt_M_mul_radix {u : Mau p} {a b : Nat} (ha : a < u.M) (hb : b < u.M) : a * b < u.M * p.radix :=
  Nat.mul_lt_mul'' ha (hb.trans u.modulus.val_lt)

/-- A CMD write of a command that passes its checks latches it. -/
theorem step_issue_of_passes {u : Mau p} {v : BitVec p.W} {i : Instr} (hw : u.cmdWrite = some v)
    (hd : decode (v.setWidth 64) = .ok i) (hi : u.issueError i = none) :
    step ⟨p, u⟩ = .next ⟨p, { u with inFlight := some (u.latch i) }.pop⟩ := by
  rw [step_issue hw hd, Mau.issue, hi]

/-- Settles O58: the write latches the command, the Unit's turn completes it on the latched values, and the reduction is congruent to the
product by the arithmetic of R125. -/
theorem mmulFromPortToResult : Obligations.MmulFromPortToResult := by
  intro p u rd ra rb v rest hinv hcfg hf hv hs ha hb
  have hw : u.cmdWrite = some v := by simp [Mau.cmdWrite, hs]
  have hpasses : u.issueError (.mmul rd ra rb) = none :=
    (issueError_eq_none_iff u _).mpr ⟨hf, ⟨rfl, rfl⟩, fun _ => hcfg, rfl⟩
  have hissue := step_issue_of_passes hw (decode_eq_ok_iff_eq_encode.mpr hv) hpasses
  set l := u.latch (.mmul rd ra rb)
  set t1 : Mau p := { u with inFlight := some l }.pop
  have hc : t1.completing = some l := by simp [Mau.completing, t1, hs]
  have hT := mul_lt_M_mul_radix ha hb
  have hval : ((mmulEffect rd l t1).reg rd).val = redc p.radix u.M ((u.reg ra).val * (u.reg rb).val) :=
    val_reg_mmulEffect rd (.inl ⟨ha, hb⟩) hT
  obtain ⟨hodd, -, -⟩ := hinv.config hcfg
  obtain ⟨hregs, herr, hinfo, hflight, hscript, -⟩ := completionFrame_effectOf (.mmul rd ra rb) l t1
  obtain ⟨hmodulus, hm0ninv, hspare, hvalid⟩ := sameConfig_effectOf (i := .mmul rd ra rb) nofun l t1
  refine ⟨t1, _, hissue, Option.some_ne_none l, step_completion hc, ?_, ?_, ?_, ?_,
    ⟨hmodulus, hm0ninv, hspare, hvalid⟩, herr, hinfo, hflight, ?_⟩
  · exact hval.trans_lt (redc_lt hT)
  · exact (congrArg (· * p.radix % u.M) hval).trans (redc_mul_radix_mod hodd _)
  · exact fun q hq => hregs q (mt List.mem_singleton.mp hq)
  · exact carry_effectOf (i := .mmul rd ra rb) rfl l t1
  · exact hscript.trans (by simp [t1, hs])

end Sys2Proof.Machine
end

section
/-!
The carry/borrow chain (41_carry_chain.md R80 to R83): how the issue of a command ends when only `BUSY` can refuse it, the sum and the
difference that a chain leaves in its destination register and `C`, and the four commands.
-/

namespace Sys2Proof.Machine

variable {p : Params}

/-! ### Issue (R151, R152) -/

/-- An issue statement is a statement about the command's issue checks. -/
theorem issuesWith_of_issueError {i : Instr} {check : (p : Params) → Mau p → Option ErrCode}
    (h : ∀ (p : Params) (u : Mau p), u.issueError i = check p u) : IssuesWith i check := by
  intro p u v hw hd
  rw [exec_cmdWrite hw hd, ← h p u]
  refine ⟨_, rfl, ?_, ?_⟩
  · intro code hcode
    rw [Mau.issue, hcode]
    exact recorded_raiseError u code v
  · intro hnone
    rw [Mau.issue, hnone]
    rfl

/-- A well-formed command that reads no configuration and loads none is refused only while `BUSY = 1`. -/
theorem issuesWith_busyCheck {i : Instr} (hwf : i.WellFormed) (hmod : readsMod i = false)
    (hbad : ∀ (p : Params) (u : Mau p), u.badConfig i = false) : IssuesWith i busyCheck := by
  refine issuesWith_of_issueError fun p u => ?_
  cases hf : u.inFlight with
  | some l => simp [Mau.issueError, Mau.busy_eq, busyCheck, hf]
  | none =>
    have hpasses : u.issueError i = none :=
      (issueError_eq_none_iff u i).mpr ⟨hf, hwf, by simp [hmod], hbad p u⟩
    simp [hpasses, busyCheck, hf]

/-! ### Completion (R80 to R83) -/

/-- The end of a command that writes a result and `C`: both hold what was written; the configuration and the count of draws stay. -/
theorem setReg_setCarry_finish_pop (u : Mau p) (rd : RegNum) (x : LimbVec p.W p.N) (c : Bool) :
    ((u.setReg rd x).setCarry c).finish.pop.reg rd = x ∧ ((u.setReg rd x).setCarry c).finish.pop.carry = c ∧
      RegisterAndCarry u ((u.setReg rd x).setCarry c).finish.pop :=
  ⟨Mau.reg_setReg_self u rd x, rfl, ⟨rfl, rfl, rfl, rfl⟩, rfl⟩

/-- `t` is `u` with the sum `a + b + cin` modulo `R` in `V[rd]` and its carry in `C`. -/
def HoldsSum (rd : RegNum) (a b cin : Nat) (u t : Mau p) : Prop :=
  (t.reg rd).val = (a + b + cin) % p.radix ∧ (t.carry = true ↔ p.radix ≤ a + b + cin) ∧ RegisterAndCarry u t

/-- `t` is `u` with the difference `a − b − bin` modulo `R` in `V[rd]` and its borrow in `C`. -/
def HoldsDifference (rd : RegNum) (a b bin : Nat) (u t : Mau p) : Prop :=
  ((t.reg rd).val : Int) = ((a : Int) - b - bin) % p.radix ∧ (t.carry = true ↔ (a : Int) - b - bin < 0) ∧
    RegisterAndCarry u t

theorem holdsSum_addChain (u : Mau p) (rd : RegNum) (a b : LimbVec p.W p.N) (cin : Bool) :
    HoldsSum rd a.val b.val cin.toNat u
      ((u.setReg rd (addChain a b cin).1).setCarry (addChain a b cin).2).finish.pop := by
  obtain ⟨hreg, hcarry, hrest⟩ := setReg_setCarry_finish_pop u rd (addChain a b cin).1 (addChain a b cin).2
  obtain ⟨-, hsum, hover⟩ := carryChainValue p.W p.N a b cin
  exact ⟨by rw [hreg, hsum, Params.radix], by rw [hcarry, hover, Params.radix], hrest⟩

theorem holdsDifference_subChain (u : Mau p) (rd : RegNum) (a b : LimbVec p.W p.N) (bin : Bool) :
    HoldsDifference rd a.val b.val bin.toNat u
      ((u.setReg rd (subChain a b bin).1).setCarry (subChain a b bin).2).finish.pop := by
  obtain ⟨hreg, hcarry, hrest⟩ := setReg_setCarry_finish_pop u rd (subChain a b bin).1 (subChain a b bin).2
  obtain ⟨-, hdiff, hborrow⟩ := borrowChainValue p.W p.N a b bin
  exact ⟨by rw [hreg, hdiff, Params.radix, Nat.cast_pow, Nat.cast_ofNat], by rw [hcarry, hborrow], hrest⟩

/-- With carry in 0 the sum is `a + b`. -/
theorem holdsSum_zero_iff (rd : RegNum) (a b : Nat) (u t : Mau p) :
    HoldsSum rd a b 0 u t ↔
      (t.reg rd).val = (a + b) % p.radix ∧ (t.carry = true ↔ p.radix ≤ a + b) ∧ RegisterAndCarry u t := by
  rw [HoldsSum, Nat.add_zero]

/-- With borrow in 0 the difference is `a − b`, which borrows exactly when `a < b`. -/
theorem holdsDifference_zero_iff (rd : RegNum) (a b : Nat) (u t : Mau p) :
    HoldsDifference rd a b 0 u t ↔
      ((t.reg rd).val : Int) = ((a : Int) - b) % p.radix ∧ (t.carry = true ↔ a < b) ∧ RegisterAndCarry u t := by
  rw [HoldsDifference, Nat.cast_zero, Int.sub_zero, sub_neg, Nat.cast_lt]

/-- Settles O27: the words are their fields, only `BUSY` refuses them, and the carry chain runs on the latched values, with carry in 0
for ADD and the latched `C` for ADC. -/
theorem addAdcRule : Obligations.AddAdcRule := by
  intro rd ra rb
  refine ⟨(Laws.CommandWord.add rd ra rb).1, issuesWith_busyCheck ⟨rfl, rfl⟩ rfl fun _ _ => rfl, ?add,
    (Laws.CommandWord.adc rd ra rb).1, issuesWith_busyCheck ⟨rfl, rfl⟩ rfl fun _ _ => rfl, ?adc⟩
  case add =>
    exact completesWith_of_effectOf (i := .add rd ra rb) fun p l u _ =>
      (holdsSum_zero_iff rd _ _ u _).mp (holdsSum_addChain u rd l.a l.b false)
  case adc =>
    exact completesWith_of_effectOf (i := .adc rd ra rb) fun p l u _ => holdsSum_addChain u rd l.a l.b l.c

/-- Settles O28: as for ADD and ADC, with the borrow chain. -/
theorem subSbbRule : Obligations.SubSbbRule := by
  intro rd ra rb
  refine ⟨(Laws.CommandWord.sub rd ra rb).1, issuesWith_busyCheck ⟨rfl, rfl⟩ rfl fun _ _ => rfl, ?sub,
    (Laws.CommandWord.sbb rd ra rb).1, issuesWith_busyCheck ⟨rfl, rfl⟩ rfl fun _ _ => rfl, ?sbb⟩
  case sub =>
    exact completesWith_of_effectOf (i := .sub rd ra rb) fun p l u _ =>
      (holdsDifference_zero_iff rd _ _ u _).mp (holdsDifference_subChain u rd l.a l.b false)
  case sbb =>
    exact completesWith_of_effectOf (i := .sbb rd ra rb) fun p l u _ => holdsDifference_subChain u rd l.a l.b l.c

end Sys2Proof.Machine
end

section
/-!
The conditional moves and final corrections (42_select.md R90 to R94): the value of a masked vector and of the final correction, how the
issue of a command that reads the modulus ends, what a command that writes a result alone leaves, and the five commands.
-/

namespace Sys2Proof

/-! ### The value of a masked vector and of a final correction -/

/-- The mask keeps every limb or clears every limb. -/
theorem val_maskVec {W n : Nat} (f : Bool) (x : LimbVec W n) : (maskVec f x).val = f.toNat * x.val := by
  cases f
  case false =>
    have hclear : (maskVec false x).limbs = List.replicate n 0#W := by simp [maskVec, mask, x.length_eq]
    rw [LimbVec.val, hclear, limbsVal_replicate_zero, Bool.toNat_false, Nat.zero_mul]
  case true =>
    have hkeep : (maskVec true x).limbs = x.limbs := by simp [maskVec, mask]
    rw [LimbVec.val, hkeep, Bool.toNat_true, Nat.one_mul, LimbVec.val]

section
variable {W n : Nat} (hi : Bool) (x m : LimbVec W n)

/-- The correction keeps `x` exactly when `m` exceeds `x` with `hi` above its top limb. -/
theorem finalSub_eq_ite :
    finalSub hi x m = if m.val ≤ hi.toNat * 2 ^ (n * W) + x.val then (subChain x m false).1 else x := by
  have hm := m.val_lt
  have hborrow : (subChain x m false).2 = true ↔ x.val < m.val := by
    rw [subChain_borrow]
    simp
  have hkeep : ((subChain x m false).2 && !hi) = true ↔ ¬ m.val ≤ hi.toNat * 2 ^ (n * W) + x.val := by
    cases hi
    case false => simp [hborrow]
    case true => simpa using hm.le.trans (Nat.le_add_right _ _)
  rw [finalSub, selectByMask, if_congr hkeep rfl rfl, ite_not]

/-- The `n` low limbs of the difference do not depend on the bit above them. -/
theorem val_subChain_of_le (h : m.val ≤ hi.toNat * 2 ^ (n * W) + x.val) :
    (subChain x m false).1.val = (hi.toNat * 2 ^ (n * W) + x.val - m.val) % 2 ^ (n * W) := by
  obtain ⟨-, hdiff, -⟩ := borrowChainValue W n x m false
  zify [h]
  rw [hdiff, add_sub_assoc, add_comm, Int.add_mul_emod_self_right, Bool.toNat_false, Nat.cast_zero, Int.sub_zero]

/-- The final correction with overflow bit `hi` (R94): one subtraction of `m` when `hi` above `x` is `m` or more. -/
theorem val_finalSub :
    (finalSub hi x m).val = if m.val ≤ hi.toNat * 2 ^ (n * W) + x.val
      then (hi.toNat * 2 ^ (n * W) + x.val - m.val) % 2 ^ (n * W) else x.val := by
  rw [finalSub_eq_ite]
  split
  case isTrue hle => exact val_subChain_of_le hi x m hle
  case isFalse => rfl

/-- Below `2m` the final correction is a reduction modulo `m`. -/
theorem val_finalSub_of_lt (h : hi.toNat * 2 ^ (n * W) + x.val < 2 * m.val) :
    (finalSub hi x m).val = (hi.toNat * 2 ^ (n * W) + x.val) % m.val := by
  have hm := m.val_lt
  rw [val_finalSub]
  split
  case isTrue hle =>
    have hlt : hi.toNat * 2 ^ (n * W) + x.val - m.val < m.val := by omega
    rw [Nat.mod_eq_of_lt (hlt.trans hm), Nat.mod_eq_sub_mod hle, Nat.mod_eq_of_lt hlt]
  case isFalse hgt =>
    have hx : hi.toNat * 2 ^ (n * W) + x.val = x.val := by
      cases hi
      case false => simp
      case true =>
        have hover : 2 ^ (n * W) + x.val < m.val := by simpa using hgt
        omega
    rw [Nat.mod_eq_of_lt (Nat.lt_of_not_le hgt), hx]

end

/-- Without an overflow bit the difference is exact (R93). -/
theorem val_finalSub_false {W n : Nat} (x m : LimbVec W n) :
    (finalSub false x m).val = if m.val ≤ x.val then x.val - m.val else x.val := by
  have hdiff : x.val - m.val < 2 ^ (n * W) := (Nat.sub_le _ _).trans_lt x.val_lt
  rw [val_finalSub, Bool.toNat_false, Nat.zero_mul, Nat.zero_add, Nat.mod_eq_of_lt hdiff]

theorem val_finalSub_false_of_lt {W n : Nat} (x m : LimbVec W n) (h : x.val < 2 * m.val) :
    (finalSub false x m).val = x.val % m.val := by
  have hred := val_finalSub_of_lt false x m
  rw [Bool.toNat_false, Nat.zero_mul, Nat.zero_add] at hred
  exact hred h

end Sys2Proof

namespace Sys2Proof.Machine

variable {p : Params}

/-! ### Issue (R151, R153) -/

/-- A well-formed command that reads the modulus and loads none is refused while `BUSY = 1`, then while nothing is configured. -/
theorem issuesWith_configCheck {i : Instr} (hwf : i.WellFormed) (hmod : readsMod i = true)
    (hbad : ∀ (p : Params) (u : Mau p), u.badConfig i = false) : IssuesWith i configCheck := by
  obtain ⟨hpair, hoverlap⟩ : hasOddPair i = false ∧ hasOverlap i = false := by
    simpa [Instr.WellFormed, pairsEven_eq, noOverlap_eq] using hwf
  refine issuesWith_of_issueError fun p u => ?_
  cases hv : u.cfgValid <;>
    simp [Mau.issueError, Mau.busy_eq, configCheck, hpair, hoverlap, hmod, hbad, hv]

/-! ### Completion (R90 to R94) -/

/-- The end of a command that writes a result alone: it holds what was written; `C`, the configuration and the count of draws stay. -/
theorem setReg_finish_pop (u : Mau p) (rd : RegNum) (x : LimbVec p.W p.N) :
    (u.setReg rd x).finish.pop.reg rd = x ∧ RegisterOnly u (u.setReg rd x).finish.pop :=
  ⟨Mau.reg_setReg_self u rd x, rfl, ⟨rfl, rfl, rfl, rfl⟩, rfl⟩

theorem holdsSum_caddmEffect (rd : RegNum) (l : Latch p) (u : Mau p) :
    HoldsSum rd l.a.val (l.c.toNat * u.M) 0 u (caddmEffect rd l u).finish.pop := by
  rw [Mau.M, ← val_maskVec]
  exact holdsSum_addChain u rd l.a (maskVec l.c u.modulus) false

theorem holdsDifference_csubmEffect (rd : RegNum) (l : Latch p) (u : Mau p) :
    HoldsDifference rd l.a.val (l.c.toNat * u.M) 0 u (csubmEffect rd l u).finish.pop := by
  rw [Mau.M, ← val_maskVec]
  exact holdsDifference_subChain u rd l.a (maskVec l.c u.modulus) false

/-- Settles O29: only `BUSY` refuses the word, and the masked blend is the choice on the latched `C`. -/
theorem cmovRule : Obligations.CmovRule := by
  intro rd ra rb
  refine ⟨(Laws.CommandWord.cmov rd ra rb).1, issuesWith_busyCheck ⟨rfl, rfl⟩ rfl fun _ _ => rfl,
    completesWith_of_effectOf (i := .cmov rd ra rb) fun p l u _ => ?_⟩
  obtain ⟨hreg, hrest⟩ := setReg_finish_pop u rd (ctSelect l.c l.a l.b)
  refine ⟨fun hc => hreg.trans ?_, fun hc => hreg.trans ?_, hrest⟩
  · rw [selectByMask, if_neg (ne_true_of_eq_false hc)]
  · rw [selectByMask, if_pos hc]

/-- Settles O30: the chains run on the latched value and the modulus masked by the latched `C`. -/
theorem caddmCsubmRule : Obligations.CaddmCsubmRule := by
  intro rd ra
  refine ⟨(Laws.CommandWord.caddm rd ra).1, issuesWith_configCheck ⟨rfl, rfl⟩ rfl fun _ _ => rfl, ?caddm,
    (Laws.CommandWord.csubm rd ra).1, issuesWith_configCheck ⟨rfl, rfl⟩ rfl fun _ _ => rfl, ?csubm⟩
  case caddm =>
    exact completesWith_of_effectOf (i := .caddm rd ra) fun p l u _ =>
      (holdsSum_zero_iff rd _ _ u _).mp (holdsSum_caddmEffect rd l u)
  case csubm =>
    exact completesWith_of_effectOf (i := .csubm rd ra) fun p l u _ =>
      (holdsDifference_zero_iff rd _ _ u _).mp (holdsDifference_csubmEffect rd l u)

/-- Settles O31: the final correction without an overflow bit, whose difference is exact. -/
theorem finsubRule : Obligations.FinsubRule := by
  intro rd ra
  refine ⟨(Laws.CommandWord.finsub rd ra).1, issuesWith_configCheck ⟨rfl, rfl⟩ rfl fun _ _ => rfl,
    completesWith_of_effectOf (i := .finsub rd ra) fun p l u _ => ?_⟩
  obtain ⟨hreg, hrest⟩ := setReg_finish_pop u rd (finalSub false l.a u.modulus)
  have hval := congrArg LimbVec.val hreg
  exact ⟨hval.trans (val_finalSub_false l.a u.modulus),
    fun hlt => hval.trans (val_finalSub_false_of_lt l.a u.modulus hlt), hrest⟩

/-- Settles O32: the final correction with the latched `C` as its overflow bit. -/
theorem finsubcRule : Obligations.FinsubcRule := by
  intro rd ra
  refine ⟨(Laws.CommandWord.finsubc rd ra).1, issuesWith_configCheck ⟨rfl, rfl⟩ rfl fun _ _ => rfl,
    completesWith_of_effectOf (i := .finsubc rd ra) fun p l u _ => ?_⟩
  obtain ⟨hreg, hrest⟩ := setReg_finish_pop u rd (finalSub l.c l.a u.modulus)
  have hval := congrArg LimbVec.val hreg
  exact ⟨hval.trans (val_finalSub l.c l.a u.modulus),
    fun hlt => hval.trans (val_finalSub_of_lt l.c l.a u.modulus hlt), hrest⟩

end Sys2Proof.Machine
end

section
/-!
The raw multiplies (43_multiply.md R100 to R102): the issue of a command that reads no configuration and loads none, what a command that
writes a result pair leaves, and the three commands.
-/

namespace Sys2Proof

/-- A product of `n`-limb values fits in `2n` limbs. -/
theorem LimbVec.val_mul_val_lt {W n : Nat} (a b : LimbVec W n) : a.val * b.val < 2 ^ ((n + n) * W) := by
  rw [Nat.add_mul, Nat.pow_add]
  exact Nat.mul_lt_mul'' a.val_lt b.val_lt

end Sys2Proof

namespace Sys2Proof.Machine

variable {p : Params}

/-! ### Issue (R105, R151) -/

/-- A command that reads no configuration and loads none can fail the first four checks only. -/
theorem issueError_of_not_readsMod {i : Instr} (hmod : readsMod i = false) {u : Mau p} (hbad : u.badConfig i = false) :
    u.issueError i = if u.inFlight.isSome then some .ebusy else if hasOddPair i then some .epair
      else if hasOverlap i then some .ealias else none := by
  simp [Mau.issueError, Mau.busy_eq, hmod, hbad]

theorem hasOddPair_mulraw_iff (rd ra rb : RegNum) : hasOddPair (.mulraw rd ra rb) = true ↔ rd.val % 2 = 1 := by
  simp [hasOddPair, oddPairField, Instr.format, Format.rdKind, Format.raKind, Format.rbKind, Instr.rd]

theorem hasOddPair_sqrraw_iff (rd ra : RegNum) : hasOddPair (.sqrraw rd ra) = true ↔ rd.val % 2 = 1 := by
  simp [hasOddPair, oddPairField, Instr.format, Format.rdKind, Format.raKind, Format.rbKind, Instr.rd]

theorem hasOverlap_mulraw_iff (rd ra rb : RegNum) :
    hasOverlap (.mulraw rd ra rb) = true ↔ ra = rd ∨ ra = rd + 1 ∨ rb = rd ∨ rb = rd + 1 := by
  simp [hasOverlap, or_assoc]

theorem hasOverlap_sqrraw_iff (rd ra : RegNum) : hasOverlap (.sqrraw rd ra) = true ↔ ra = rd ∨ ra = rd + 1 := by
  simp [hasOverlap]

theorem hasOverlap_mullo_iff (rd ra rb : RegNum) : hasOverlap (.mullo rd ra rb) = true ↔ ra = rd ∨ rb = rd := by
  simp [hasOverlap]

/-! ### Completion -/

/-- The end of a command that writes a result pair alone: the pair and its halves hold what was written; `C`, the configuration and the
count of draws stay. -/
theorem setPair_finish_pop (u : Mau p) (rd : RegNum) (t : LimbVec p.W (p.N + p.N)) :
    (u.setPair rd t).finish.pop.pair rd = t ∧ (u.setPair rd t).finish.pop.reg rd = t.lowHalf ∧
      (u.setPair rd t).finish.pop.reg (rd + 1) = t.highHalf ∧ RegisterOnly u (u.setPair rd t).finish.pop := by
  have hlow : (u.setPair rd t).finish.pop.reg rd = t.lowHalf := Mau.reg_setPair_low u rd t
  have hhigh : (u.setPair rd t).finish.pop.reg (rd + 1) = t.highHalf := Mau.reg_setPair_high u rd t
  exact ⟨by rw [Mau.pair, hlow, hhigh, LimbVec.join_halves], hlow, hhigh, rfl, ⟨rfl, rfl, rfl, rfl⟩, rfl⟩

/-- `t` is `u` with the number `x` in the pair `D(rd)`: its remainder modulo `R` in `V[rd]`, its quotient in `V[rd+1]`. -/
def HoldsWide (rd : RegNum) (x : Nat) (u t : Mau p) : Prop :=
  (t.pair rd).val = x ∧ (t.reg rd).val = x % p.radix ∧ (t.reg (rd + 1)).val = x / p.radix ∧ RegisterOnly u t

/-- A number that fits a pair is written whole (R100). -/
theorem holdsWide_setPair (u : Mau p) (rd : RegNum) {x : Nat} (hx : x < 2 ^ ((p.N + p.N) * p.W)) :
    HoldsWide rd x u (u.setPair rd (LimbVec.ofNat p.W (p.N + p.N) x)).finish.pop := by
  obtain ⟨hpair, hlow, hhigh, hrest⟩ := setPair_finish_pop u rd (LimbVec.ofNat p.W (p.N + p.N) x)
  have hval : (LimbVec.ofNat p.W (p.N + p.N) x).val = x := by rw [LimbVec.val_ofNat, Nat.mod_eq_of_lt hx]
  refine ⟨by rw [hpair, hval], ?_, ?_, hrest⟩
  · rw [hlow, LimbVec.val_lowHalf, hval, Params.radix]
  · rw [hhigh, LimbVec.val_highHalf, hval, Params.radix]

/-- Settles O33: the field checks are on the pair and its overlap with the sources, and the product of the latched values fits the
pair. -/
theorem mulrawSqrrawRule : Obligations.MulrawSqrrawRule := by
  intro rd ra rb
  refine ⟨(Laws.CommandWord.mulraw rd ra rb).1, issuesWith_of_issueError fun p u => ?mulrawIssue, ?mulraw,
    (Laws.CommandWord.sqrraw rd ra).1, issuesWith_of_issueError fun p u => ?sqrrawIssue, ?sqrraw⟩
  case mulrawIssue =>
    simp only [issueError_of_not_readsMod (i := .mulraw rd ra rb) rfl rfl, hasOddPair_mulraw_iff, hasOverlap_mulraw_iff]
  case mulraw =>
    exact completesWith_of_effectOf (i := .mulraw rd ra rb) fun p l u _ =>
      holdsWide_setPair u rd (l.a.val_mul_val_lt l.b)
  case sqrrawIssue =>
    simp only [issueError_of_not_readsMod (i := .sqrraw rd ra) rfl rfl, hasOddPair_sqrraw_iff, hasOverlap_sqrraw_iff]
  case sqrraw =>
    refine completesWith_of_effectOf (i := .sqrraw rd ra) fun p l u _ => ?_
    rw [Nat.pow_two]
    exact holdsWide_setPair u rd (l.a.val_mul_val_lt l.a)

/-- Settles O34: no field names a pair, and the product modulo `R` fits the register. -/
theorem mulloRule : Obligations.MulloRule := by
  intro rd ra rb
  refine ⟨(Laws.CommandWord.mullo rd ra rb).1, issuesWith_of_issueError fun p u => ?issue,
    completesWith_of_effectOf (i := .mullo rd ra rb) fun p l u _ => ?_⟩
  case issue =>
    have hpair : hasOddPair (.mullo rd ra rb) = false := rfl
    simp [issueError_of_not_readsMod (i := .mullo rd ra rb) rfl rfl, hpair, hasOverlap_mullo_iff]
  · obtain ⟨hreg, hrest⟩ := setReg_finish_pop u rd (LimbVec.ofNat p.W p.N (l.a.val * l.b.val % p.radix))
    refine ⟨(congrArg LimbVec.val hreg).trans ?_, hrest⟩
    rw [LimbVec.val_ofNat, ← Params.radix, Nat.mod_mod]

end Sys2Proof.Machine
end

section
/-!
Product scanning and squaring (43_multiply.md R103, R104): the value of the three-word running sum, the shape both datapaths share, and
the two as one convolution of the operands' limbs.
-/

namespace Sys2Proof

/-! ### The three-word running sum -/

/-- The number that a running sum holds. -/
def Sum3.value {W : Nat} (t : Sum3 W) : Nat := t.t0.toNat + 2 ^ W * t.t1.toNat + (2 ^ W) ^ 2 * t.t2.toNat

theorem Sum3.value_lt {W : Nat} (t : Sum3 W) : t.value < (2 ^ W) ^ 3 := by
  have h0 := t.t0.isLt
  have h1 : 2 ^ W * (t.t1.toNat + 1) ≤ 2 ^ W * 2 ^ W := Nat.mul_le_mul_left _ t.t1.isLt
  have h2 : (2 ^ W) ^ 2 * (t.t2.toNat + 1) ≤ (2 ^ W) ^ 2 * 2 ^ W := Nat.mul_le_mul_left _ t.t2.isLt
  rw [Sum3.value, Nat.pow_succ _ 2]
  linarith

/-- A running sum with its top word clear is below `2^(2W)`. -/
theorem Sum3.value_lt_of_t2_eq_zero {W : Nat} {t : Sum3 W} (h : t.t2 = 0#W) : t.value < (2 ^ W) ^ 2 := by
  have h0 := t.t0.isLt
  have h1 : 2 ^ W * (t.t1.toNat + 1) ≤ 2 ^ W * 2 ^ W := Nat.mul_le_mul_left _ t.t1.isLt
  rw [Sum3.value, h, BitVec.toNat_zero]
  linarith

theorem Sum3.toNat_t0 {W : Nat} (t : Sum3 W) : t.t0.toNat = t.value % 2 ^ W := by
  rw [Sum3.value, Nat.pow_two, Nat.mul_assoc, Nat.add_assoc, ← Nat.mul_add, Nat.add_mul_mod_self_left,
    Nat.mod_eq_of_lt t.t0.isLt]

theorem Sum3.value_shift {W : Nat} (t : Sum3 W) : t.shift.value = t.value / 2 ^ W := by
  have hsplit : t.value = t.t0.toNat + 2 ^ W * t.shift.value := by
    simp only [Sum3.value, Sum3.shift, BitVec.toNat_zero]
    ring
  rw [hsplit, Nat.add_mul_div_left _ _ (Nat.two_pow_pos W), Nat.div_eq_of_lt t.t0.isLt, Nat.zero_add]

/-- Adding a number to the top word wraps at three words. -/
theorem Sum3.value_add_t2 {W : Nat} (t2 t1 t0 : BitVec W) (c : Nat) :
    (⟨t2 + BitVec.ofNat W c, t1, t0⟩ : Sum3 W).value ≡ (⟨t2, t1, t0⟩ : Sum3 W).value + (2 ^ W) ^ 2 * c
      [MOD (2 ^ W) ^ 3] := by
  have htop : (t2 + BitVec.ofNat W c).toNat ≡ t2.toNat + c [MOD 2 ^ W] := by
    simp [Nat.ModEq]
  have hscaled := htop.mul_left' ((2 ^ W) ^ 2)
  rw [← Nat.pow_succ, Nat.mul_add] at hscaled
  simpa only [Sum3.value, Nat.add_assoc] using hscaled.add_left (t0.toNat + 2 ^ W * t1.toNat)

/-- Adding a two-word product is addition modulo three words. -/
theorem Sum3.value_addWide {W : Nat} (t : Sum3 W) (hi lo : BitVec W) :
    (t.addWide hi lo).value ≡ t.value + (hi.toNat * 2 ^ W + lo.toNat) [MOD (2 ^ W) ^ 3] := by
  have h0 := addWithCarry_value t.t0 lo false
  have h1 := addWithCarry_value t.t1 hi (addWithCarry t.t0 lo false).2
  have hwords : (⟨t.t2, (t.addWide hi lo).t1, (t.addWide hi lo).t0⟩ : Sum3 W).value +
      (2 ^ W) ^ 2 * (addWithCarry t.t1 hi (addWithCarry t.t0 lo false).2).2.toNat =
        t.value + (hi.toNat * 2 ^ W + lo.toNat) := by
    rw [Bool.toNat_false] at h0
    simp only [Sum3.value, Sum3.addWide]
    linear_combination h0 + 2 ^ W * h1
  rw [← hwords]
  exact Sum3.value_add_t2 t.t2 _ _ _

/-! ### One column -/

/-- A loop whose body adds `f i` modulo three words adds the sum of the `f i`. -/
theorem Sum3.value_foldl {W : Nat} {body : Sum3 W → Nat → Sum3 W} {f : Nat → Nat}
    (hbody : ∀ t i, (body t i).value ≡ t.value + f i [MOD (2 ^ W) ^ 3]) (is : List Nat) (t : Sum3 W) :
    (is.foldl body t).value ≡ t.value + (is.map f).sum [MOD (2 ^ W) ^ 3] := by
  induction is generalizing t with
  | nil => exact Nat.ModEq.refl _
  | cons i is ih =>
    rw [List.foldl_cons, List.map_cons, List.sum_cons, ← Nat.add_assoc]
    exact (ih _).trans ((hbody t i).add_right _)

theorem limbAt_of_length_le {W : Nat} {A : List (BitVec W)} {i : Nat} (h : A.length ≤ i) : limbAt A i = 0#W := by
  simp [limbAt, h]

/-- The cross term of limbs `i` and `k − i`. -/
def crossTerm {W : Nat} (A B : List (BitVec W)) (k i : Nat) : Nat := (limbAt A i).toNat * (limbAt B (k - i)).toNat

/-- Output index `k` of the product: the sum of all cross terms `A[i]·B[k−i]`, limbs past the end being 0. -/
def columnSum {W : Nat} (A B : List (BitVec W)) (k : Nat) : Nat := ∑ i ∈ Finset.range (k + 1), crossTerm A B k i

theorem crossTerm_lt {W : Nat} (A B : List (BitVec W)) (k i : Nat) : crossTerm A B k i < (2 ^ W) ^ 2 := by
  rw [Nat.pow_two]
  exact Nat.mul_lt_mul'' (BitVec.isLt _) (BitVec.isLt _)

theorem crossTerm_eq_zero {W N : Nat} {A B : List (BitVec W)} (hA : A.length = N) (hB : B.length = N) {k i : Nat}
    (h : N ≤ i ∨ N ≤ k - i) : crossTerm A B k i = 0 := by
  obtain h | h := h
  · simp [crossTerm, limbAt_of_length_le (hA.trans_le h)]
  · simp [crossTerm, limbAt_of_length_le (hB.trans_le h)]

section
variable {W N : Nat} (hN : 1 ≤ N)
include hN

theorem mem_columnIndices (k i : Nat) : i ∈ columnIndices N k ↔ i ≤ k ∧ i < N ∧ k - i < N := by
  rw [columnIndices, List.mem_range'_1]
  omega

theorem length_columnIndices_le (k : Nat) : (columnIndices N k).length ≤ N := by
  rw [columnIndices, List.length_range']
  omega

/-- The column's indices are those of all `i ≤ k` whose term can be nonzero. -/
theorem sum_columnIndices {k : Nat} {f : Nat → Nat} (hf : ∀ i ≤ k, N ≤ i ∨ N ≤ k - i → f i = 0) :
    ((columnIndices N k).map f).sum = ∑ i ∈ Finset.range (k + 1), f i := by
  have hnodup : (columnIndices N k).Nodup := List.nodup_range'
  rw [← List.sum_toFinset f hnodup]
  apply Finset.sum_subset
  · intro i hi
    obtain ⟨hik, -⟩ := (mem_columnIndices hN k i).mp (List.mem_toFinset.mp hi)
    exact Finset.mem_range_succ_iff.mpr hik
  · intro i hi hout
    have hik := Finset.mem_range_succ_iff.mp hi
    refine hf i hik ?_
    rw [List.mem_toFinset, mem_columnIndices hN] at hout
    omega

variable {A B : List (BitVec W)} (hA : A.length = N) (hB : B.length = N)
include hA hB

theorem sum_crossTerm_columnIndices (k : Nat) : ((columnIndices N k).map (crossTerm A B k)).sum = columnSum A B k :=
  sum_columnIndices hN fun _ _ => crossTerm_eq_zero hA hB

/-- A column has at most `N` terms. -/
theorem columnSum_le (k : Nat) : columnSum A B k ≤ N * (2 ^ W) ^ 2 := by
  rw [← sum_crossTerm_columnIndices hN hA hB]
  refine (List.sum_le_card_nsmul _ ((2 ^ W) ^ 2) ?_).trans ?_
  · intro x hx
    obtain ⟨i, -, rfl⟩ := List.mem_map.mp hx
    exact (crossTerm_lt A B k i).le
  · rw [List.length_map, smul_eq_mul]
    exact Nat.mul_le_mul_right _ (length_columnIndices_le hN k)

/-- A loop that adds the column modulo three words, entered with the top word clear, adds it exactly: nothing overflows. -/
theorem value_add_columnSum (hW : N + 1 ≤ 2 ^ W) {k : Nat} {t t' : Sum3 W} (ht : t.t2 = 0#W)
    (h : t'.value ≡ t.value + columnSum A B k [MOD (2 ^ W) ^ 3]) : t'.value = t.value + columnSum A B k := by
  refine Nat.ModEq.eq_of_lt_of_lt h t'.value_lt ?_
  have hsum := columnSum_le hN hA hB k
  calc t.value + columnSum A B k
    _ < (2 ^ W) ^ 2 + N * (2 ^ W) ^ 2 := Nat.add_lt_add_of_lt_of_le (Sum3.value_lt_of_t2_eq_zero ht) hsum
    _ = (N + 1) * (2 ^ W) ^ 2 := by ring
    _ ≤ 2 ^ W * (2 ^ W) ^ 2 := Nat.mul_le_mul_right _ hW
    _ = (2 ^ W) ^ 3 := (Nat.pow_succ' ..).symm

end

/-! ### All columns -/

/-- The loop over the output indices, from index `k` with `count` left: the shape product scanning and the squaring datapath share. -/
def columnScan {W : Nat} (column : Nat → Sum3 W → Sum3 W) : Nat → Nat → Sum3 W → List (BitVec W)
  | 0, _, _ => []
  | count + 1, k, t => (column k t).t0 :: columnScan column count (k + 1) (column k t).shift

theorem combaFrom_eq_columnScan {W : Nat} (N : Nat) (A B : List (BitVec W)) (count k : Nat) (t : Sum3 W) :
    combaFrom N A B count k t = columnScan (combaColumn N A B) count k t := by
  induction count generalizing k t with
  | zero => rfl
  | succ count ih => rw [combaFrom, columnScan, ih]

theorem squareFrom_eq_columnScan {W : Nat} (N : Nat) (A : List (BitVec W)) (count k : Nat) (t : Sum3 W) :
    squareFrom N A count k t = columnScan (squareColumn N A) count k t := by
  induction count generalizing k t with
  | zero => rfl
  | succ count ih => rw [squareFrom, columnScan, ih]

/-- Columns that each add `S k` exactly give the limbs of the carried sum `Σ S(k+j)·2^(j·W)`. -/
theorem limbsVal_columnScan {W : Nat} {column : Nat → Sum3 W → Sum3 W} {S : Nat → Nat}
    (hcolumn : ∀ k t, t.t2 = 0#W → (column k t).value = t.value + S k) (count k : Nat) {t : Sum3 W} (ht : t.t2 = 0#W) :
    limbsVal (columnScan column count k t) =
      (t.value + ∑ j ∈ Finset.range count, S (k + j) * (2 ^ W) ^ j) % (2 ^ W) ^ count := by
  induction count generalizing k t with
  | zero => simp [columnScan, limbsVal, Nat.mod_one]
  | succ count ih =>
    have hsum : t.value + ∑ j ∈ Finset.range (count + 1), S (k + j) * (2 ^ W) ^ j =
        (column k t).value + 2 ^ W * ∑ j ∈ Finset.range count, S (k + 1 + j) * (2 ^ W) ^ j := by
      have hshift : ∀ j, S (k + (j + 1)) * (2 ^ W) ^ (j + 1) = 2 ^ W * (S (k + 1 + j) * (2 ^ W) ^ j) := by
        intro j
        rw [Nat.add_comm j 1, Nat.add_assoc]
        ring
      simp only [hcolumn k t ht, Finset.sum_range_succ', hshift, ← Finset.mul_sum, Nat.add_zero, pow_zero, Nat.mul_one]
      ring
    rw [columnScan, limbsVal, ih (k + 1) rfl, Sum3.toNat_t0, Sum3.value_shift, hsum, Nat.pow_succ', Nat.mod_mul,
      Nat.add_mul_mod_self_left, Nat.add_mul_div_left _ _ (Nat.two_pow_pos W)]

/-! ### The columns are the product -/

theorem columnSum_nil {W : Nat} (B : List (BitVec W)) (k : Nat) : columnSum [] B k = 0 := by
  simp [columnSum, crossTerm, limbAt]

theorem columnSum_cons_zero {W : Nat} (a : BitVec W) (A B : List (BitVec W)) :
    columnSum (a :: A) B 0 = a.toNat * (limbAt B 0).toNat := by
  simp [columnSum, crossTerm, limbAt]

theorem columnSum_cons_succ {W : Nat} (a : BitVec W) (A B : List (BitVec W)) (k : Nat) :
    columnSum (a :: A) B (k + 1) = columnSum A B k + a.toNat * (limbAt B (k + 1)).toNat := by
  rw [columnSum, Finset.sum_range_succ']
  simp [columnSum, crossTerm, limbAt]

/-- The lowest `n` limbs of a list are its value modulo `2^(n·W)`. -/
theorem sum_limbAt_modEq {W : Nat} (B : List (BitVec W)) (n : Nat) :
    ∑ j ∈ Finset.range n, (limbAt B j).toNat * (2 ^ W) ^ j ≡ limbsVal B [MOD (2 ^ W) ^ n] := by
  induction B generalizing n with
  | nil => simp [limbAt, limbsVal, Nat.ModEq.refl]
  | cons b B ih =>
    cases n with
    | zero => simp [Nat.modEq_one]
    | succ n =>
      have hrest := ((ih n).mul_left' (2 ^ W)).add_left b.toNat
      have hsplit : ∑ j ∈ Finset.range (n + 1), (limbAt (b :: B) j).toNat * (2 ^ W) ^ j =
          b.toNat + 2 ^ W * ∑ j ∈ Finset.range n, (limbAt B j).toNat * (2 ^ W) ^ j := by
        simp only [Finset.sum_range_succ', limbAt, List.getD_cons_succ, List.getD_cons_zero, Finset.mul_sum,
          Nat.pow_succ', Nat.mul_left_comm (2 ^ W), Nat.pow_zero, Nat.mul_one, Nat.add_comm b.toNat]
      rw [hsplit, limbsVal, Nat.pow_succ']
      exact hrest

/-- The columns, each at its weight, are the product: long multiplication, modulo any number of limbs. -/
theorem sum_columnSum_modEq {W : Nat} (A B : List (BitVec W)) (n : Nat) :
    ∑ k ∈ Finset.range n, columnSum A B k * (2 ^ W) ^ k ≡ limbsVal A * limbsVal B [MOD (2 ^ W) ^ n] := by
  induction A generalizing n with
  | nil => simp [columnSum_nil, limbsVal, Nat.ModEq.refl]
  | cons a A ih =>
    cases n with
    | zero => simp [Nat.modEq_one]
    | succ n =>
      have hrow := (sum_limbAt_modEq B (n + 1)).mul_left a.toNat
      have hrest := (ih n).mul_left' (2 ^ W)
      rw [← Nat.pow_succ'] at hrest
      have hsplit : ∑ k ∈ Finset.range (n + 1), columnSum (a :: A) B k * (2 ^ W) ^ k =
          a.toNat * ∑ k ∈ Finset.range (n + 1), (limbAt B k).toNat * (2 ^ W) ^ k +
            2 ^ W * ∑ k ∈ Finset.range n, columnSum A B k * (2 ^ W) ^ k := by
        rw [Finset.sum_range_succ', Finset.sum_range_succ']
        simp only [columnSum_cons_zero, columnSum_cons_succ, Finset.mul_sum, Nat.mul_add, Nat.add_mul,
          Finset.sum_add_distrib, Nat.pow_succ']
        ring_nf
      have hval : limbsVal (a :: A) * limbsVal B = a.toNat * limbsVal B + 2 ^ W * (limbsVal A * limbsVal B) := by
        rw [limbsVal]
        ring
      rw [hsplit, hval]
      exact hrow.add hrest

/-- A datapath whose columns each add the column of `a·b` exactly computes the product, truncated to its length. -/
theorem limbsVal_columnScan_eq_mul {W n : Nat} (a b : LimbVec W n) {column : Nat → Sum3 W → Sum3 W}
    (hcolumn : ∀ k t, t.t2 = 0#W → (column k t).value = t.value + columnSum a.limbs b.limbs k) (rLen : Nat) :
    limbsVal (columnScan column rLen 0 ⟨0, 0, 0⟩) = a.val * b.val % 2 ^ (rLen * W) := by
  have hproduct := sum_columnSum_modEq a.limbs b.limbs rLen
  rw [limbsVal_columnScan hcolumn rLen 0 rfl, Nat.mul_comm rLen, Nat.pow_mul]
  simpa [Sum3.value, LimbVec.val, Nat.ModEq] using hproduct

/-- A column of at most `N` terms fits the running sum with what is carried in: `N ≤ 64`, `W ≥ 32` (R1, R2). -/
theorem Params.N_add_one_le (p : Params) : p.N + 1 ≤ 2 ^ p.W := by
  have hN := p.le_max
  have hW : 2 ^ 32 ≤ 2 ^ p.W := Nat.pow_le_pow_right (by decide) (by obtain h | h := p.W_cases <;> omega)
  omega

/-! ### Product scanning (R103) -/

section
variable {W n : Nat} (hn : 1 ≤ n) (hW : n + 1 ≤ 2 ^ W)
include hn hW

theorem value_combaColumn (a b : LimbVec W n) (k : Nat) {t : Sum3 W} (ht : t.t2 = 0#W) :
    (combaColumn n a.limbs b.limbs k t).value = t.value + columnSum a.limbs b.limbs k := by
  refine value_add_columnSum hn a.length_eq b.length_eq hW ht ?_
  rw [← sum_crossTerm_columnIndices hn a.length_eq b.length_eq]
  refine Sum3.value_foldl (fun t i => ?_) _ t
  rw [crossTerm, ← mulWide_toNat]
  exact t.value_addWide _ _

theorem val_comba (rLen : Nat) (a b : LimbVec W n) : (comba rLen a b).val = a.val * b.val % 2 ^ (rLen * W) := by
  have hlimbs : (comba rLen a b).limbs = columnScan (combaColumn n a.limbs b.limbs) rLen 0 ⟨0, 0, 0⟩ :=
    combaFrom_eq_columnScan ..
  rw [LimbVec.val, hlimbs]
  exact limbsVal_columnScan_eq_mul a b (fun k _ ht => value_combaColumn hn hW a b k ht) rLen

end

/-- Settles O46: product scanning truncates the product to its length, which at `2N` limbs loses nothing. -/
theorem productScanningMultiplies : Obligations.ProductScanningMultiplies := by
  intro p a b
  refine ⟨?_, val_comba p.one_le p.N_add_one_le p.N a b⟩
  rw [val_comba p.one_le p.N_add_one_le, Nat.mod_eq_of_lt (a.val_mul_val_lt b)]

/-! ### Squaring (R104) -/

/-- Doubling a word with a bit shifted in is adding it to itself with that bit as carry in; the bit shifted out is the carry. -/
theorem toNat_shiftConcat_add_msb {W : Nat} (hW : 1 ≤ W) (x : BitVec W) (c : Bool) :
    (x.shiftConcat c).toNat + 2 ^ W * x.msb.toNat = 2 * x.toNat + c.toNat := by
  have hlow : (x.shiftConcat c).toNat = (addWithCarry x x c).1.toNat := by
    rw [addWithCarry_toNat, BitVec.toNat_shiftConcat, Nat.shiftLeft_eq, Nat.pow_one, Nat.mul_two]
  have hout : x.msb = (addWithCarry x x c).2 := by
    have hhalf : 2 ^ W = 2 * 2 ^ (W - 1) := (mul_pow_sub_one (by omega) 2).symm
    have hc := c.toNat_le
    rw [Bool.eq_iff_iff, addWithCarry_carry, BitVec.msb_eq_decide, decide_eq_true_iff]
    omega
  rw [hlow, hout, addWithCarry_value, Nat.two_mul]

theorem shiftLeft_one_or_eq_shiftConcat {W : Nat} (x : BitVec W) (c : Bool) :
    x <<< 1 ||| BitVec.ofNat W c.toNat = x.shiftConcat c := by
  ext i hi
  cases i <;> cases c <;> simp [BitVec.getElem_shiftConcat]

theorem shiftLeft_one_eq_shiftConcat {W : Nat} (x : BitVec W) : x <<< 1 = x.shiftConcat false := by
  simp [← shiftLeft_one_or_eq_shiftConcat]

/-- What index `i` adds to column `k` of the squaring datapath: twice its cross term below the diagonal, once on it, nothing above. -/
def squareAddend {W : Nat} (A : List (BitVec W)) (k i : Nat) : Nat :=
  if i ≤ k - i then (if i < k - i then 2 * crossTerm A A k i else crossTerm A A k i) else 0

theorem crossTerm_symm {W : Nat} (A : List (BitVec W)) {k i : Nat} (h : i ≤ k) :
    crossTerm A A k (k - i) = crossTerm A A k i := by
  rw [crossTerm, crossTerm, Nat.sub_sub_self h, Nat.mul_comm]

/-- An index and its mirror image add both cross terms of the full column. -/
theorem squareAddend_add_reflect {W : Nat} (A : List (BitVec W)) {k i : Nat} (h : i ≤ k) :
    squareAddend A k i + squareAddend A k (k - i) = 2 * crossTerm A A k i := by
  have hsymm := crossTerm_symm A h
  have hmirror := Nat.sub_sub_self h
  rw [squareAddend, squareAddend, hmirror, hsymm]
  obtain hlt | heq | hgt := Nat.lt_trichotomy i (k - i)
  · simp [hlt, hlt.le, hlt.not_ge]
  · simp [← heq, Nat.two_mul]
  · simp [hgt, hgt.le, hgt.not_ge]

/-- Doubling the terms below the diagonal is the full column. -/
theorem sum_squareAddend {W : Nat} (A : List (BitVec W)) (k : Nat) :
    ∑ i ∈ Finset.range (k + 1), squareAddend A k i = columnSum A A k := by
  have hreflect := Finset.sum_range_reflect (squareAddend A k) (k + 1)
  have hpair : ∑ i ∈ Finset.range (k + 1), (squareAddend A k i + squareAddend A k (k - i)) =
      ∑ i ∈ Finset.range (k + 1), 2 * crossTerm A A k i :=
    Finset.sum_congr rfl fun i hi => squareAddend_add_reflect A (Finset.mem_range_succ_iff.mp hi)
  rw [Nat.add_sub_cancel] at hreflect
  rw [Finset.sum_add_distrib, hreflect, ← Finset.mul_sum, ← Nat.two_mul] at hpair
  exact Nat.eq_of_mul_eq_mul_left two_pos hpair

/-- The doubled two-word product is three words: the bit out of `hi`, and `hi` and `lo` shifted. -/
theorem value_squareTerm {W : Nat} (hW : 1 ≤ W) (A : List (BitVec W)) (k : Nat) (t : Sum3 W) (i : Nat) :
    (squareTerm A k t i).value ≡
      t.value + (if i < k - i then 2 * crossTerm A A k i else crossTerm A A k i) [MOD (2 ^ W) ^ 3] := by
  rw [squareTerm, crossTerm, ← mulWide_toNat]
  generalize mulWide (limbAt A i) (limbAt A (k - i)) = r
  split
  case isTrue =>
    have hhi := toNat_shiftConcat_add_msb hW r.1 r.2.msb
    have hlo := toNat_shiftConcat_add_msb hW r.2 false
    have hdouble : (2 ^ W) ^ 2 * r.1.msb.toNat +
        ((r.1.shiftConcat r.2.msb).toNat * 2 ^ W + (r.2.shiftConcat false).toNat) =
          2 * (r.1.toNat * 2 ^ W + r.2.toNat) := by
      rw [Bool.toNat_false] at hlo
      linear_combination 2 ^ W * hhi + hlo
    rw [shiftLeft_one_or_eq_shiftConcat, shiftLeft_one_eq_shiftConcat, ← hdouble, ← Nat.add_assoc]
    exact (Sum3.value_addWide _ _ _).trans ((Sum3.value_add_t2 t.t2 t.t1 t.t0 r.1.msb.toNat).add_right _)
  case isFalse => exact t.value_addWide _ _

section
variable {W n : Nat} (hn : 1 ≤ n) (hW : n + 1 ≤ 2 ^ W)
include hn hW

theorem value_squareColumn (a : LimbVec W n) (k : Nat) {t : Sum3 W} (ht : t.t2 = 0#W) :
    (squareColumn n a.limbs k t).value = t.value + columnSum a.limbs a.limbs k := by
  have hword : 1 ≤ W := by
    by_contra h
    obtain rfl : W = 0 := by omega
    omega
  have hzero : ∀ i ≤ k, n ≤ i ∨ n ≤ k - i → squareAddend a.limbs k i = 0 := fun i _ h => by
    simp [squareAddend, crossTerm_eq_zero a.length_eq a.length_eq h]
  refine value_add_columnSum hn a.length_eq a.length_eq hW ht ?_
  rw [← sum_squareAddend, ← sum_columnIndices hn hzero, squareColumn, List.foldl_filter]
  refine Sum3.value_foldl (fun t i => ?_) _ t
  rw [squareAddend]
  simp only [decide_eq_true_eq]
  split
  case isTrue => exact value_squareTerm hword a.limbs k t i
  case isFalse => exact Nat.ModEq.refl _

theorem val_squareWide (a : LimbVec W n) : (squareWide a).val = a.val ^ 2 := by
  have hlimbs : (squareWide a).limbs = columnScan (squareColumn n a.limbs) (n + n) 0 ⟨0, 0, 0⟩ :=
    squareFrom_eq_columnScan ..
  rw [LimbVec.val, hlimbs, limbsVal_columnScan_eq_mul a a (fun k _ ht => value_squareColumn hn hW a k ht),
    Nat.mod_eq_of_lt (a.val_mul_val_lt a), Nat.pow_two]

end

/-- Settles O47: each column of the squaring datapath adds what product scanning's column adds. -/
theorem squaringDatapathSquares : Obligations.SquaringDatapathSquares := fun p a =>
  val_squareWide p.one_le p.N_add_one_le a

end Sys2Proof
end

section
/-!
The modular datapaths (44_modadd.md R114 to R116): the adder's as the final correction of the raw sum, and the subtractor's as the raw
difference with the modulus added back on a borrow.
-/

namespace Sys2Proof

/-! ### Modular addition (R114, R116) -/

/-- Where the modulus leaves a spare bit the raw sum has no carry, so that both correction variants are the one that takes the carry. -/
theorem modAddPath_eq_finalSub {W K spareBits : Nat} {a b m : LimbVec W K} (ha : a.val < m.val) (hb : b.val < m.val)
    (hspare : 1 ≤ spareBits → 2 * m.val ≤ 2 ^ (K * W)) :
    modAddPath spareBits a b m = finalSub (addChain a b false).2 (addChain a b false).1 m := by
  have hnocarry : 1 ≤ spareBits → (addChain a b false).2 = false := by
    intro h
    have hfits := hspare h
    rw [← Bool.not_eq_true, addChain_carry, Bool.toNat_false]
    omega
  unfold modAddPath finalSub
  by_cases h : 1 ≤ spareBits
  · simp [h, hnocarry h]
  · simp [h]

theorem val_modAddPath {W K spareBits : Nat} {a b m : LimbVec W K} (ha : a.val < m.val) (hb : b.val < m.val)
    (hspare : 1 ≤ spareBits → 2 * m.val ≤ 2 ^ (K * W)) :
    (modAddPath spareBits a b m).val = (a.val + b.val) % m.val := by
  have hsum : (addChain a b false).2.toNat * 2 ^ (K * W) + (addChain a b false).1.val = a.val + b.val := by
    rw [Nat.mul_comm, Nat.add_comm, addChain_value, Bool.toNat_false, Nat.add_zero]
  rw [modAddPath_eq_finalSub ha hb hspare, val_finalSub_of_lt _ _ _ (by omega), hsum]

/-! ### Modular subtraction (R115) -/

/-- The borrow says when the modulus is added back, and what it lends is dropped with the carry out of that addition. -/
theorem val_modSubPath_emod {W K : Nat} (a b m : LimbVec W K) :
    ((modSubPath a b m).val : Int) = ((a.val : Int) - b.val + (subChain a b false).2.toNat * m.val) % 2 ^ (K * W) := by
  have hdiff := subChain_value a b false
  obtain ⟨-, hback, -⟩ := carryChainValue W K (subChain a b false).1 (maskVec (subChain a b false).2 m) false
  rw [Bool.toNat_false, Nat.cast_zero, Int.sub_zero] at hdiff
  rw [modSubPath, hback, val_maskVec, ← hdiff, Bool.toNat_false, Nat.add_zero]
  push_cast
  rw [sub_add_eq_add_sub, Int.sub_mul_emod_self_left]

theorem val_modSubPath {W K : Nat} {a b m : LimbVec W K} (ha : a.val < m.val) (hb : b.val < m.val) :
    ((modSubPath a b m).val : Int) = ((a.val : Int) - b.val) % (m.val : Int) := by
  have hm : (m.val : Int) < 2 ^ (K * W) := by exact_mod_cast m.val_lt
  have hborrow := subChain_borrow a b false
  rw [Bool.toNat_false, Nat.cast_zero, Int.sub_zero] at hborrow
  have hrange : 0 ≤ (a.val : Int) - b.val + (subChain a b false).2.toNat * m.val ∧
      (a.val : Int) - b.val + (subChain a b false).2.toNat * m.val < m.val := by
    cases hbo : (subChain a b false).2
    case false =>
      have hnoborrow : ¬ (a.val : Int) - b.val < 0 := mt hborrow.mpr (by simp [hbo])
      simp only [Bool.toNat_false, Nat.cast_zero, Int.zero_mul]
      omega
    case true =>
      have hlt : (a.val : Int) - b.val < 0 := hborrow.mp hbo
      simp only [Bool.toNat_true, Nat.cast_one, Int.one_mul]
      omega
  obtain ⟨hnonneg, hlt⟩ := hrange
  rw [val_modSubPath_emod, Int.emod_eq_of_lt hnonneg (hlt.trans hm), ← Int.emod_eq_of_lt hnonneg hlt,
    Int.add_mul_emod_self_right]

/-- Settles O48: the adder's path is the final correction of a sum below twice the modulus; the subtractor's adds the modulus back exactly
when the difference is negative. -/
theorem modularDatapathsAgree : Obligations.ModularDatapathsAgree := fun _ _ _ _ _ _ ha hb hspare =>
  ⟨val_modAddPath ha hb hspare, val_modSubPath ha hb⟩

end Sys2Proof
end

section
/-!
The modular commands (44_modadd.md R110 to R113): the issue of a command whose three fields name pairs, the remainders that the
commands write, what a command leaves whose operands are in its domain, and the four commands.
-/

namespace Sys2Proof.Machine

variable {p : Params}

/-! ### Issue (R151, R153) -/

/-- A command that reads the modulus and has no overlap to avoid can fail the BUSY, pair and configuration checks only. -/
theorem issueError_of_readsMod {i : Instr} (hmod : readsMod i = true) (hover : hasOverlap i = false) {u : Mau p}
    (hbad : u.badConfig i = false) :
    u.issueError i = if u.inFlight.isSome then some .ebusy else if hasOddPair i then some .epair
      else if u.cfgValid then none else some .enocfg := by
  cases hv : u.cfgValid <;> simp [Mau.issueError, Mau.busy_eq, hmod, hover, hbad, hv]

/-- Every field of format F3D names a pair (R64). -/
theorem hasOddPair_iff_of_F3D {i : Instr} (h : i.format = .F3D) :
    hasOddPair i = true ↔ i.rd.val % 2 = 1 ∨ i.ra.val % 2 = 1 ∨ i.rb.val % 2 = 1 := by
  simp [hasOddPair, oddPairField, h, Format.rdKind, Format.raKind, Format.rbKind, or_assoc]

/-- A command on three pairs that reads the modulus is refused while `BUSY = 1`, then for an odd field, then while nothing is
configured. -/
theorem issuesWith_pairConfigCheck {i : Instr} (hf : i.format = .F3D) (hmod : readsMod i = true)
    (hover : hasOverlap i = false) (hbad : ∀ (p : Params) (u : Mau p), u.badConfig i = false) :
    IssuesWith i fun _ u => if u.inFlight.isSome then some .ebusy
      else if i.rd.val % 2 = 1 ∨ i.ra.val % 2 = 1 ∨ i.rb.val % 2 = 1 then some .epair
      else if u.cfgValid then none else some .enocfg :=
  issuesWith_of_issueError fun p u => by
    simp only [issueError_of_readsMod hmod hover (hbad p u), hasOddPair_iff_of_F3D hf]

/-! ### The values that the commands write (R110 to R113) -/

theorem addModVal_lt {m : Nat} (hm : 0 < m) (a b : Nat) : addModVal m a b < m := Nat.mod_lt _ hm

/-- The difference is the non-negative remainder. -/
theorem cast_subModVal {m : Nat} (hm : 0 < m) (a b : Nat) : (subModVal m a b : Int) = ((a : Int) - b) % m :=
  Int.toNat_of_nonneg (Int.emod_nonneg _ (by omega))

theorem subModVal_lt {m : Nat} (hm : 0 < m) (a b : Nat) : subModVal m a b < m := by
  zify
  rw [cast_subModVal hm]
  exact Int.emod_lt_of_pos _ (by omega)

/-- The modular commands' domain check passes when both operands are below the modulus. -/
theorem belowBoth_eq_true {m a b : Nat} (ha : a < m) (hb : b < m) : belowBoth m a b = true := by
  simp [belowBoth, ha, hb]

/-! ### Completion (R110 to R113) -/

/-- The end of a command in its domain whose result is below the modulus: the register holds it whole. -/
theorem setRegIf_finish_pop (u : Mau p) {inDomain : Bool} (hdom : inDomain = true) (rd : RegNum) {x : Nat} (hx : x < u.M) :
    ((u.setRegIf inDomain rd (LimbVec.ofNat p.W p.N x)).finish.pop.reg rd).val = x ∧
      RegisterOnly u (u.setRegIf inDomain rd (LimbVec.ofNat p.W p.N x)).finish.pop := by
  rw [hdom, Mau.setRegIf, if_pos rfl]
  obtain ⟨hreg, hrest⟩ := setReg_finish_pop u rd (LimbVec.ofNat p.W p.N x)
  exact ⟨by rw [hreg, val_ofNat_of_lt_M hx], hrest⟩

/-- The same for a pair, whose modulus is `M' = M·R` (R117). -/
theorem setPairIf_finish_pop (u : Mau p) {inDomain : Bool} (hdom : inDomain = true) (rd : RegNum) {x : Nat}
    (hx : x < u.M * p.radix) :
    ((u.setPairIf inDomain rd (LimbVec.ofNat p.W (p.N + p.N) x)).finish.pop.pair rd).val = x ∧
      RegisterOnly u (u.setPairIf inDomain rd (LimbVec.ofNat p.W (p.N + p.N) x)).finish.pop := by
  rw [← val_doubleModulus] at hx
  rw [hdom, Mau.setPairIf, if_pos rfl]
  obtain ⟨hpair, -, -, hrest⟩ := holdsWide_setPair u rd (hx.trans u.doubleModulus.val_lt)
  exact ⟨hpair, hrest⟩

/-- Settles O35: `BUSY` and a missing configuration alone refuse the words, and in the domain the written value is a remainder modulo `M`. -/
theorem addmodSubmodRule : Obligations.AddmodSubmodRule := by
  intro rd ra rb
  refine ⟨(Laws.CommandWord.addmod rd ra rb).1, issuesWith_configCheck ⟨rfl, rfl⟩ rfl fun _ _ => rfl, ?addmod,
    (Laws.CommandWord.submod rd ra rb).1, issuesWith_configCheck ⟨rfl, rfl⟩ rfl fun _ _ => rfl, ?submod⟩
  case addmod =>
    refine completesWith_of_effectOf (i := .addmod rd ra rb) fun p l u hpre => ?_
    obtain ⟨ha, hb⟩ := hpre
    exact setRegIf_finish_pop u (belowBoth_eq_true ha hb) rd (addModVal_lt (Nat.zero_lt_of_lt ha) _ _)
  case submod =>
    refine completesWith_of_effectOf (i := .submod rd ra rb) fun p l u hpre => ?_
    obtain ⟨ha, hb⟩ := hpre
    have hm := Nat.zero_lt_of_lt ha
    obtain ⟨hval, hrest⟩ := setRegIf_finish_pop u (belowBoth_eq_true ha hb) rd (subModVal_lt hm l.a.val l.b.val)
    exact ⟨(congrArg Nat.cast hval).trans (cast_subModVal hm _ _), hrest⟩

/-- Settles O36: an odd field is refused before the configuration check, and in the domain the written value is a remainder modulo
`M·R`. -/
theorem addmoddSubmoddRule : Obligations.AddmoddSubmoddRule := by
  intro rd ra rb
  refine ⟨(Laws.CommandWord.addmodd rd ra rb).1,
    issuesWith_pairConfigCheck (i := .addmodd rd ra rb) rfl rfl rfl fun _ _ => rfl, ?addmodd,
    (Laws.CommandWord.submodd rd ra rb).1,
    issuesWith_pairConfigCheck (i := .submodd rd ra rb) rfl rfl rfl fun _ _ => rfl, ?submodd⟩
  case addmodd =>
    refine completesWith_of_effectOf (i := .addmodd rd ra rb) fun p l u hpre => ?_
    obtain ⟨ha, hb⟩ := hpre
    simp only [effectOf, addmoddEffect, val_doubleModulus]
    exact setPairIf_finish_pop u (belowBoth_eq_true ha hb) rd (addModVal_lt (Nat.zero_lt_of_lt ha) _ _)
  case submodd =>
    refine completesWith_of_effectOf (i := .submodd rd ra rb) fun p l u hpre => ?_
    obtain ⟨ha, hb⟩ := hpre
    have hm := Nat.zero_lt_of_lt ha
    simp only [effectOf, submoddEffect, val_doubleModulus]
    obtain ⟨hval, hrest⟩ := setPairIf_finish_pop u (belowBoth_eq_true ha hb) rd (subModVal_lt hm l.aPair.val l.bPair.val)
    exact ⟨(congrArg Nat.cast hval).trans (cast_subModVal hm _ _), hrest⟩

end Sys2Proof.Machine
end

section
/-!
The candidate and the reduction as the only numbers with their properties (45_montgomery.md R125), and what follows for products: they are
associative, have a unit, and square signs away (R131).
-/

namespace Sys2Proof

/-! ### Uniqueness (R125) -/

section
variable {p : Params} {M : Nat} (hM : M % 2 = 1)
include hM

/-- An odd modulus is prime to `R`. -/
theorem radix_coprime : p.radix.Coprime M :=
  (Nat.coprime_two_left.mpr (Nat.odd_iff.mpr hM)).pow_left _

/-- `m(T)` is the only number below `R` that makes `T + m·M` a multiple of `R`. -/
theorem eq_montM_of_radix_dvd {T m : Nat} (hm : m < p.radix) (h : p.radix ∣ T + m * M) : m = montM p.radix M T := by
  have hmul : m * M ≡ montM p.radix M T * M [MOD p.radix] :=
    Nat.ModEq.add_left_cancel' T <|
      (Nat.modEq_zero_iff_dvd.mpr h).trans (Nat.modEq_zero_iff_dvd.mpr (radix_dvd_add_montM_mul hM T)).symm
  exact (hmul.cancel_right_of_coprime (radix_coprime hM)).eq_of_lt_of_lt hm (montM_lt p M T)

/-- A number that is `T` plus a multiple of `M`, divided by `R`, is the candidate if the multiplier is below `R`. -/
theorem eq_cand_of_mul_radix {T m c : Nat} (hm : m < p.radix) (h : c * p.radix = T + m * M) : c = cand p.radix M T := by
  have hmontM : m = montM p.radix M T := eq_montM_of_radix_dvd hM hm (Dvd.intro_left c h)
  refine Nat.eq_of_mul_eq_mul_right p.radix_pos ?_
  rw [h, cand_mul_radix hM, hmontM]

theorem redc_modEq (T : Nat) : redc p.radix M T * p.radix ≡ T [MOD M] := redc_mul_radix_mod hM T

/-- `R` can be cancelled modulo `M`. -/
theorem modEq_of_mul_radix {a b : Nat} (h : a * p.radix ≡ b * p.radix [MOD M]) : a ≡ b [MOD M] :=
  h.cancel_right_of_coprime (radix_coprime hM).symm

/-- The reduction is the only number below `M` that times `R` is `T` modulo `M`. -/
theorem redc_eq_of_modEq {T r : Nat} (hT : T < M * p.radix) (hr : r < M) (h : r * p.radix ≡ T [MOD M]) :
    redc p.radix M T = r :=
  (modEq_of_mul_radix hM ((redc_modEq hM T).trans h.symm)).eq_of_lt_of_lt (redc_lt hT) hr

/-- Congruent numbers have one reduction. -/
theorem redc_congr {T T' : Nat} (hT : T < M * p.radix) (hT' : T' < M * p.radix) (h : T ≡ T' [MOD M]) :
    redc p.radix M T = redc p.radix M T' :=
  redc_eq_of_modEq hM hT (redc_lt hT') ((redc_modEq hM T').trans h.symm)

end

/-- In the domain one subtraction reduces the candidate modulo `M`. -/
theorem redc_eq_cand_mod {p : Params} {M T : Nat} (hT : T < M * p.radix) : redc p.radix M T = cand p.radix M T % M := by
  have hcand := cand_lt hT
  unfold redc
  split
  case isTrue hle => rw [Nat.mod_eq_sub_mod hle, Nat.mod_eq_of_lt (by omega)]
  case isFalse hgt => rw [Nat.mod_eq_of_lt (Nat.lt_of_not_le hgt)]

/-- For the largest modulus, `M = R − 1`, the largest `T` of the domain has `m(T) = R − 1`, and its candidate is `2M − 1`. -/
theorem cand_of_radix_eq_succ {p : Params} {M : Nat} (hM : M % 2 = 1) (hR : p.radix = M + 1) :
    cand p.radix M (M * p.radix - 1) = 2 * M - 1 := by
  refine (eq_cand_of_mul_radix hM (m := M) (hR ▸ Nat.lt_succ_self M) ?_).symm
  have hle := Nat.le_mul_self M
  rw [hR, Nat.sub_mul, Nat.mul_assoc, Nat.mul_succ]
  omega

/-- `W = 32`, `N = 1` with the modulus `2^32 − 1`: a candidate that does not fit `N` limbs. -/
theorem exists_radix_le_cand : ∃ (p : Params) (M T : Nat), M % 2 = 1 ∧ M < p.radix ∧ T < M * p.radix ∧
    p.radix ≤ cand p.radix M T := by
  have hR : (Params.mk .w32 1 (by decide) (by decide)).radix = 2 ^ 32 - 1 + 1 := rfl
  refine ⟨_, 2 ^ 32 - 1, _, rfl, by rw [hR]; decide, Nat.sub_one_lt ?_, ?_⟩
  · rw [hR]
    decide
  · rw [cand_of_radix_eq_succ rfl hR, hR]
    decide

/-- Settles O44: the arithmetic of R125 with `m(T)` unique, and parameters whose candidate does not fit `N` limbs. -/
theorem candidateAndItsBound : Obligations.CandidateAndItsBound := by
  refine ⟨?_, exists_radix_le_cand⟩
  intro p M T hM _ hT
  have hcand := cand_lt hT
  exact ⟨montM_lt p M T, Nat.mod_eq_zero_of_dvd (radix_dvd_add_montM_mul hM T),
    fun m hm h => eq_montM_of_radix_dvd hM hm (Nat.dvd_of_mod_eq_zero h), cand_mul_radix hM T, cand_mul_radix_mod hM T,
    hcand, redc_lt hT, redc_mul_radix_mod hM T, rfl, fun h => hcand.trans_le h⟩

/-! ### Montgomery products (R131) -/

/-- The product of numbers below `M` is in the domain. -/
theorem mul_lt_mul_radix {p : Params} {M a b : Nat} (hMR : M < p.radix) (ha : a < M) (hb : b < M) : a * b < M * p.radix :=
  Nat.mul_lt_mul'' ha (hb.trans hMR)

section
variable {p : Params} {M : Nat} (hM : M % 2 = 1) (hMR : M < p.radix)
include hM hMR

theorem redc_mul_assoc {a b c : Nat} (ha : a < M) (hb : b < M) (hc : c < M) :
    redc p.radix M (redc p.radix M (a * b) * c) = redc p.radix M (a * redc p.radix M (b * c)) := by
  have hab : redc p.radix M (a * b) < M := redc_lt (mul_lt_mul_radix hMR ha hb)
  have hbc : redc p.radix M (b * c) < M := redc_lt (mul_lt_mul_radix hMR hb hc)
  refine redc_congr hM (mul_lt_mul_radix hMR hab hc) (mul_lt_mul_radix hMR ha hbc) (modEq_of_mul_radix (p := p) hM ?_)
  calc redc p.radix M (a * b) * c * p.radix
    _ = redc p.radix M (a * b) * p.radix * c := Nat.mul_right_comm ..
    _ ≡ a * b * c [MOD M] := (redc_modEq hM _).mul_right c
    _ = a * (b * c) := Nat.mul_assoc ..
    _ ≡ a * (redc p.radix M (b * c) * p.radix) [MOD M] := ((redc_modEq hM _).mul_left a).symm
    _ = a * redc p.radix M (b * c) * p.radix := (Nat.mul_assoc ..).symm

/-- `R mod M` is the unit. -/
theorem redc_radix_mod_mul {b : Nat} (hb : b < M) : redc p.radix M (p.radix % M * b) = b := by
  refine redc_eq_of_modEq hM (mul_lt_mul_radix hMR (Nat.mod_lt _ (by omega)) hb) hb ?_
  rw [Nat.mul_comm]
  exact (Nat.mod_modEq p.radix M).symm.mul_right b

theorem redc_neg_mul_neg {a : Nat} (hpos : 0 < a) (ha : a < M) :
    redc p.radix M ((M - a) * (M - a)) = redc p.radix M (a * a) := by
  have hneg : M - a < M := Nat.sub_lt (by omega) hpos
  refine redc_congr hM (mul_lt_mul_radix hMR hneg hneg) (mul_lt_mul_radix hMR ha ha) ?_
  rw [← ZMod.natCast_eq_natCast_iff]
  push_cast [ha.le]
  rw [ZMod.natCast_self]
  ring

end

/-- The final correction of a candidate that fits `N` limbs is the reduction. -/
theorem val_finalSub_cand {p : Params} {M T : Nat} (hMR : M < p.radix) (h2M : 2 * M ≤ p.radix) (hT : T < M * p.radix) :
    (finalSub false (LimbVec.ofNat p.W p.N (cand p.radix M T)) (LimbVec.ofNat p.W p.N M)).val = redc p.radix M T := by
  have hfits : cand p.radix M T < p.radix := (cand_lt hT).trans_le h2M
  rw [val_finalSub_false, LimbVec.val_ofNat, LimbVec.val_ofNat, ← Params.radix, Nat.mod_eq_of_lt hfits,
    Nat.mod_eq_of_lt hMR, redc]

/-- Settles O45: both sides of each equation are reductions of congruent numbers in the domain. -/
theorem montgomeryEquivalences : Obligations.MontgomeryEquivalences := fun _ _ hM hMR =>
  ⟨fun _ _ _ ha hb hc => redc_mul_assoc hM hMR ha hb hc, fun _ hb => redc_radix_mod_mul hM hMR hb,
    fun _ hpos ha => redc_neg_mul_neg hM hMR hpos ha, fun h2M _ hT => val_finalSub_cand hMR h2M hT⟩

end Sys2Proof
end

section
/-!
The Montgomery commands (45_montgomery.md R120 to R126, R130): the domain in numbers, the issue of MREDC, what the commands leave whose
operands are in their domain, and the five commands.
-/

namespace Sys2Proof

/-- Two spare bits leave room for the product of operands below `2M` (R126). -/
theorem mul_lt_mul_radix_of_lazy {p : Params} {M a b : Nat} (h4M : 4 * M ≤ p.radix) (ha : a < 2 * M) (hb : b < 2 * M) :
    a * b < M * p.radix := by
  calc a * b
    _ < 2 * M * (2 * M) := Nat.mul_lt_mul'' ha hb
    _ = M * (4 * M) := by ring
    _ ≤ M * p.radix := Nat.mul_le_mul_left M h4M

theorem lt_two_pow_bitlen (x : Nat) : x < 2 ^ bitlen x := by
  unfold bitlen
  split
  case isTrue h => simp [h]
  case isFalse => exact Nat.lt_log2_self

end Sys2Proof

namespace Sys2Proof.Machine

variable {p : Params}

/-! ### The domain (R126) -/

/-- `SPAREBITS = k` leaves `k` bits of `R` above the modulus (R29). -/
theorem Configured.two_pow_mul_M_le {u : Mau p} (hu : Configured u) {k : Nat} (hk : 1 ≤ k) (h : k ≤ u.spareBits.toNat) :
    2 ^ k * u.M ≤ p.radix := by
  obtain ⟨hvalid, hconfig⟩ := hu
  obtain ⟨-, -, hspare⟩ := hconfig hvalid
  calc 2 ^ k * u.M
    _ ≤ 2 ^ k * 2 ^ bitlen u.M := Nat.mul_le_mul_left _ (lt_two_pow_bitlen u.M).le
    _ = 2 ^ (k + bitlen u.M) := (Nat.pow_add ..).symm
    _ ≤ p.radix := Nat.pow_le_pow_right two_pos (by omega)

theorem Configured.M_odd {u : Mau p} (hu : Configured u) : u.M % 2 = 1 := by
  obtain ⟨hvalid, hconfig⟩ := hu
  obtain ⟨hodd, -, -⟩ := hconfig hvalid
  exact hodd

/-- The product of operands in the multiplications' domain is in the reduction's. -/
theorem mul_lt_of_inMulDomain {u : Mau p} (hu : Configured u) {a b : Nat} (h : InMulDomain u a b) :
    a * b < u.M * p.radix := by
  obtain ⟨ha, hb⟩ | ⟨hspare, ha, hb⟩ := h
  · exact mul_lt_M_mul_radix ha hb
  · exact mul_lt_mul_radix_of_lazy (hu.two_pow_mul_M_le one_le_two hspare) ha hb

/-! ### Issue (R120, R151) -/

theorem hasOddPair_mredc_iff (rd ra : RegNum) : hasOddPair (.mredc rd ra) = true ↔ ra.val % 2 = 1 := by
  simp [hasOddPair, oddPairField, Instr.format, Format.rdKind, Format.raKind, Format.rbKind, Instr.ra]

/-! ### Completion (R120 to R124) -/

/-- `t` is `u` with the number below `M` in `V[rd]` that times `R` is `T` modulo `M`: the reduction of `T`. -/
def HoldsReduced (rd : RegNum) (T : Nat) (u t : Mau p) : Prop :=
  (t.reg rd).val < u.M ∧ (t.reg rd).val * p.radix % u.M = T % u.M ∧ (t.reg rd).val = redc p.radix u.M T ∧ RegisterOnly u t

/-- A command that writes the reduction of `T`, in its domain. -/
theorem holdsReduced_setRegIf {u : Mau p} (hu : Configured u) {inDomain : Bool} (hdom : inDomain = true) (rd : RegNum)
    {T : Nat} (hT : T < u.M * p.radix) :
    HoldsReduced rd T u (u.setRegIf inDomain rd (LimbVec.ofNat p.W p.N (redc p.radix u.M T))).finish.pop := by
  obtain ⟨hval, hrest⟩ := setRegIf_finish_pop u hdom rd (redc_lt hT)
  rw [HoldsReduced, hval]
  exact ⟨redc_lt hT, redc_mul_radix_mod hu.M_odd T, rfl, hrest⟩

theorem holdsReduced_product {u : Mau p} (hu : Configured u) (rd : RegNum) {a b : Nat} (h : InMulDomain u a b) :
    HoldsReduced rd (a * b) u (u.setRegIf (mulDomain u.M u.spareBits.toNat a b) rd
      (LimbVec.ofNat p.W p.N (redc p.radix u.M (a * b)))).finish.pop :=
  holdsReduced_setRegIf hu (mulDomain_eq_true h) rd (mul_lt_of_inMulDomain hu h)

/-- Settles O37: only `RA` names a pair, and in the domain the written value is the reduction. -/
theorem mredcRule : Obligations.MredcRule := by
  intro rd ra
  refine ⟨(Laws.CommandWord.mredc rd ra).1, issuesWith_of_issueError fun p u => ?issue,
    completesWith_of_effectOf (i := .mredc rd ra) fun p l u hpre => ?complete⟩
  case issue => simp only [issueError_of_readsMod (i := .mredc rd ra) rfl rfl rfl, hasOddPair_mredc_iff]
  case complete =>
    obtain ⟨hu, hT⟩ := hpre
    exact holdsReduced_setRegIf hu (decide_eq_true hT) rd hT

/-- Settles O38: the product of operands in the domain is in the reduction's domain. -/
theorem mmulMsqrRule : Obligations.MmulMsqrRule := by
  intro rd ra rb
  refine ⟨(Laws.CommandWord.mmul rd ra rb).1, issuesWith_configCheck ⟨rfl, rfl⟩ rfl fun _ _ => rfl, ?mmul,
    (Laws.CommandWord.msqr rd ra).1, issuesWith_configCheck ⟨rfl, rfl⟩ rfl fun _ _ => rfl, ?msqr⟩
  case mmul =>
    exact completesWith_of_effectOf (i := .mmul rd ra rb) fun p l u ⟨hu, h⟩ => holdsReduced_product hu rd h
  case msqr =>
    exact completesWith_of_effectOf (i := .msqr rd ra) fun p l u ⟨hu, h⟩ => holdsReduced_product hu rd h

/-! ### Without final subtraction (R122, R124, R130) -/

theorem redcNoFinal_of_pos {R M spareBits : Nat} (h : 1 ≤ spareBits) (T : Nat) :
    redcNoFinal R M spareBits T = cand R M T := if_pos h

theorem redcNoFinal_of_zero {R M spareBits : Nat} (h : spareBits = 0) (T : Nat) :
    redcNoFinal R M spareBits T = redc R M T := if_neg (by omega)

theorem redcNoFinal_lt {M T : Nat} (spareBits : Nat) (hT : T < M * p.radix) :
    redcNoFinal p.radix M spareBits T < 2 * M := by
  unfold redcNoFinal
  split
  case isTrue => exact cand_lt hT
  case isFalse => exact (redc_lt hT).trans_le (by omega)

theorem redcNoFinal_mul_radix_mod {M : Nat} (hM : M % 2 = 1) (spareBits T : Nat) :
    redcNoFinal p.radix M spareBits T * p.radix % M = T % M := by
  unfold redcNoFinal
  split
  case isTrue => exact cand_mul_radix_mod hM T
  case isFalse => exact redc_mul_radix_mod hM T

/-- `t` is `u` with a number below `2M` in `V[rd]` that times `R` is `T` modulo `M`: the candidate of `T`, or its reduction when there is
no spare bit. -/
def HoldsUnreduced (rd : RegNum) (T : Nat) (u t : Mau p) : Prop :=
  (t.reg rd).val < 2 * u.M ∧ (t.reg rd).val * p.radix % u.M = T % u.M ∧
    (1 ≤ u.spareBits.toNat → (t.reg rd).val = cand p.radix u.M T) ∧
    (u.spareBits.toNat = 0 → (t.reg rd).val = redc p.radix u.M T) ∧ RegisterOnly u t

/-- With a spare bit the candidate fits the register, and without one the reduction does. -/
theorem redcNoFinal_lt_radix {u : Mau p} (hu : Configured u) {T : Nat} (hT : T < u.M * p.radix) :
    redcNoFinal p.radix u.M u.spareBits.toNat T < p.radix := by
  unfold redcNoFinal
  split
  case isTrue hspare => exact (cand_lt hT).trans_le (hu.two_pow_mul_M_le le_rfl hspare)
  case isFalse => exact (redc_lt hT).trans u.modulus.val_lt

theorem holdsUnreduced_product {u : Mau p} (hu : Configured u) (rd : RegNum) {a b : Nat} (h : InMulDomain u a b) :
    HoldsUnreduced rd (a * b) u (u.setRegIf (mulDomain u.M u.spareBits.toNat a b) rd
      (LimbVec.ofNat p.W p.N (redcNoFinal p.radix u.M u.spareBits.toNat (a * b)))).finish.pop := by
  have hT := mul_lt_of_inMulDomain hu h
  have hfits := redcNoFinal_lt_radix hu hT
  rw [mulDomain_eq_true h, Mau.setRegIf, if_pos rfl]
  obtain ⟨hreg, hrest⟩ := setReg_finish_pop u rd
    (LimbVec.ofNat p.W p.N (redcNoFinal p.radix u.M u.spareBits.toNat (a * b)))
  rw [HoldsUnreduced, hreg, LimbVec.val_ofNat, ← Params.radix, Nat.mod_eq_of_lt hfits]
  exact ⟨redcNoFinal_lt _ hT, redcNoFinal_mul_radix_mod hu.M_odd _ _, fun hspare => redcNoFinal_of_pos hspare _,
    fun hspare => redcNoFinal_of_zero hspare _, hrest⟩

/-- Settles O39: what is written fits the register, and is the candidate or the reduction as `SPAREBITS` says. -/
theorem mmulnfMsqrnfRule : Obligations.MmulnfMsqrnfRule := by
  intro rd ra rb
  refine ⟨(Laws.CommandWord.mmulnf rd ra rb).1, issuesWith_configCheck ⟨rfl, rfl⟩ rfl fun _ _ => rfl, ?mmulnf,
    (Laws.CommandWord.msqrnf rd ra).1, issuesWith_configCheck ⟨rfl, rfl⟩ rfl fun _ _ => rfl, ?msqrnf⟩
  case mmulnf =>
    exact completesWith_of_effectOf (i := .mmulnf rd ra rb) fun p l u ⟨hu, h⟩ => holdsUnreduced_product hu rd h
  case msqrnf =>
    exact completesWith_of_effectOf (i := .msqrnf rd ra) fun p l u ⟨hu, h⟩ => holdsUnreduced_product hu rd h

/-! ### No spare bit (R130) -/

theorem mmulnfEffect_of_zero {u : Mau p} (h : u.spareBits.toNat = 0) (rd : RegNum) (l : Latch p) :
    mmulnfEffect rd l u = mmulEffect rd l u := by
  rw [mmulnfEffect, redcNoFinal_of_zero h, mmulEffect]

theorem msqrnfEffect_of_zero {u : Mau p} (h : u.spareBits.toNat = 0) (rd : RegNum) (l : Latch p) :
    msqrnfEffect rd l u = msqrEffect rd l u := by
  rw [msqrnfEffect, redcNoFinal_of_zero h, msqrEffect]

/-- A command's effect does not read which command is in flight, and its completion clears that. -/
theorem effectOf_finish_of_inFlight (i : Instr) (l : Latch p) (u : Mau p) (f : Option (Latch p)) :
    (effectOf i l { u with inFlight := f }).finish = (effectOf i l u).finish := by
  have hreg : ∀ b r x, ({ u with inFlight := f }.setRegIf b r x).finish = (u.setRegIf b r x).finish := by
    intro b r x
    cases b <;> rfl
  have hpair : ∀ b k t, ({ u with inFlight := f }.setPairIf b k t).finish = (u.setPairIf b k t).finish := by
    intro b k t
    cases b <;> rfl
  cases i
  case addmod | submod | mredc | mmul | mmulnf | msqr | msqrnf => exact hreg _ _ _
  case addmodd | submodd => exact hpair _ _ _
  all_goals rfl

/-- Two commands with one effect, each put in flight, complete alike when the Unit moves next. -/
theorem exec_eq_of_effectOf_eq {u : Mau p} (hs : u.script = [] ∨ ∃ rest, u.script = .unit :: rest) (l l' : Latch p)
    (h : effectOf l.cmd l u = effectOf l'.cmd l' u) :
    exec l.cmd ⟨p, { u with inFlight := some l }⟩ = exec l'.cmd ⟨p, { u with inFlight := some l' }⟩ := by
  have hc : ∀ k : Latch p, Mau.completing { u with inFlight := some k } = some k := by
    intro k
    obtain hs | ⟨rest, hs⟩ := hs <;> simp [Mau.completing, hs]
  rw [exec_completing (hc l) rfl, exec_completing (hc l') rfl, effectOf_finish_of_inFlight _ l u (some l),
    effectOf_finish_of_inFlight _ l' u (some l'), h]

/-- Settles O43: without a spare bit the effects are one, in the domain and out of it. -/
theorem noSpareBitMeansFullyReduced : Obligations.NoSpareBitMeansFullyReduced := by
  intro p u l rd ra rb hs hspare
  constructor
  · exact exec_eq_of_effectOf_eq hs { l with cmd := .mmulnf rd ra rb } { l with cmd := .mmul rd ra rb }
      (mmulnfEffect_of_zero hspare rd _)
  · exact exec_eq_of_effectOf_eq hs { l with cmd := .msqrnf rd ra } { l with cmd := .msqr rd ra }
      (msqrnfEffect_of_zero hspare rd _)

end Sys2Proof.Machine
end

section
/-!
The CIOS datapaths (45_montgomery.md R127, R128): one row, which both share, one reduction digit, and the two loops, each of which divides
its number exactly by one word in every step.
-/

namespace Sys2Proof

/-! ### Two-word sums -/

/-- Two words are determined by their number. -/
theorem words_eq_of_value_eq {W : Nat} {r s : BitVec W × BitVec W}
    (h : r.1.toNat * 2 ^ W + r.2.toNat = s.1.toNat * 2 ^ W + s.2.toNat) : r = s := by
  have hlo := congrArg (· % 2 ^ W) h
  simp only [Nat.mul_add_mod_self_right, Nat.mod_eq_of_lt (BitVec.isLt _)] at hlo
  rw [hlo] at h
  have hhi := Nat.eq_of_mul_eq_mul_right (Nat.two_pow_pos W) (Nat.add_right_cancel h)
  exact Prod.ext (BitVec.eq_of_toNat_eq hhi) (BitVec.eq_of_toNat_eq hlo)

/-- `x + y·z + c` fits two words. -/
theorem add_mul_add_lt {W : Nat} (x y z c : BitVec W) : x.toNat + y.toNat * z.toNat + c.toNat < 2 ^ W * 2 ^ W := by
  have hx := x.isLt
  have hc := c.isLt
  have hyz : y.toNat * z.toNat ≤ (2 ^ W - 1) * (2 ^ W - 1) :=
    Nat.mul_le_mul (Nat.le_sub_one_of_lt y.isLt) (Nat.le_sub_one_of_lt z.isLt)
  obtain ⟨b, hb⟩ : ∃ b, 2 ^ W = b + 1 := ⟨2 ^ W - 1, by omega⟩
  rw [hb] at hx hc hyz ⊢
  rw [Nat.add_sub_cancel] at hyz
  linarith

theorem mulAddWord_value {W : Nat} (x y z c : BitVec W) :
    (mulAddWord x y z c).1.toNat * 2 ^ W + (mulAddWord x y z c).2.toNat = x.toNat + y.toNat * z.toNat + c.toNat := by
  have hhi := Nat.div_lt_of_lt_mul (add_mul_add_lt x y z c)
  simp only [mulAddWord, BitVec.toNat_ofNat, Nat.mod_eq_of_lt hhi]
  exact Nat.div_add_mod' _ _

/-- The two words of `x + c`. -/
theorem addWord_value {W : Nat} (x c : BitVec W) :
    (addWord x c).1.toNat * 2 ^ W + (addWord x c).2.toNat = x.toNat + c.toNat := by
  have hmulAdd : addWord x c = mulAddWord x 0#W 0#W c := by simp [addWord, mulAddWord]
  rw [hmulAdd, mulAddWord_value, BitVec.toNat_zero, Nat.zero_mul, Nat.add_zero]

/-- The high word of `x + c` is a carry. -/
theorem addWord_high_le_one {W : Nat} (x c : BitVec W) : (addWord x c).1.toNat ≤ 1 := by
  have hvalue := addWord_value x c
  have hx := x.isLt
  have hc := c.isLt
  refine Nat.le_of_lt_succ (Nat.lt_of_mul_lt_mul_right (a := 2 ^ W) ?_)
  omega

/-- Two carries do not overflow a word. -/
theorem toNat_add_carries {W : Nat} (hW : 2 ≤ W) (x c x' c' : BitVec W) :
    ((addWord x c).1 + (addWord x' c').1).toNat = (addWord x c).1.toNat + (addWord x' c').1.toNat := by
  have h := addWord_high_le_one x c
  have h' := addWord_high_le_one x' c'
  have hword : 2 ^ 2 ≤ 2 ^ W := Nat.pow_le_pow_right two_pos hW
  rw [BitVec.toNat_add, Nat.mod_eq_of_lt (by omega)]

/-- One word of the separated reduction's inner loop: the word carried on and the new limb (R127). -/
def addMulWord {W : Nat} (m y x c : BitVec W) : BitVec W × BitVec W :=
  let r := mulWide m y
  let s1 := addWithCarry x r.2 false
  let s2 := addWithCarry s1.1 c false
  (r.1 + BitVec.ofNat W s1.2.toNat + BitVec.ofNat W s2.2.toNat, s2.1)

/-- The product's words and the two carries make the two words of `x + y·m + c`. -/
theorem addMulWord_eq_mulAddWord {W : Nat} (m y x c : BitVec W) : addMulWord m y x c = mulAddWord x y m c := by
  have hprod := mulWide_toNat m y
  have hsum1 := addWithCarry_value x (mulWide m y).2 false
  have hsum2 := addWithCarry_value (addWithCarry x (mulWide m y).2 false).1 c false
  have hlt := add_mul_add_lt x y m c
  simp only [addMulWord]
  generalize addWithCarry (addWithCarry x (mulWide m y).2 false).1 c false = s2 at *
  generalize addWithCarry x (mulWide m y).2 false = s1 at *
  generalize mulWide m y = r at *
  have htotal : (r.1.toNat + s1.2.toNat + s2.2.toNat) * 2 ^ W + s2.1.toNat = x.toNat + y.toNat * m.toNat + c.toNat := by
    rw [Bool.toNat_false] at hsum1 hsum2
    linear_combination hprod + hsum1 + hsum2
  have hhi : r.1.toNat + s1.2.toNat + s2.2.toNat < 2 ^ W :=
    Nat.lt_of_mul_lt_mul_right ((Nat.le_of_add_right_le htotal.le).trans_lt hlt)
  apply words_eq_of_value_eq
  rw [mulAddWord_value, ← htotal]
  simp [BitVec.toNat_add, Nat.mod_eq_of_lt hhi]

/-! ### One row -/

/-- The two datapaths have one row. -/
theorem addMulRow_eq_mulAddRow {W : Nat} (m : BitVec W) (ys xs : List (BitVec W)) (c : BitVec W) :
    addMulRow m ys xs c = mulAddRow m ys xs c := by
  induction ys generalizing xs c with
  | nil => rfl
  | cons y ys ih =>
    cases xs with
    | nil => rfl
    | cons x xs => rw [mulAddRow, ← addMulWord_eq_mulAddWord, ← ih, addMulRow, addMulWord]

section
variable {W : Nat} (z : BitVec W) {ys xs : List (BitVec W)} (c : BitVec W) (h : ys.length = xs.length)
include h

theorem length_mulAddRow : (mulAddRow z ys xs c).1.length = xs.length := by
  induction ys generalizing xs c with
  | nil => simpa [mulAddRow] using h
  | cons y ys ih =>
    cases xs with
    | nil => cases h
    | cons x xs => simp [mulAddRow, ih _ (Nat.succ.inj h)]

/-- The row's limbs and the word carried out are `xs + ys·z + c`. -/
theorem limbsVal_mulAddRow : limbsVal (mulAddRow z ys xs c).1 + 2 ^ (xs.length * W) * (mulAddRow z ys xs c).2.toNat =
    limbsVal xs + limbsVal ys * z.toNat + c.toNat := by
  induction ys generalizing xs c with
  | nil =>
    cases xs with
    | nil => simp [mulAddRow, limbsVal]
    | cons x xs => cases h
  | cons y ys ih =>
    cases xs with
    | nil => cases h
    | cons x xs =>
      have hword := mulAddWord_value x y z c
      have hrest := ih (mulAddWord x y z c).1 (Nat.succ.inj h)
      simp only [mulAddRow, limbsVal, List.length_cons, Nat.succ_mul, Nat.pow_add]
      linear_combination hword + 2 ^ W * hrest

end

/-! ### One digit -/

theorem limbsVal_eq_head_add_tail {W : Nat} (xs : List (BitVec W)) :
    limbsVal xs = (limbAt xs 0).toNat + 2 ^ W * limbsVal xs.tail := by
  cases xs <;> simp [limbsVal, limbAt]

theorem limbsVal_modEq_head {W : Nat} (xs : List (BitVec W)) : limbsVal xs ≡ (limbAt xs 0).toNat [MOD 2 ^ W] := by
  rw [limbsVal_eq_head_add_tail, Nat.ModEq, Nat.add_mul_mod_self_left]

/-- Dropping a row's lowest limb lowers what stands above the row by one word. -/
theorem limbsVal_tail_append {W : Nat} {row : List (BitVec W)} (hpos : 1 ≤ row.length) (ws : List (BitVec W)) :
    limbsVal (row.tail ++ ws) * 2 ^ W = 2 ^ W * limbsVal row.tail + 2 ^ (row.length * W) * limbsVal ws := by
  cases row with
  | nil => cases hpos
  | cons r row =>
    rw [List.tail_cons, limbsVal_append, List.length_cons, Nat.succ_mul, Nat.pow_add]
    ring

/-- `q` is `−M[0]⁻¹` modulo a word (R28). -/
def NegInvDigit {W : Nat} (M : List (BitVec W)) (q : BitVec W) : Prop :=
  (limbAt M 0).toNat * q.toNat % 2 ^ W = 2 ^ W - 1

/-- The digit `t[0]·q` makes the lowest limb of `t + m·M` 0. -/
theorem dvd_add_mul_digit {W : Nat} {M : List (BitVec W)} {q : BitVec W} (hq : NegInvDigit M q) (t : List (BitVec W)) :
    2 ^ W ∣ limbsVal t + limbsVal M * (limbAt t 0 * q).toNat := by
  have hinv : (limbAt M 0).toNat * q.toNat + 1 ≡ 0 [MOD 2 ^ W] := by
    have hone := Nat.one_le_two_pow (n := W)
    have hmod : (limbAt M 0).toNat * q.toNat ≡ 2 ^ W - 1 [MOD 2 ^ W] := by
      rw [Nat.ModEq, hq, Nat.mod_eq_of_lt (by omega)]
    have hsucc := hmod.add_right 1
    rw [Nat.sub_add_cancel hone] at hsucc
    exact hsucc.trans (Nat.modEq_zero_iff_dvd.mpr dvd_rfl)
  rw [← Nat.modEq_zero_iff_dvd, BitVec.toNat_mul]
  calc limbsVal t + limbsVal M * ((limbAt t 0).toNat * q.toNat % 2 ^ W)
    _ ≡ (limbAt t 0).toNat + (limbAt M 0).toNat * ((limbAt t 0).toNat * q.toNat) [MOD 2 ^ W] :=
      (limbsVal_modEq_head t).add ((limbsVal_modEq_head M).mul (Nat.mod_modEq _ _))
    _ = (limbAt t 0).toNat * ((limbAt M 0).toNat * q.toNat + 1) := by ring
    _ ≡ (limbAt t 0).toNat * 0 [MOD 2 ^ W] := hinv.mul_left _
    _ = 0 := Nat.mul_zero _

/-- The row of one reduction digit: its lowest limb is 0, and without it the row is the sum divided by one word. -/
theorem limbsVal_reductionRow {W : Nat} {M t : List (BitVec W)} {q : BitVec W} (hq : NegInvDigit M q)
    (h : M.length = t.length) (hpos : 1 ≤ t.length) :
    2 ^ W * limbsVal (mulAddRow (limbAt t 0 * q) M t 0#W).1.tail +
      2 ^ (t.length * W) * (mulAddRow (limbAt t 0 * q) M t 0#W).2.toNat =
        limbsVal t + limbsVal M * (limbAt t 0 * q).toNat := by
  have hrow := limbsVal_mulAddRow (limbAt t 0 * q) 0#W h
  have hdvd := dvd_add_mul_digit hq t
  rw [BitVec.toNat_zero, Nat.add_zero] at hrow
  generalize mulAddRow (limbAt t 0 * q) M t 0#W = row at *
  have hcarry : 2 ^ W ∣ 2 ^ (t.length * W) * row.2.toNat :=
    (pow_dvd_pow 2 (Nat.le_mul_of_pos_left W hpos)).mul_right _
  rw [← hrow, Nat.dvd_add_left hcarry, ← Nat.modEq_zero_iff_dvd] at hdvd
  have hhead : (limbAt row.1 0).toNat = 0 :=
    ((limbsVal_modEq_head row.1).symm.trans hdvd).eq_of_lt_of_lt (BitVec.isLt _) (Nat.two_pow_pos W)
  rw [← hrow, limbsVal_eq_head_add_tail row.1, hhead, Nat.zero_add]

/-! ### All digits -/

/-- `y` is `x` with a multiple of `M` added and divided exactly by `k` words, the multiplier being below `2^(k·W)`. -/
def ReducesBy (W M k x y : Nat) : Prop := ∃ m < 2 ^ (k * W), y * 2 ^ (k * W) = x + m * M

theorem reducesBy_zero (W M x : Nat) : ReducesBy W M 0 x x := ⟨0, by simp⟩

/-- One digit, and then `k` more with `s` added in between. -/
theorem ReducesBy.digit {W M k x y z s : Nat} {m : BitVec W} (hdigit : y * 2 ^ W = x + m.toNat * M)
    (h : ReducesBy W M k (y + s) z) : ReducesBy W M (k + 1) (x + 2 ^ W * s) z := by
  obtain ⟨n, hn, hz⟩ := h
  refine ⟨m.toNat + 2 ^ W * n, ?_, ?_⟩
  · rw [Nat.succ_mul, Nat.pow_add]
    have hn' := Nat.mul_le_mul_left (2 ^ W) (Nat.succ_le_of_lt hn)
    have hm := m.isLt
    linarith
  · rw [Nat.succ_mul, Nat.pow_add]
    linear_combination 2 ^ W * hz + hdigit

/-- After `N` digits the number is the candidate (R125). -/
theorem ReducesBy.eq_cand {p : Params} {M x y : Nat} (hM : M % 2 = 1) (h : ReducesBy p.W M p.N x y) :
    y = cand p.radix M x := by
  obtain ⟨m, hm, hy⟩ := h
  exact eq_cand_of_mul_radix hM hm hy

/-! ### The separated reduction (R127) -/

/-- The number of a state before step `i`: the limbs from `i` on, with the running high carry `n` limbs above. -/
def CiosState.value {W : Nat} (n i : Nat) (x : CiosState W) : Nat :=
  limbsVal (x.t.drop i) + 2 ^ (n * W) * x.hi.toNat

/-- The limbs from `i` on: the `n` limbs of the row, the limb above, and the rest. -/
theorem drop_eq_window {W n i : Nat} {t : List (BitVec W)} (h : i + n < t.length) :
    t.drop i = (t.drop i).take n ++ limbAt t (i + n) :: t.drop (i + n + 1) := by
  have hlimb : limbAt t (i + n) = t[i + n] := by simp [limbAt, h]
  rw [hlimb, ← List.drop_eq_getElem_cons h, ← List.drop_drop, List.take_append_drop]

theorem length_ciosStep {W i : Nat} {M : List (BitVec W)} (q : BitVec W) {x : CiosState W}
    (h : i + M.length < x.t.length) : (ciosStep M q i x).t.length = x.t.length := by
  have hrow : ((x.t.drop i).take M.length).length = M.length := by simp; omega
  simp only [ciosStep, addMulRow_eq_mulAddRow, List.length_append, List.length_take, List.length_drop,
    List.length_singleton, length_mulAddRow _ _ hrow.symm]
  omega

/-- Past limb `i`, a list whose limbs from `i` on are replaced starts with the tail of the replacement. -/
theorem drop_succ_replace {W i : Nat} {t row : List (BitVec W)} (w : BitVec W) (rest : List (BitVec W))
    (hi : i ≤ t.length) (hrow : 1 ≤ row.length) :
    (t.take i ++ row ++ [w] ++ rest).drop (i + 1) = row.tail ++ w :: rest := by
  have hlen : (t.take i).length = i := by simpa using hi
  cases row with
  | nil => simp at hrow
  | cons r row =>
    rw [List.append_assoc, List.append_assoc, ← List.drop_drop, List.drop_left' hlen]
    simp

section
variable {W : Nat} {M : List (BitVec W)} {q : BitVec W} (hq : NegInvDigit M q) (hpos : 1 ≤ M.length)
include hq hpos

/-- A step of the separated reduction is one digit. -/
theorem value_ciosStep {i : Nat} {x : CiosState W} (h : i + M.length < x.t.length) :
    (ciosStep M q i x).value M.length (i + 1) * 2 ^ W =
      x.value M.length i + (limbAt x.t i * q).toNat * limbsVal M := by
  set mid := (x.t.drop i).take M.length with hmid
  have hlen : mid.length = M.length := by simp [hmid]; omega
  have hhead : limbAt mid 0 = limbAt x.t i := by
    simp [hmid, limbAt, List.getElem?_take_of_lt (Nat.zero_lt_of_lt hpos)]
  have hrow := limbsVal_reductionRow hq hlen.symm (hpos.trans_eq hlen.symm)
  have hrowlen := length_mulAddRow (limbAt mid 0 * q) 0#W hlen.symm
  rw [hhead, hlen] at hrow hrowlen
  simp only [CiosState.value, ciosStep, addMulRow_eq_mulAddRow, ← hmid]
  generalize mulAddRow (limbAt x.t i * q) M mid 0#W = row at *
  have htop := addWithCarry_value (limbAt x.t (i + M.length)) row.2 x.hi
  rw [drop_succ_replace _ _ (by omega) (by omega), drop_eq_window h, ← hmid, Nat.add_mul, limbsVal_tail_append (by omega),
    hrowlen, limbsVal_append, hlen, limbsVal, limbsVal]
  linear_combination hrow + 2 ^ (M.length * W) * htop

theorem reducesBy_ciosLoop (count i : Nat) {x : CiosState W} (h : i + count + M.length ≤ x.t.length) :
    ReducesBy W (limbsVal M) count (x.value M.length i) ((ciosLoop M q count i x).value M.length (i + count)) ∧
      (ciosLoop M q count i x).t.length = x.t.length := by
  induction count generalizing i x with
  | zero => exact ⟨reducesBy_zero _ _ _, rfl⟩
  | succ count ih =>
    have hstep := value_ciosStep hq hpos (i := i) (x := x) (by omega)
    have hlen := length_ciosStep q (i := i) (x := x) (M := M) (by omega)
    obtain ⟨hrest, hrestlen⟩ := ih (i + 1) (x := ciosStep M q i x) (by omega)
    rw [Nat.add_assoc i, Nat.add_comm 1 count] at hrest
    exact ⟨hrest.digit (s := 0) hstep, hrestlen.trans hlen⟩

end

/-- The candidate's limbs are the upper half of the array. -/
theorem map_limbAt_add {W n : Nat} {t : List (BitVec W)} (h : t.length = n + n) :
    (List.range n).map (fun j => limbAt t (n + j)) = t.drop n := by
  apply List.ext_getElem
  · simp [h]
  · intro j hj _
    have hjn : j < n := by simpa using hj
    simp [limbAt, h, hjn]

section
variable {p : Params} {M : LimbVec p.W p.N} {q : BitVec p.W} (hM : M.val % 2 = 1) (hq : NegInvDigit M.limbs q)
include hM hq

/-- The separated reduction computes the candidate (R127). -/
theorem ciosCandidate_value (T : LimbVec p.W (p.N + p.N)) :
    (ciosCandidate M q T).1.toNat * p.radix + (ciosCandidate M q T).2.val = cand p.radix M.val T.val := by
  have hlen := M.length_eq
  have hpos : 1 ≤ M.limbs.length := p.one_le.trans_eq hlen.symm
  obtain ⟨hred, hlenT⟩ := reducesBy_ciosLoop hq hpos p.N 0 (x := ⟨T.limbs, false⟩)
    (by rw [hlen, T.length_eq, Nat.zero_add])
  have hcand := hred.eq_cand hM
  have hhigh : (ciosCandidate M q T).2.val = limbsVal ((ciosLoop M.limbs q p.N 0 ⟨T.limbs, false⟩).t.drop p.N) :=
    congrArg limbsVal (map_limbAt_add (hlenT.trans T.length_eq))
  have hstart : CiosState.value M.limbs.length 0 ⟨T.limbs, false⟩ = T.val := by simp [CiosState.value, LimbVec.val]
  rw [hstart, CiosState.value, Nat.zero_add, ← hhigh, hlen, ← Params.radix] at hcand
  rw [Nat.add_comm, Nat.mul_comm]
  exact hcand

end

/-- The final correction of a candidate whose `N` limbs and bit above them are given is the reduction. -/
theorem val_finalSub_of_cand {p : Params} {M x : LimbVec p.W p.N} {hi : Bool} {T : Nat} (hT : T < M.val * p.radix)
    (h : hi.toNat * p.radix + x.val = cand p.radix M.val T) : (finalSub hi x M).val = redc p.radix M.val T := by
  have hlt := h.trans_lt (cand_lt hT)
  rw [Params.radix] at h hlt
  rw [val_finalSub_of_lt hi x M hlt, h, redc_eq_cand_mod hT, Params.radix]

/-- Settles O49: the loop's digits make the candidate, which the final correction reduces. -/
theorem separatedCiosReduces : Obligations.SeparatedCiosReduces := by
  intro p M q T hM hq hT
  have hcand := ciosCandidate_value hM hq T
  exact ⟨hcand, val_finalSub_of_cand hT hcand⟩

/-! ### The interleaved multiplication (R128) -/

/-- The number of an accumulator between two steps: its low limbs with `t[N]` above them. -/
def FusedAcc.value {W : Nat} (t : FusedAcc W) : Nat := limbsVal t.low + 2 ^ (t.low.length * W) * t.tN.toNat

section
variable {W : Nat} {A M : List (BitVec W)} {q : BitVec W}

theorem length_fusedStep (bi : BitVec W) {t : FusedAcc W} (hA : A.length = t.low.length) (hM : M.length = t.low.length)
    (hpos : 1 ≤ t.low.length) : (fusedStep A M q bi t).low.length = t.low.length := by
  have hrow := length_mulAddRow bi 0#W hA
  simp only [fusedStep, List.length_append, List.length_tail, List.length_singleton,
    length_mulAddRow _ _ (hM.trans hrow.symm), hrow]
  omega

/-- The digit of a step: it clears the lowest limb of the accumulator with `A·B[i]` added. -/
def fusedDigit (A : List (BitVec W)) (q bi : BitVec W) (t : FusedAcc W) : BitVec W :=
  limbAt (mulAddRow bi A t.low 0#W).1 0 * q

/-- A step of the interleaved multiplication adds `A·B[i]` and is one digit. -/
theorem value_fusedStep (hq : NegInvDigit M q) (hW : 2 ≤ W) (bi : BitVec W) {t : FusedAcc W}
    (hA : A.length = t.low.length) (hM : M.length = t.low.length) (hpos : 1 ≤ t.low.length) :
    (fusedStep A M q bi t).value * 2 ^ W =
      t.value + limbsVal A * bi.toNat + (fusedDigit A q bi t).toNat * limbsVal M := by
  have hlen := length_fusedStep (q := q) bi hA hM hpos
  have hrow := limbsVal_mulAddRow bi 0#W hA
  have hrowlen := length_mulAddRow bi 0#W hA
  rw [FusedAcc.value, FusedAcc.value, hlen]
  simp only [fusedDigit, fusedStep]
  generalize mulAddRow bi A t.low 0#W = row at *
  have hred := limbsVal_reductionRow hq (hM.trans hrowlen.symm) (hpos.trans_eq hrowlen.symm)
  have hredlen := (length_mulAddRow (limbAt row.1 0 * q) 0#W (hM.trans hrowlen.symm)).trans hrowlen
  generalize mulAddRow (limbAt row.1 0 * q) M row.1 0#W = red at *
  have htop := addWord_value t.tN row.2
  have hlast := addWord_value (addWord t.tN row.2).2 red.2
  have hcarries := toNat_add_carries hW t.tN row.2 (addWord t.tN row.2).2 red.2
  rw [hrowlen] at hred
  rw [BitVec.toNat_zero, Nat.add_zero] at hrow
  rw [Nat.add_mul, limbsVal_tail_append (by omega), hredlen, limbsVal, limbsVal, hcarries]
  linear_combination hred + hrow + 2 ^ (t.low.length * W) * (hlast + htop)

theorem reducesBy_fusedLoop (hq : NegInvDigit M q) (hW : 2 ≤ W) (bs : List (BitVec W)) {t : FusedAcc W}
    (hA : A.length = t.low.length) (hM : M.length = t.low.length) (hpos : 1 ≤ t.low.length) :
    ReducesBy W (limbsVal M) bs.length (t.value + limbsVal A * limbsVal bs) (fusedLoop A M q bs t).value ∧
      (fusedLoop A M q bs t).low.length = t.low.length := by
  induction bs generalizing t with
  | nil => exact ⟨reducesBy_zero _ _ _, rfl⟩
  | cons bi bs ih =>
    have hstep := value_fusedStep hq hW bi hA hM hpos
    have hlen := length_fusedStep (q := q) bi hA hM hpos
    obtain ⟨hrest, hrestlen⟩ := ih (hA.trans hlen.symm) (hM.trans hlen.symm) (hpos.trans_eq hlen.symm)
    have hsplit : t.value + limbsVal A * limbsVal (bi :: bs) =
        t.value + limbsVal A * bi.toNat + 2 ^ W * (limbsVal A * limbsVal bs) := by
      rw [limbsVal]
      ring
    rw [hsplit]
    exact ⟨hrest.digit hstep, hrestlen.trans hlen⟩

end

theorem map_limbAt {W n : Nat} {t : List (BitVec W)} (h : t.length = n) : (List.range n).map (limbAt t) = t := by
  apply List.ext_getElem
  · simp [h]
  · intro j _ hj
    simp [limbAt, hj]

/-- The interleaved multiplication computes the candidate of the product, whatever the operands (R128). -/
theorem fusedCandidate_value {p : Params} {M : LimbVec p.W p.N} {q : BitVec p.W} (hM : M.val % 2 = 1)
    (hq : NegInvDigit M.limbs q) (a b : LimbVec p.W p.N) :
    (fusedCandidate M q a b).1.toNat * p.radix + (fusedCandidate M q a b).2.val = cand p.radix M.val (a.val * b.val) := by
  have hW : 2 ≤ p.W := by obtain h | h := p.W_cases <;> omega
  set t : FusedAcc p.W := ⟨List.replicate p.N 0#p.W, 0#p.W, 0#p.W⟩ with ht
  have hlen : t.low.length = p.N := List.length_replicate
  have hstart : t.value = 0 := by simp [ht, FusedAcc.value, limbsVal_replicate_zero]
  obtain ⟨hred, hloop⟩ := reducesBy_fusedLoop hq hW b.limbs (a.length_eq.trans hlen.symm) (M.length_eq.trans hlen.symm)
    (p.one_le.trans_eq hlen.symm)
  rw [b.length_eq, hstart, Nat.zero_add] at hred
  have hcand := hred.eq_cand hM
  have hlow : (fusedCandidate M q a b).2.val = limbsVal (fusedLoop a.limbs M.limbs q b.limbs t).low :=
    congrArg limbsVal (map_limbAt (hloop.trans hlen))
  rw [FusedAcc.value, ← hlow, hloop, hlen, ← Params.radix] at hcand
  rw [Nat.add_comm, Nat.mul_comm]
  exact hcand

/-- Settles O50: the loop's digits make the candidate, whose bound leaves the top word one bit for the final correction. -/
theorem interleavedCiosMultiplies : Obligations.InterleavedCiosMultiplies := by
  intro p M q a b hM hq hdom
  have hcand := fusedCandidate_value hM hq a b
  have hT : a.val * b.val < M.val * p.radix := by
    obtain ⟨ha, hb⟩ | ⟨h4M, ha, hb⟩ := hdom
    · exact mul_lt_mul_radix M.val_lt ha hb
    · exact mul_lt_mul_radix_of_lazy h4M ha hb
  have hbit : (fusedCandidate M q a b).1.toNat ≤ 1 := by
    have hlt := cand_lt hT
    have hMR : M.val < p.radix := M.val_lt
    refine Nat.le_of_lt_succ (Nat.lt_of_mul_lt_mul_right (a := p.radix) ?_)
    omega
  refine ⟨hbit, hcand, val_finalSub_of_cand hT ?_⟩
  have hlsb : ((fusedCandidate M q a b).1.getLsbD 0).toNat = (fusedCandidate M q a b).1.toNat := by
    obtain h | h := Nat.le_one_iff_eq_zero_or_eq_one.mp hbit <;> simp [BitVec.getLsbD, h]
  rw [hlsb, hcand]

end Sys2Proof
end

section
/-!
The configuration (46_config.md R140 to R143): SETMOD's issue and its completion, and that no other transition but a reset writes
the configuration.
-/

namespace Sys2Proof

/-- `−1` is no square modulo `2^W`: an odd square is 1 modulo 4 (R140, the case `RA = RB`). -/
theorem odd_mul_self_mod_two_pow_ne {W x : Nat} (hW : 2 ≤ W) (hx : x % 2 = 1) : x * x % 2 ^ W ≠ 2 ^ W - 1 := by
  intro h
  have hsquare : x * x % 4 = 1 := by
    obtain ⟨k, rfl⟩ : ∃ k, x = 2 * k + 1 := ⟨x / 2, by omega⟩
    have hring : (2 * k + 1) * (2 * k + 1) = 4 * (k * k + k) + 1 := by ring
    omega
  have h4 : 4 ∣ 2 ^ W := pow_dvd_pow 2 hW
  rw [← Nat.mod_mod_of_dvd _ h4, h] at hsquare
  have hpos := Nat.two_pow_pos W
  omega

end Sys2Proof

namespace Sys2Proof.Machine

variable {p : Params}

/-! ### Issue (R140, R141, R151) -/

/-- SETMOD names no pair, has no overlap to avoid and needs no configuration: it can fail the BUSY check and its own only. -/
theorem issueError_setmod (u : Mau p) (ra rb : RegNum) :
    u.issueError (.setmod ra rb) = if u.inFlight.isSome then some .ebusy
      else if u.badConfig (.setmod ra rb) = false then none else some .ecfg := by
  have hpair : hasOddPair (.setmod ra rb) = false := rfl
  cases hb : u.badConfig (.setmod ra rb) <;> simp [Mau.issueError, Mau.busy_eq, hpair, hasOverlap, readsMod, hb]

/-! ### Completion (R140) -/

/-- Settles O40: the word is its fields, the two failing checks are BUSY and R141's, the effect writes the four configuration
registers from the latched values, and the square of an odd word is never `−1`. -/
theorem setmodRule : Obligations.SetmodRule := by
  refine ⟨fun ra rb => ⟨(Laws.CommandWord.setmod ra rb).1, ?issue, ?complete⟩, ?sameRegister⟩
  case issue =>
    refine issuesWith_of_issueError fun p u => ?_
    simp only [issueError_setmod, badConfig_setmod_eq_false_iff]
    rfl
  case complete =>
    exact completesWith_of_effectOf (i := .setmod ra rb) fun p l u _ =>
      ⟨rfl, rfl, toNat_spareBitsOf p l.a.val, rfl, rfl, rfl⟩
  case sameRegister =>
    rintro p x ⟨hodd, hinv⟩
    have hW : 2 ≤ p.W := by obtain h | h := Params.W_cases p <;> omega
    exact odd_mul_self_mod_two_pow_ne hW hodd hinv

/-! ### What writes the configuration (R143) -/

/-- The configuration stays in every transition but a reset and the completion of a SETMOD, which leaves `CFG_VALID` set. -/
theorem StepsTo.config_cases {u t : Mau p} (h : StepsTo u t) :
    (∃ rest, u.script = .reset :: rest) ∨ SameConfig u t ∨
      (∃ l ra rb, u.completing = some l ∧ l.cmd = .setmod ra rb) ∧ t.cfgValid = true := by
  cases h with
  | reset hs => exact .inl ⟨_, hs⟩
  | @complete l hc =>
    by_cases hset : ∃ ra rb, l.cmd = .setmod ra rb
    · obtain ⟨ra, rb, hcmd⟩ := hset
      exact .inr (.inr ⟨⟨l, ra, rb, hc, hcmd⟩, by rw [hcmd]; rfl⟩)
    · obtain ⟨hm, hq, hs, hv⟩ := sameConfig_effectOf (fun ra rb e => hset ⟨ra, rb, e⟩) l u
      exact .inr (.inl ⟨hm, hq, hs, hv⟩)
  | issue | raise | clear | read | writeLimb | pass => exact .inr (.inl ⟨rfl, rfl, rfl, rfl⟩)

/-- Settles O53: a transition that is no reset keeps the configuration, `CFG_VALID` with it, or is the completion of a SETMOD, which
sets `CFG_VALID`. -/
theorem onlySetmodWritesConfiguration : Obligations.OnlySetmodWritesConfiguration := by
  intro p u t hstep
  obtain hreset | hsame | ⟨hset, hvalid⟩ := (stepsTo_of_step hstep).config_cases
  · exact .inl hreset
  · exact .inr ⟨.inl hsame, fun hv => hsame.cfgValid.trans hv⟩
  · exact .inr ⟨.inr hset, fun _ => hvalid⟩

end Sys2Proof.Machine
end

section
/-!
Errors (60_exceptions.md R151 to R159): how a CMD write ends, as one function of the unit and the word; what a step does to the error
record, with its cause; and that nothing but the record itself and the two words that show it depends on it.
-/

namespace Sys2Proof.Machine

variable {p : Params}

/-- Settles O12: every step is one of the transitions. -/
theorem stepAlwaysAnswers : Obligations.StepAlwaysAnswers := by
  intro s
  obtain ⟨t, hstep, -⟩ := exists_step_stepsTo s.mau
  exact ⟨⟨s.params, t⟩, hstep, rfl⟩

/-! ### The end of a CMD write (R151, R152) -/

/-- The error that a CMD write of word `v` raises, if any: that of the decoded command's issue checks, or that of a word that is no
command. -/
def Mau.cmdError (u : Mau p) (v : BitVec p.W) : Option ErrCode :=
  match decode (v.setWidth 64) with
  | .ok i => u.issueError i
  | .error _ => some (if u.busy then .ebusy else .eill)

theorem cmdError_of_ok (u : Mau p) {v : BitVec p.W} {i : Instr} (hd : decode (v.setWidth 64) = .ok i) :
    u.cmdError v = u.issueError i := by
  rw [Mau.cmdError, hd]

theorem cmdError_of_error (u : Mau p) {v : BitVec p.W} {e : DecodeError} (hd : decode (v.setWidth 64) = .error e) :
    u.cmdError v = some (if u.busy then .ebusy else .eill) := by
  rw [Mau.cmdError, hd]

/-- A CMD write records the error that `cmdError` names, and issues the command where it names none. -/
theorem step_cmdWrite {u : Mau p} {v : BitVec p.W} (hw : u.cmdWrite = some v) :
    ∃ t : Mau p, step ⟨p, u⟩ = .next ⟨p, t⟩ ∧ (∀ code, u.cmdError v = some code → Recorded code v u t) ∧
      (u.cmdError v = none → ∃ i, decode (v.setWidth 64) = .ok i ∧ Issued i u t) := by
  cases hd : decode (v.setWidth 64) with
  | ok i =>
    refine ⟨_, step_issue hw hd, ?_⟩
    rw [cmdError_of_ok u hd]
    obtain ⟨hi, h⟩ | ⟨code, hi, h⟩ := issue_cases u i v <;> rw [hi, h]
    · exact ⟨nofun, fun _ => ⟨i, rfl, rfl⟩⟩
    · refine ⟨?_, nofun⟩
      rintro _ ⟨⟩
      exact recorded_raiseError u code v
  | error e =>
    refine ⟨_, step_reject hw hd, ?_⟩
    rw [cmdError_of_error u hd]
    refine ⟨?_, nofun⟩
    rintro _ ⟨⟩
    exact recorded_raiseError u _ v

/-- The BUSY check comes before any decoding. -/
theorem cmdError_of_busy {u : Mau p} (hf : u.inFlight ≠ none) (v : BitVec p.W) : u.cmdError v = some .ebusy := by
  have hbusy : u.busy = true := Option.isSome_iff_ne_none.mpr hf
  cases hd : decode (v.setWidth 64) with
  | ok i => rw [cmdError_of_ok u hd, Mau.issueError, if_pos hbusy]
  | error e => rw [cmdError_of_error u hd, if_pos hbusy]

theorem cmdError_of_illegal {u : Mau p} (hf : u.inFlight = none) {v : BitVec p.W} (hv : IllegalWord v.toNat) :
    u.cmdError v = some .eill := by
  cases hd : decode (v.setWidth 64) with
  | ok i => exact absurd hv (not_illegalWord_cmd_iff.mpr ⟨i, hd⟩)
  | error e => simp [cmdError_of_error u hd, Mau.busy_eq, hf]

/-- The issue checks that are left when nothing is in flight, those on register numbers as the parts of well-formedness. -/
theorem issueError_of_idle {u : Mau p} (hf : u.inFlight = none) (i : Instr) :
    u.issueError i = if i.pairsEven = false then some .epair else if i.noOverlap = false then some .ealias
      else if readsMod i = true ∧ u.cfgValid = false then some .enocfg
      else if u.badConfig i = true then some .ecfg else none := by
  simp [Mau.issueError, Mau.busy_eq, hf, pairsEven_eq, noOverlap_eq]

theorem issueError_of_oddPair {u : Mau p} (hf : u.inFlight = none) {i : Instr} (h : i.pairsEven = false) :
    u.issueError i = some .epair := by
  rw [issueError_of_idle hf, if_pos h]

theorem issueError_of_overlap {u : Mau p} (hf : u.inFlight = none) {i : Instr} (hpair : i.pairsEven = true)
    (h : i.noOverlap = false) : u.issueError i = some .ealias := by
  simp [issueError_of_idle hf, hpair, h]

/-- A well-formed command is refused for want of a configuration exactly when it reads one and there is none (R153). -/
theorem issueError_eq_enocfg_iff {u : Mau p} (hf : u.inFlight = none) {i : Instr} (hwf : i.WellFormed) :
    u.issueError i = some .enocfg ↔ readsMod i = true ∧ u.cfgValid = false := by
  obtain ⟨hpair, hover⟩ := hwf
  rw [issueError_of_idle hf, if_neg (by simp [hpair]), if_neg (by simp [hover])]
  split
  case isTrue h => exact iff_of_true rfl h
  case isFalse h =>
    refine iff_of_false ?_ h
    split <;> nofun

/-- `V[ra]` and `V[rb]` hold the low limb of a modulus and its m0ninv, as SETMOD asks (R141). -/
def Mau.HoldsConfig (u : Mau p) (ra rb : RegNum) : Prop :=
  ((u.reg ra).limb 0).toNat % 2 = 1 ∧
    ((u.reg ra).limb 0).toNat * ((u.reg rb).limb 0).toNat % 2 ^ p.W = 2 ^ p.W - 1

/-- Only a SETMOD can fail the last check. -/
theorem badConfig_eq_false_iff (u : Mau p) (i : Instr) :
    u.badConfig i = false ↔ ∀ ra rb, i = .setmod ra rb → u.HoldsConfig ra rb := by
  cases i
  case setmod ra rb =>
    constructor
    · rintro h _ _ ⟨⟩
      exact (badConfig_setmod_eq_false_iff u ra rb).mp h
    · exact fun h => (badConfig_setmod_eq_false_iff u ra rb).mpr (h ra rb rfl)
  all_goals exact ⟨fun _ _ _ => nofun, fun _ => rfl⟩

theorem issueError_of_badConfig {u : Mau p} (hf : u.inFlight = none) {ra rb : RegNum} (h : ¬ u.HoldsConfig ra rb) :
    u.issueError (.setmod ra rb) = some .ecfg := by
  have hbad : u.badConfig (.setmod ra rb) ≠ false := fun e => h ((badConfig_eq_false_iff u _).mp e ra rb rfl)
  simp [issueError_setmod, hf, hbad]

/-! ### Operand values do not decide a refusal (R155) -/

theorem badConfig_congr {u u' : Mau p} {i : Instr} (h : ∀ ra rb, i = .setmod ra rb →
    (u.reg ra).limb 0 = (u'.reg ra).limb 0 ∧ (u.reg rb).limb 0 = (u'.reg rb).limb 0) :
    u.badConfig i = u'.badConfig i := by
  cases i
  case setmod ra rb =>
    obtain ⟨ha, hb⟩ := h ra rb rfl
    simp only [Mau.badConfig, ha, hb]
  all_goals rfl

/-- The checks read `BUSY`, `CFG_VALID` and the command, and SETMOD's own check two limbs. -/
theorem cmdError_congr {u u' : Mau p} {v : BitVec p.W} (hbusy : u.inFlight.isSome = u'.inFlight.isSome)
    (hvalid : u.cfgValid = u'.cfgValid) (h : ∀ ra rb, decode (v.setWidth 64) = .ok (.setmod ra rb) →
      (u.reg ra).limb 0 = (u'.reg ra).limb 0 ∧ (u.reg rb).limb 0 = (u'.reg rb).limb 0) :
    u.cmdError v = u'.cmdError v := by
  cases hd : decode (v.setWidth 64) with
  | ok i =>
    have hbad : u.badConfig i = u'.badConfig i := badConfig_congr fun ra rb e => h ra rb (e ▸ hd)
    rw [cmdError_of_ok u hd, cmdError_of_ok u' hd, Mau.issueError, Mau.issueError, Mau.busy_eq, Mau.busy_eq, hbusy, hvalid,
      hbad]
  | error e => rw [cmdError_of_error u hd, cmdError_of_error u' hd, Mau.busy_eq, Mau.busy_eq, hbusy]

/-- Settles O16: the error of the CMD write is one for both states. -/
theorem refusalReadsNoOperands : Obligations.RefusalReadsNoOperands := by
  intro p u u' v hw hw' hbusy hvalid hset
  refine ⟨u.cmdError v, ?_⟩
  rintro w (rfl | rfl)
  · exact step_cmdWrite hw
  · rw [cmdError_congr hbusy hvalid hset]
    exact step_cmdWrite hw'

/-! ### Commands that read the modulus (R153) -/

/-- The commands that read `MOD`, by name. -/
theorem mnemonic_mem_iff_readsMod (i : Instr) :
    i.mnemonic ∈ ["CADDM", "CSUBM", "FINSUB", "FINSUBC", "ADDMOD", "SUBMOD", "ADDMODD", "SUBMODD", "MREDC", "MMUL",
      "MMULNF", "MSQR", "MSQRNF"] ↔ readsMod i = true := by
  cases i <;> simp [Instr.mnemonic, readsMod]

/-- With no error recorded before a CMD write, an error recorded after it is the one that the write raises. -/
theorem cmdError_eq_some_err {u t : Mau p} {v : BitVec p.W}
    (hrec : ∀ code, u.cmdError v = some code → Recorded code v u t)
    (hissue : u.cmdError v = none → ∃ i, decode (v.setWidth 64) = .ok i ∧ Issued i u t) (hu : u.err = .noError)
    (ht : t.err ≠ .noError) : u.cmdError v = some t.err := by
  cases hc : u.cmdError v with
  | some code =>
    obtain ⟨hfirst, -⟩ := hrec code hc
    rw [hfirst hu]
  | none =>
    obtain ⟨i, -, h⟩ := hissue hc
    rw [Issued] at h
    rw [h] at ht
    exact absurd hu ht

/-- Settles O17: of a well-formed command the check raises ENOCFG exactly when the command reads `MOD` and `CFG_VALID = 0`. -/
theorem unconfiguredCommandsRefused : Obligations.UnconfiguredCommandsRefused := by
  intro p u v i hw hd hf hwf
  obtain ⟨t, hstep, hrec, hissue⟩ := step_cmdWrite hw
  have hiff : u.cmdError v = some .enocfg ↔ readsMod i = true ∧ u.cfgValid = false := by
    rw [cmdError_of_ok u hd, issueError_eq_enocfg_iff hf hwf]
  simp only [mnemonic_mem_iff_readsMod]
  refine ⟨t, hstep, fun hmod hvalid => hrec _ (hiff.mpr ⟨hmod, hvalid⟩), ?_⟩
  intro hnot herr ht
  have hraised := cmdError_eq_some_err hrec hissue herr (by simp [ht])
  rw [ht] at hraised
  obtain ⟨hmod, hvalid⟩ := hiff.mp hraised
  obtain h | h := hnot
  · exact h hmod
  · cases hvalid.symm.trans h

/-! ### What a step does to the error record -/

/-- The register words have one address each (R41). -/
def Target.address : Target → Option (BitVec 16)
  | .id => some 0x0000
  | .status => some 0x0001
  | .cmd => some 0x0002
  | .errclr => some 0x0003
  | .errinfo => some 0x0004
  | .sparebits => some 0x0005
  | .m0ninv => some 0x0006
  | .modLimb _ | .regLimb _ _ | .reserved => none

theorem eq_of_target_address {N : Nat} {a b : BitVec 16} (h : (target N a).address = some b) : a = b := by
  apply BitVec.eq_of_toNat_eq
  simp only [target] at h
  repeat' split at h
  all_goals cases h
  all_goals assumption

/-- The next event can raise an error: it is a CMD write, or an operand-register write while `BUSY = 1` (R151). -/
def Mau.MayRaise (u : Mau p) : Prop :=
  (∃ v, u.cmdWrite = some v) ∨
    ∃ r j v rest, j < p.N ∧ u.script = .write (regAddress r j) v :: rest ∧ u.inFlight ≠ none

/-- The next event clears the error record: it is an ERRCLR write with bit 0 set, or a reset (R156, R170). -/
def Mau.ClearsErrors (u : Mau p) : Prop :=
  (∃ v rest, u.script = .write 0x0003 v :: rest ∧ v.getLsbD 0 = true) ∨ ∃ rest, u.script = .reset :: rest

/-- What a step from `u` to `t` does to the error record, with the events that can do it. -/
inductive ErrorStep (u t : Mau p) : Prop where
  | kept (herr : t.err = u.err) (hinfo : t.errInfo = u.errInfo)
  | cleared (herr : t.err = .noError) (hinfo : t.errInfo = 0#p.W) (hcause : u.ClearsErrors)
  | raised (hne : t.err ≠ .noError) (hcause : u.MayRaise)

theorem errorStep_raiseError {u : Mau p} {code : ErrCode} {v : BitVec p.W} (hne : code ≠ .noError)
    (hcause : u.MayRaise) : ErrorStep u (u.raiseError code v).pop := by
  obtain h | h := raiseError_cases u code v <;> rw [h]
  · exact .kept rfl rfl
  · exact .raised hne hcause

theorem errorStep_rejectWord {u : Mau p} {v : BitVec p.W} (hw : u.cmdWrite = some v) :
    ErrorStep u (u.rejectWord v).pop :=
  errorStep_raiseError (by split <;> decide) (.inl ⟨v, hw⟩)

theorem errorStep_portWrite {u : Mau p} {a : BitVec 16} {v : BitVec p.W} {rest : List (Event p)}
    (hs : u.script = .write a v :: rest) : ErrorStep u (u.portWrite a v).pop := by
  unfold Mau.portWrite
  cases ht : target p.N a
  case cmd =>
    obtain rfl : a = 0x0002 := eq_of_target_address (N := p.N) (by rw [ht]; rfl)
    exact errorStep_rejectWord (by simp [Mau.cmdWrite, hs, cmdAddr])
  case errclr =>
    obtain rfl : a = 0x0003 := eq_of_target_address (N := p.N) (by rw [ht]; rfl)
    simp only [Mau.errClear]
    split
    case isTrue hbit => exact .cleared rfl rfl (.inl ⟨v, rest, hs, hbit⟩)
    case isFalse => exact .kept rfl rfl
  case regLimb r j =>
    obtain ⟨rfl, hj⟩ := regAddress_of_target ht
    simp only
    split
    case isTrue hbusy =>
      exact errorStep_raiseError (by decide) (.inr ⟨r, j, v, rest, hj, hs, Option.isSome_iff_ne_none.mp hbusy⟩)
    case isFalse => exact .kept rfl rfl
  all_goals exact .kept rfl rfl

theorem errorStep_otherStep (u : Mau p) : ErrorStep u u.otherStep := by
  unfold Mau.otherStep
  split
  next => exact .kept rfl rfl
  next a rest hs =>
    obtain ⟨w, d, h⟩ := portRead_cases u a
    rw [h]
    exact .kept rfl rfl
  next a v rest hs => exact errorStep_portWrite hs
  next => exact .kept rfl rfl
  next rest hs => exact .cleared rfl rfl (.inr ⟨rest, hs⟩)

/-- Every step keeps the error record, clears it or raises an error, by one of the events that can (R151, R156). -/
theorem errorStep_of_step {u t : Mau p} (hstep : step ⟨p, u⟩ = .next ⟨p, t⟩) : ErrorStep u t := by
  obtain ⟨v, i, hw, -, h⟩ | ⟨v, e, hw, -, h⟩ | ⟨l, -, h⟩ | ⟨-, -, h⟩ := step_cases u <;>
    cases hstep.symm.trans h
  · obtain ⟨-, hi⟩ | ⟨code, hcode, hi⟩ := issue_cases u i v <;> rw [hi]
    · exact .kept rfl rfl
    · exact errorStep_raiseError (issueError_ne_noError hcode) (.inl ⟨v, hw⟩)
  · exact errorStep_rejectWord hw
  · obtain ⟨herr, hinfo, -, -⟩ := effectOf_record l.cmd l u
    exact .kept herr hinfo
  · exact errorStep_otherStep u

/-- An operand-register write while `BUSY = 1` raises EBUSY (R45). -/
theorem step_write_limb_of_busy {u : Mau p} {r : RegNum} {j : Nat} {v : BitVec p.W} {rest : List (Event p)}
    (hs : u.script = .write (regAddress r j) v :: rest) (hj : j < p.N) (hf : u.inFlight ≠ none) :
    step ⟨p, u⟩ = .next ⟨p, (u.raiseError .ebusy v).pop⟩ := by
  have ht : target p.N (regAddress r j) = .regLimb r j := target_regAddress r p.le_max hj
  have hw : u.portWrite (regAddress r j) v = u.raiseError .ebusy v := by
    simp [Mau.portWrite, ht, Mau.busy_eq, Option.isSome_iff_ne_none.mpr hf]
  rw [step_write hs (ne_cmdAddr_of_target (N := p.N) (by simp [ht])), hw]

/-- Settles O13: each clause names the first check that fails, which is the error of the CMD write; and what raises an error is a CMD
write or an operand-register write while `BUSY = 1`. -/
theorem cmdWriteChecksInOrder : Obligations.CmdWriteChecksInOrder := by
  refine ⟨?cmdWrite, ?busyWrite, ?noOther⟩
  case cmdWrite =>
    intro p u v hw
    obtain ⟨t, hstep, hrec, hissue⟩ := step_cmdWrite hw
    refine ⟨t, hstep, fun hf => hrec _ (cmdError_of_busy hf v), fun hf hv => hrec _ (cmdError_of_illegal hf hv), ?_⟩
    intro i hf hd
    rw [cmdError_of_ok u hd] at hrec hissue
    refine ⟨fun h => hrec _ (issueError_of_oddPair hf h), fun hpair h => hrec _ (issueError_of_overlap hf hpair h),
      fun hwf hmod hvalid => hrec _ ((issueError_eq_enocfg_iff hf hwf).mpr ⟨hmod, hvalid⟩), ?_, ?_⟩
    · rintro ra rb rfl h
      exact hrec _ (issueError_of_badConfig hf h)
    · intro hwf hmod hset
      obtain ⟨j, hj, hissued⟩ :=
        hissue ((issueError_eq_none_iff u i).mpr ⟨hf, hwf, hmod, (badConfig_eq_false_iff u i).mpr hset⟩)
      obtain rfl : i = j := Except.ok.inj (hd.symm.trans hj)
      exact hissued
  case busyWrite =>
    intro p u r j v rest hs hj hf
    exact ⟨_, step_write_limb_of_busy hs hj hf, recorded_raiseError u .ebusy v⟩
  case noOther =>
    intro p u t hstep hw hidle
    cases errorStep_of_step hstep with
    | kept herr hinfo => exact .inl ⟨herr, hinfo⟩
    | cleared herr hinfo _ => exact .inr ⟨herr, hinfo⟩
    | raised _ hcause =>
      obtain ⟨v, hv⟩ | ⟨r, j, v, rest, hj, hs, hf⟩ := hcause
      · cases hw.symm.trans hv
      · exact absurd (hidle r j v rest hj hs) hf

/-- Settles O18: the write is the port's ERRCLR write; of what a step does to a recorded error, only the clearing leaves none. -/
theorem errclrClearsErrors : Obligations.ErrclrClearsErrors := by
  constructor
  · intro p u v rest hs
    have hstep : step ⟨p, u⟩ = .next ⟨p, (u.errClear v).pop⟩ := step_write hs (by decide)
    constructor
    · intro hbit
      rw [hstep, Mau.errClear, if_pos hbit, pop_of_script_cons (rest := rest) (by exact hs)]
      rfl
    · intro hbit
      rw [hstep, Mau.errClear, if_neg (ne_true_of_eq_false hbit), pop_of_script_cons hs]
  · intro p u t hstep hu ht
    cases errorStep_of_step hstep with
    | kept herr _ => exact absurd (herr.symm.trans ht) hu
    | cleared _ _ hcause => exact hcause
    | raised hne _ => exact absurd ht hne

/-! ### Nothing else depends on the error record (R157) -/

/-- `u'` is `u` but for the error record. -/
def SameButErrors (u u' : Mau p) : Prop := ∃ e x, u' = { u with err := e, errInfo := x }

theorem SameButErrors.busy_eq {u u' : Mau p} (h : SameButErrors u u') : u'.busy = u.busy := by
  obtain ⟨e, x, rfl⟩ := h
  rfl

theorem SameButErrors.pop {u u' : Mau p} (h : SameButErrors u u') : SameButErrors u.pop u'.pop := by
  obtain ⟨e, x, rfl⟩ := h
  exact ⟨e, x, rfl⟩

theorem SameButErrors.raiseError {u u' : Mau p} (h : SameButErrors u u') (code : ErrCode) (v : BitVec p.W) :
    SameButErrors (u.raiseError code v) (u'.raiseError code v) := by
  obtain ⟨e, x, rfl⟩ := h
  obtain ⟨e₁, x₁, h₁⟩ := raiseError_eq u code v
  obtain ⟨e₂, x₂, h₂⟩ := raiseError_eq { u with err := e, errInfo := x } code v
  rw [h₁, h₂]
  exact ⟨e₂, x₂, rfl⟩

theorem SameButErrors.rejectWord {u u' : Mau p} (h : SameButErrors u u') (v : BitVec p.W) :
    SameButErrors (u.rejectWord v) (u'.rejectWord v) := by
  rw [Mau.rejectWord, Mau.rejectWord, h.busy_eq]
  exact h.raiseError _ v

theorem SameButErrors.issue {u u' : Mau p} (h : SameButErrors u u') (i : Instr) (v : BitVec p.W) :
    SameButErrors (u.issue i v) (u'.issue i v) := by
  have hcheck : u'.issueError i = u.issueError i := by
    obtain ⟨e, x, rfl⟩ := h
    rfl
  rw [Mau.issue, Mau.issue, hcheck]
  cases u.issueError i with
  | some code => exact h.raiseError code v
  | none =>
    obtain ⟨e, x, rfl⟩ := h
    exact ⟨e, x, rfl⟩

/-- A command's effect does not read the error record. -/
theorem SameButErrors.effectOf_finish {u u' : Mau p} (h : SameButErrors u u') (i : Instr) (l : Latch p) :
    SameButErrors (effectOf i l u).finish (effectOf i l u').finish := by
  obtain ⟨e, x, rfl⟩ := h
  have hreg : ∀ b r (y : LimbVec p.W p.N),
      { u with err := e, errInfo := x }.setRegIf b r y = { u.setRegIf b r y with err := e, errInfo := x } := by
    intro b r y
    cases b <;> rfl
  have hpair : ∀ b k (y : LimbVec p.W (p.N + p.N)),
      { u with err := e, errInfo := x }.setPairIf b k y = { u.setPairIf b k y with err := e, errInfo := x } := by
    intro b k y
    cases b <;> rfl
  refine ⟨e, x, congrArg Mau.finish (a₂ := { effectOf i l u with err := e, errInfo := x }) ?_⟩
  cases i
  case addmod | submod | mredc | mmul | mmulnf | msqr | msqrnf => exact hreg _ _ _
  case addmodd | submodd => exact hpair _ _ _
  all_goals rfl

theorem SameButErrors.portWrite {u u' : Mau p} (h : SameButErrors u u') (a : BitVec 16) (v : BitVec p.W) :
    SameButErrors (u.portWrite a v) (u'.portWrite a v) := by
  unfold Mau.portWrite
  cases target p.N a
  case cmd => exact h.rejectWord v
  case errclr =>
    obtain ⟨e, x, rfl⟩ := h
    simp only [Mau.errClear]
    split <;> exact ⟨_, _, rfl⟩
  case regLimb r j =>
    simp only [h.busy_eq]
    split
    case isTrue => exact h.raiseError .ebusy v
    case isFalse =>
      obtain ⟨e, x, rfl⟩ := h
      exact ⟨e, x, rfl⟩
  all_goals exact h

/-- Only STATUS and ERRINFO show the error record. -/
theorem readWords_of_errors (u : Mau p) (e : ErrCode) (x : BitVec p.W) {T : Target} (hstatus : T ≠ .status)
    (hinfo : T ≠ .errinfo) :
    { u with err := e, errInfo := x }.idleWord T = u.idleWord T ∧
      { u with err := e, errInfo := x }.busyWord T = u.busyWord T := by
  cases T
  case status => exact absurd rfl hstatus
  case errinfo => exact absurd rfl hinfo
  all_goals exact ⟨rfl, rfl⟩

/-- A read does not depend on the error record but for the word it answers, and that at STATUS and ERRINFO only; a word that it draws is the
same, at equal counts of draws (log entry 6). -/
theorem portRead_of_errors (u : Mau p) (e : ErrCode) (x : BitVec p.W) (a : BitVec 16) :
    ∃ w, { u with err := e, errInfo := x }.portRead a = { u.portRead a with err := e, errInfo := x, readData := w } ∧
      (a ≠ 0x0001 → a ≠ 0x0004 → w = (u.portRead a).readData) := by
  have hwords : a ≠ 0x0001 → a ≠ 0x0004 →
      { u with err := e, errInfo := x }.idleWord (target p.N a) = u.idleWord (target p.N a) ∧
        { u with err := e, errInfo := x }.busyWord (target p.N a) = u.busyWord (target p.N a) := by
    intro hstatus hinfo
    exact readWords_of_errors u e x
      (fun ht => hstatus (eq_of_target_address (N := p.N) (by rw [ht]; rfl)))
      (fun ht => hinfo (eq_of_target_address (N := p.N) (by rw [ht]; rfl)))
  by_cases hf : u.inFlight = none
  · rw [portRead_of_idle hf, portRead_of_idle (by exact hf)]
    exact ⟨_, rfl, fun hstatus hinfo => congrArg some (hwords hstatus hinfo).1⟩
  · rw [portRead_of_busy hf, portRead_of_busy (by exact hf)]
    exact ⟨_, rfl, fun hstatus hinfo => congrArg some (hwords hstatus hinfo).2⟩

theorem SameButErrors.otherStep {u u' : Mau p} (h : SameButErrors u u') (hread : ∀ a rest, u.script ≠ .read a :: rest) :
    SameButErrors u.otherStep u'.otherStep := by
  have hscript : u'.script = u.script := by
    obtain ⟨e, x, rfl⟩ := h
    rfl
  unfold Mau.otherStep
  rw [hscript]
  cases hs : u.script with
  | nil => exact h
  | cons event rest =>
    cases event with
    | read a => exact absurd hs (hread a rest)
    | write a v => exact (h.portWrite a v).pop
    | unit => exact h.pop
    | reset =>
      obtain ⟨e, x, rfl⟩ := h
      exact ⟨.noError, 0#p.W, rfl⟩

/-- A step that is no read does not depend on the error record but for the record itself. -/
theorem SameButErrors.step {u u' t : Mau p} (h : SameButErrors u u') (hread : ∀ a rest, u.script ≠ .read a :: rest)
    (hstep : Machine.step ⟨p, u⟩ = .next ⟨p, t⟩) :
    ∃ t', Machine.step ⟨p, u'⟩ = .next ⟨p, t'⟩ ∧ SameButErrors t t' := by
  obtain ⟨hcmd, hcompleting⟩ : u'.cmdWrite = u.cmdWrite ∧ u'.completing = u.completing := by
    obtain ⟨e, x, rfl⟩ := h
    exact ⟨rfl, rfl⟩
  obtain ⟨v, i, hw, hd, ht⟩ | ⟨v, e, hw, hd, ht⟩ | ⟨l, hc, ht⟩ | ⟨hw, hc, ht⟩ := step_cases u <;>
    cases hstep.symm.trans ht
  · exact ⟨_, step_issue (hcmd.trans hw) hd, (h.issue i v).pop⟩
  · exact ⟨_, step_reject (hcmd.trans hw) hd, (h.rejectWord v).pop⟩
  · exact ⟨_, step_completion (hcompleting.trans hc), (h.effectOf_finish l.cmd l).pop⟩
  · exact ⟨_, step_other (hcmd.trans hw) (hcompleting.trans hc), h.otherStep hread⟩

/-- Settles O15: a read may depend on the error record in the word it answers, at STATUS and ERRINFO only; any other step in the record
alone. -/
theorem errorsDoNotBlock : Obligations.ErrorsDoNotBlock := by
  intro p u t e x hstep
  by_cases hread : ∃ a rest, u.script = .read a :: rest
  · obtain ⟨a, rest, hs⟩ := hread
    cases hstep.symm.trans (step_read hs)
    obtain ⟨w, hw, hsame⟩ := portRead_of_errors u e x a
    refine ⟨_, step_read hs, ?_, ?_⟩
    · rw [hw]
      rfl
    · intro hne
      obtain ⟨hstatus, hinfo⟩ := hne rest
      rw [hw]
      exact hsame (fun ha => hstatus (ha ▸ hs)) (fun ha => hinfo (ha ▸ hs))
  · push Not at hread
    obtain ⟨t', hstep', e', x', rfl⟩ := SameButErrors.step ⟨e, x, rfl⟩ hread hstep
    exact ⟨_, hstep', rfl, fun _ => rfl⟩

end Sys2Proof.Machine
end

section
/-!
Reset (70_reset_and_hazards.md R170), the end of a command in flight within the events to come (R173; log entry 2), and the sample words
of each family (95_test_vectors.md sections L2.7 and L3).
-/

namespace Sys2Proof

/-! ### Sample words (95_test_vectors.md) -/

theorem decode_of_reserved {v : BitVec 64} (h : rsvField v ≠ 0) : decode v = .error .reservedBits := if_neg h

theorem decode_of_undefined {v : BitVec 64} (hrsv : rsvField v = 0) (h : (opcField v).toNat ∉ definedOpcodes) :
    decode v = .error .undefinedOpcode := (if_pos hrsv).trans (decodeFields_of_undefined h)

/-- A word of a command's row that sets a register field its format does not use is no command (R63). -/
theorem decode_of_unusedField {v : BitVec 64} {i : Instr} (hrsv : rsvField v = 0) (hopc : opcField v = i.opcode)
    (h : ¬ i.format.UnusedZero (rdField v) (rbField v)) : decode v = .error .unusedField :=
  (decode_of_opcode hrsv hopc).trans (if_neg h)

/-- Settles O5: the accepted words are their commands' encodings, and each refused word has the fault that its refusal names. -/
theorem sampleWordsDecode : Obligations.SampleWordsDecode := by
  have of_word : ∀ {v : BitVec 64} {i : Instr}, v = (encode i).setWidth 64 → decode v = .ok i :=
    decode_eq_ok_iff_eq_encode.mpr
  refine ⟨of_word ?_, of_word ?_, of_word ?_, of_word ?_, of_word ?_, of_word ?_, of_word ?_, decode_of_undefined ?_ ?_,
    decode_of_unusedField (i := .setmod 1 2) ?_ ?_ ?_, decode_of_reserved ?_⟩
  all_goals decide

end Sys2Proof

namespace Sys2Proof.Machine

variable {p : Params}

/-! ### Reset (R170) -/

/-- Settles O25: each field of the reset unit is read off its definition, and a zero vector has the value 0. -/
theorem resetValues : Obligations.ResetValues := by
  refine ⟨fun p => ⟨rfl, ?_, rfl, rfl, rfl, rfl, rfl, LimbVec.val_zero p.W p.N, rfl, rfl⟩, rfl⟩
  intro r
  rw [Mau.reg_reset, LimbVec.val_zero]

theorem step_reset {u : Mau p} {rest : List (Event p)} (hs : u.script = .reset :: rest) :
    step ⟨p, u⟩ = .next ⟨p, u.applyReset.pop⟩ := by
  rw [step_other (by simp [Mau.cmdWrite, hs]) (by simp [Mau.completing, hs]), Mau.otherStep, hs]

/-- Settles O26: a reset runs no command, whatever is in flight, and takes its own event off the script that it keeps. -/
theorem resetFromAnyState : Obligations.ResetFromAnyState := by
  intro p u rest hs
  have hkept : u.applyReset.script = .reset :: rest := hs
  rw [step_reset hs, pop_of_script_cons hkept]
  rfl

/-! ### The end of a command in flight (R173; log entry 2) -/

/-- Every transition takes the next event off the script, and nothing else. -/
theorem StepsTo.script_eq {u t : Mau p} (h : StepsTo u t) : t.script = u.script.tail := by
  cases h with
  | @complete l _ =>
    obtain ⟨-, -, hscript, -⟩ := effectOf_record l.cmd l u
    exact congrArg List.tail hscript
  | issue | raise | clear | read | writeLimb | reset | pass => rfl

/-- Within `n` steps the unit has no command in flight. -/
def EndsWithin (n : Nat) (s : State) : Prop :=
  ∃ k t, k ≤ n ∧ core.run k s = .next t ∧ t.mau.inFlight = none

theorem endsWithin_of_idle {s : State} (h : s.mau.inFlight = none) (n : Nat) : EndsWithin n s :=
  ⟨0, s, Nat.zero_le n, rfl, h⟩

theorem run_succ_of_step {M : Host.Core} {s t : M.State} (h : M.step s = .next t) (k : Nat) :
    M.run (k + 1) s = M.run k t := by
  rw [Host.Core.run, h]

theorem EndsWithin.of_step {n : Nat} {s t : State} (ht : EndsWithin n t) (h : step s = .next t) : EndsWithin (n + 1) s := by
  obtain ⟨k, t', hk, hrun, hidle⟩ := ht
  exact ⟨k + 1, t', Nat.succ_le_succ hk, (run_succ_of_step (M := core) h k).trans hrun, hidle⟩

/-- Each step uses up one event, and with none left a command in flight completes. -/
theorem endsWithin_length_script (script : List (Event p)) {u : Mau p} (hs : u.script = script) :
    EndsWithin (script.length + 1) ⟨p, u⟩ := by
  induction script generalizing u with
  | nil =>
    cases hf : u.inFlight with
    | none => exact endsWithin_of_idle hf _
    | some l =>
      have hc : u.completing = some l := by rw [Mau.completing, hs, hf]
      exact (endsWithin_of_idle rfl 0).of_step (step_completion hc)
  | cons event rest ih =>
    obtain ⟨t, hstep, ht⟩ := exists_step_stepsTo u
    have hrest : t.script = rest := by rw [ht.script_eq, hs, List.tail_cons]
    exact (ih hrest).of_step hstep

/-- Settles O57: the bound holds of every state, as an idle one has nothing to end. -/
theorem commandEndsWithinBound : Obligations.CommandEndsWithinBound := fun s _ =>
  endsWithin_length_script s.mau.script rfl

end Sys2Proof.Machine
end
